-- ==== Sys2Proof/Word.lean ====
section
/-!
DEFINITION. The word types of the qoi15 codec engine pair (00_scope.md R6, R10; 10_state.md R22 to R29).
-/

namespace Sys2Proof

/-- A cell of a buffer: a Sample, a WorkingSample or a PackedWord (20_memory.md R60; 00_scope.md R13). -/
abbrev Word := BitVec 16

/-- A 5-bit code of the packed stream (30_encoding.md R84). -/
abbrev Code := BitVec 5

/-- One base-8 digit of a run length, the payload of a RUN code (30_encoding.md R89). -/
abbrev Digit := BitVec 3

/-- A sample count, a word count or an index; `COUNT_BITS` = 32 (00_scope.md R6). -/
abbrev Count := BitVec 32

/-- `SENTINEL`: the initial value of `PREV` and of every cache slot (00_scope.md R6). -/
def sentinel : Word := 0xFFFF

end Sys2Proof
end

