-- ==== Sys2Proof/Config.lean ====
section
/-!
DEFINITION. What is fixed for a run (the tag configuration of 00_scope.md R7) and the one free value of the model
(the contents of a buffer cell that nothing has written, 93_implementation_defined.md U16).
-/

namespace Sys2Proof

/-- `CFG_SEL`: 0 is configuration A, 1 is configuration B (00_scope.md R6, R7). -/
inductive CfgSel where
  | a
  | b
  deriving DecidableEq, Repr

/-- One 5-bit scheme: its header, its payload mask and its payload width (00_scope.md R7). The header and the mask
are kept wider than a code, so that the third clause of R8 (`header | mask <= 0x1F`) says something. -/
structure Scheme where
  header : BitVec 8
  mask : BitVec 8
  width : Nat
  deriving DecidableEq, Repr

/-- A tag record: the three 5-bit schemes (00_scope.md R7). -/
structure TagRecord where
  run : Scheme
  cache : Scheme
  delta : Scheme
  deriving DecidableEq, Repr

/-- The four buffers (20_memory.md R60). -/
inductive Space where
  | encIn
  | encOut
  | decIn
  | decOut
  deriving DecidableEq, Repr

/-- FREE VALUE: what a cell of a buffer holds that nothing has written since power-on (10_state.md R45;
93_implementation_defined.md U16: any value). It depends on the cell alone, so reads are idempotent (20_memory.md R62).
Log entry 3. -/
opaque Config.unwrittenCell : Space → Nat → Word

end Sys2Proof
end

