-- ==== Sys2Proof/Syntax.lean ====
section
/-!
DEFINITION. The instructions: one constructor per row of spec/opcode_table.json (30_encoding.md R81, R82, R85, R86, R95).
-/

namespace Sys2Proof

/-- The symbols of the packed stream, as the decoder interprets them. -/
inductive Instr where
  /-- `RAW v`: the Raw word `0x8000 | v` (30_encoding.md R81, R91). -/
  | raw (v : BitVec 15)
  /-- `CHUNK`: three codes, `a` written and consumed first (30_encoding.md R82). -/
  | chunk (a b c : Code)
  /-- `RUN n`: one base-8 digit of a run length, both configurations (30_encoding.md R85, R86, R89). -/
  | run (n : Digit)
  /-- `CACHE h` of configuration A, 8 slots (30_encoding.md R85, R90). -/
  | cacheA (h : BitVec 3)
  /-- `DELTA` of configuration A, by its payload `p` (30_encoding.md R85, R88). -/
  | deltaA (p : BitVec 4)
  /-- `DELTA` of configuration B, by its payload `p` (30_encoding.md R86, R88). -/
  | deltaB (p : BitVec 3)
  /-- `CACHE h` of configuration B, 16 slots (30_encoding.md R86, R90). -/
  | cacheB (h : BitVec 4)
  /-- `PAD`: the pseudo-instruction, the code 0 a flush inserts; the same bits as `RUN 0` (30_encoding.md R92, R96). -/
  | pad
  deriving DecidableEq, Repr

/-- The bits of one symbol: a 16-bit PackedWord or a 5-bit code (30_encoding.md R80, R84). -/
inductive Symbol where
  | word (w : Word)
  | code (c : Code)
  deriving DecidableEq, Repr

end Sys2Proof
end

