-- ==== Sys2Proof/WellFormed.lean ====
section
/-!
DEFINITION. Which instructions a configuration has, and which tag records are valid (00_scope.md R8; 30_encoding.md R85, R86).
The widths of operands are in their types.
-/

namespace Sys2Proof

/-- The symbol exists in configuration `sel`: the two encodings of CACHE and of DELTA belong to one configuration each
(30_encoding.md R85, R86, R95); RAW, CHUNK, RUN and PAD to both. -/
def Instr.wellFormed (sel : CfgSel) : Instr → Bool
  | .raw _ => true
  | .chunk _ _ _ => true
  | .run _ => true
  | .cacheA _ => sel == .a
  | .deltaA _ => sel == .a
  | .deltaB _ => sel == .b
  | .cacheB _ => sel == .b
  | .pad => true

/-- The core instruction a symbol is: `PAD` is `RUN 0` (30_encoding.md R92, R96), every other symbol is itself. -/
def Instr.core : Instr → Instr
  | .raw v => .raw v
  | .chunk a b c => .chunk a b c
  | .run n => .run n
  | .cacheA h => .cacheA h
  | .deltaA p => .deltaA p
  | .deltaB p => .deltaB p
  | .cacheB h => .cacheB h
  | .pad => .run 0

/-- First clause of 00_scope.md R8: the mask is `2^width - 1` with width at least 1. -/
def Scheme.maskIsWidth (x : Scheme) : Bool :=
  decide (1 ≤ x.width) && decide (x.mask.toNat = 2 ^ x.width - 1)

/-- Second clause of R8: `header & mask = 0`. -/
def Scheme.headerClear (x : Scheme) : Bool :=
  x.header &&& x.mask == 0

/-- Third clause of R8: `header | mask <= 0x1F`. -/
def Scheme.fitsCode (x : Scheme) : Bool :=
  decide ((x.header ||| x.mask).toNat ≤ 0x1F)

/-- The code set `{header | p : 0 <= p <= mask}` of R8. -/
def Scheme.codeSet (x : Scheme) : List (BitVec 8) :=
  (List.range (x.mask.toNat + 1)).map fun p => x.header ||| BitVec.ofNat 8 p

/-- Two schemes share no code. -/
def Scheme.disjoint (x y : Scheme) : Bool :=
  x.codeSet.all fun c => !y.codeSet.contains c

/-- The first three clauses of R8, for one scheme. -/
def Scheme.valid (x : Scheme) : Bool :=
  x.maskIsWidth && x.headerClear && x.fitsCode

/-- The validity predicate of 00_scope.md R8. -/
def TagRecord.valid (t : TagRecord) : Bool :=
  t.run.valid && t.cache.valid && t.delta.valid
    && t.run.disjoint t.cache && t.run.disjoint t.delta && t.cache.disjoint t.delta

end Sys2Proof
end

