-- ==== Sys2Proof/Decode.lean ====
section
/-!
DEFINITION. The encodings of 30_encoding.md: the two tag records, the decoder (total on every 16-bit word and every 5-bit
code, rejecting by name any number that is neither), and the encoder written from the same tables.
-/

namespace Sys2Proof

/-- The tag record of a configuration: the table of 00_scope.md R7. -/
def tagsOf : CfgSel → TagRecord
  | .a => { run := ⟨0x00, 0x07, 3⟩, cache := ⟨0x08, 0x07, 3⟩, delta := ⟨0x10, 0x0F, 4⟩ }
  | .b => { run := ⟨0x00, 0x07, 3⟩, cache := ⟨0x10, 0x0F, 4⟩, delta := ⟨0x08, 0x07, 3⟩ }

/-- `IsX(c) = ((c & (0x1F & ~X_M)) = X_H)`: the tag test of 30_encoding.md R86. -/
def Scheme.isTagOf (x : Scheme) (c : Code) : Bool :=
  c.setWidth 8 &&& (0x1F &&& ~~~x.mask) == x.header

/-- The payload bits of a code, `code & mask` (30_encoding.md R84). -/
def Scheme.payload (x : Scheme) (c : Code) : BitVec 8 :=
  c.setWidth 8 &&& x.mask

/-- `header | payload` (30_encoding.md R84). -/
def Scheme.codeOf (x : Scheme) (p : BitVec 8) : Code :=
  (x.header ||| p).setWidth 5

/-- `Raw.IsValid(word)`: bit 15 is set (44_raw_escape.md R165). -/
def rawIsValid (w : Word) : Bool :=
  w &&& 0x8000 != 0

/-- `Pack3(a, b, c) = a | (b << 5) | (c << 10)` (45_packed_stream.md R176). -/
def pack3 (a b c : Code) : Word :=
  a.setWidth 16 ||| (b.setWidth 16 <<< 5) ||| (c.setWidth 16 <<< 10)

/-- `Unpack3(word) = (word[4:0], word[9:5], word[14:10])` (45_packed_stream.md R181). -/
def unpack3 (w : Word) : Code × Code × Code :=
  (w.extractLsb' 0 5, w.extractLsb' 5 5, w.extractLsb' 10 5)

/-- `0x8000 | current` (44_raw_escape.md R166). -/
def rawWord (v : Word) : Word :=
  0x8000 ||| v

/-- The kind of a PackedWord is told by bit 15 (30_encoding.md R81 to R83; 45_packed_stream.md R182). -/
def decodeWord (w : Word) : Instr :=
  if rawIsValid w then .raw (w.extractLsb' 0 15)
  else .chunk (unpack3 w).1 (unpack3 w).2.1 (unpack3 w).2.2

/-- The kind of a 5-bit code is told by the tag test of the configuration in force, run-length first, then delta, else
cache (47_decoder_fsm.md R221; 30_encoding.md R85 to R87). The code 0 is `RUN 0`: the decoder does not treat a pad
specially (30_encoding.md R92). -/
def decodeCode (sel : CfgSel) (c : Code) : Instr :=
  if (tagsOf sel).run.isTagOf c then .run (((tagsOf sel).run.payload c).setWidth 3)
  else
    match sel with
    | .a =>
      if (tagsOf .a).delta.isTagOf c then .deltaA (((tagsOf .a).delta.payload c).setWidth 4)
      else .cacheA (((tagsOf .a).cache.payload c).setWidth 3)
    | .b =>
      if (tagsOf .b).delta.isTagOf c then .deltaB (((tagsOf .b).delta.payload c).setWidth 3)
      else .cacheB (((tagsOf .b).cache.payload c).setWidth 4)

/-- The instruction a symbol's bits stand for in configuration `sel`: total, since every word and every code decodes
(30_encoding.md R87, R93). -/
def decode (sel : CfgSel) : Symbol → Instr
  | .word w => decodeWord w
  | .code c => decodeCode sel c

/-- Why a number is no symbol of the stream: there are only 16-bit words and 5-bit codes (30_encoding.md R80, R84, R94). -/
inductive Reject where
  /-- The number needs more than the 16 bits of a PackedWord. -/
  | notAWord
  /-- The number needs more than the 5 bits of a code. -/
  | notACode
  /-- Neither the width of a word (16) nor that of a code (5, or 8 when counted in whole bytes). -/
  | noSuchWidth
  deriving DecidableEq, Repr

/-- The symbol that a number `w` of `nbits` bits is, or the reason it is none. -/
def symbolOf (nbits w : Nat) : Except Reject Symbol :=
  if nbits = 16 then
    if w < 2 ^ 16 then .ok (.word (BitVec.ofNat 16 w)) else .error .notAWord
  else if nbits = 5 ∨ nbits = 8 then
    if w < 2 ^ 5 then .ok (.code (BitVec.ofNat 5 w)) else .error .notACode
  else .error .noSuchWidth

/-- The decoder on any number of any width: an instruction or a rejection by name. -/
def decodeNumber (sel : CfgSel) (nbits w : Nat) : Except Reject Instr :=
  match symbolOf nbits w with
  | .ok y => .ok (decode sel y)
  | .error r => .error r

/-- The host's question: the instruction of a row's bits. The table has no configuration argument, and rows of
configurations A and B share their bits, so the answer is the one of `CFG_SEL` = 0, the value after reset (log entry 5). -/
def decodeTableWord (nbits w : Nat) : Option Instr :=
  match decodeNumber .a nbits w with
  | .ok i => some i
  | .error _ => none

/-- The bits of an instruction, from the tables of 30_encoding.md (R81, R82, R85, R86, R92). -/
def encode : Instr → Symbol
  | .raw v => .word (rawWord (v.setWidth 16))
  | .chunk a b c => .word (pack3 a b c)
  | .run n => .code ((tagsOf .a).run.codeOf (n.setWidth 8))
  | .cacheA h => .code ((tagsOf .a).cache.codeOf (h.setWidth 8))
  | .deltaA p => .code ((tagsOf .a).delta.codeOf (p.setWidth 8))
  | .deltaB p => .code ((tagsOf .b).delta.codeOf (p.setWidth 8))
  | .cacheB h => .code ((tagsOf .b).cache.codeOf (h.setWidth 8))
  | .pad => .code 0

/-- A row of the opcode table: the number of bits, and the match and the mask of its fixed bits. -/
structure TableRow where
  width : Nat
  mtch : Nat
  mask : Nat
  deriving DecidableEq, Repr

/-- The row of spec/opcode_table.json an instruction belongs to, its numbers as the table has them. -/
def tableRow : Instr → TableRow
  | .raw _ => ⟨16, 0x8000, 0x8000⟩
  | .chunk _ _ _ => ⟨16, 0x0000, 0x8000⟩
  | .run _ => ⟨5, 0x00, 0x18⟩
  | .cacheA _ => ⟨5, 0x08, 0x18⟩
  | .deltaA _ => ⟨5, 0x10, 0x10⟩
  | .deltaB _ => ⟨5, 0x08, 0x18⟩
  | .cacheB _ => ⟨5, 0x10, 0x10⟩
  | .pad => ⟨5, 0x00, 0x1F⟩

/-- A symbol's width in bits. -/
def Symbol.width : Symbol → Nat
  | .word _ => 16
  | .code _ => 5

/-- A symbol's bits as one number. -/
def Symbol.toNat : Symbol → Nat
  | .word w => w.toNat
  | .code c => c.toNat

end Sys2Proof
end

