-- ==== Sys2Proof/Machine/State.lean ====
section
/-!
DEFINITION. The state of the engine pair (10_state.md R20 to R45) as plain data, its reset (R45; 70_reset_and_hazards.md
R280), and the reasons a step of the model can stop.
-/

namespace Sys2Proof.Machine

open Sys2Proof

/-- `PHASE` (10_state.md R35). -/
inductive Phase where
  | idle
  | busy
  | done
  | fault
  deriving DecidableEq, Repr

/-- The `FAULT` field: why a run ended in the FAULT phase (60_exceptions.md R250). -/
inductive FaultCode where
  /-- Code 0: no fault. -/
  | none
  /-- Code 1: `S` = 0 at START (R251). -/
  | cfgPrecisionZero
  /-- Code 2: the tag record fails the validity predicate at START (R252). -/
  | cfgTagOverlap
  /-- Code 3: the stream ended with fewer than `EXPECTED` samples (R253). -/
  | decTruncated
  /-- Code 4: a sample or a run would pass `EXPECTED` (R254). -/
  | decExcessOutput
  /-- Code 5: a DELTA code, or a run of length above 0, while `PREV` is the sentinel (R255). -/
  | decNoPrevious
  /-- Code 6: a CACHE code names a slot holding the sentinel (R257). -/
  | decCacheEmpty
  /-- Code 7: a reconstructed WorkingSample lies outside its range (R258). -/
  | decSampleRange
  deriving DecidableEq, Repr

/-- A buffer: the cells something has written, as (index, value) pairs in strictly rising order of index
(20_memory.md R60; log entries 3 and 4). -/
abbrev Memory := List (Nat × Word)

/-- What the two engines have alike: each owns a private copy (10_state.md R20). -/
structure Engine where
  /-- `S`, the precision drop (R32, R33). -/
  prec : BitVec 4
  /-- `HASH_SHIFT` (R32, R33). -/
  hashShift : BitVec 4
  /-- `CFG_SEL` (R32, R33). -/
  cfgSel : CfgSel
  /-- `PREV` (R22). -/
  prev : Word
  /-- `CACHE`, sized for both configurations (R38). -/
  cache : Vector Word 16
  /-- `OUTN` (R37). -/
  outn : Count
  /-- `PHASE` (R35). -/
  phase : Phase
  /-- `FAULT` (R35). -/
  fault : FaultCode
  /-- The buffer `IN` (R43). -/
  inBuf : Memory
  /-- The buffer `OUT` (R43). -/
  outBuf : Memory
  deriving DecidableEq, Repr

/-- The encoder engine `ENC`. -/
structure Enc extends Engine where
  /-- `ENC_COUNT` (R32). -/
  count : Count
  /-- `IDX` (R28). -/
  idx : Count
  /-- `RUN` (R23). -/
  run : Count
  /-- `PEND`, the oldest code first (R24). -/
  pend : List Code
  deriving DecidableEq, Repr

/-- The decoder engine `DEC`. -/
structure Dec extends Engine where
  /-- `DEC_PCOUNT` (R33). -/
  pcount : Count
  /-- `DEC_EXPECTED` (R33). -/
  expected : Count
  /-- `RPTR` (R29). -/
  rptr : Count
  /-- `Q`, the oldest code first (R25). -/
  q : List Code
  /-- `ACC`, in arrival order (R26). -/
  acc : List Digit
  deriving DecidableEq, Repr

/-- Which engine. -/
inductive Side where
  | enc
  | dec
  deriving DecidableEq, Repr

/-- A move of the pair or of its host. -/
inductive Move where
  /-- One engine performs one step, if it is BUSY (00_scope.md R12). -/
  | engine (e : Side)
  /-- Hardware reset (70_reset_and_hazards.md R280). -/
  | hardReset
  /-- The host writes control register number `no` of an engine (10_state.md R32, R33, R36). -/
  | writeReg (e : Side) (no : Nat) (v : BitVec 32)
  /-- The host reads control register number `no` of an engine (10_state.md R32, R33). -/
  | readReg (e : Side) (no : Nat)
  /-- The host places a value in cell `i` of an engine's `IN` (70_reset_and_hazards.md R284). -/
  | writeIn (e : Side) (i : Count) (v : Word)
  /-- The host reads cell `i` of an engine's `OUT` (70_reset_and_hazards.md R285). -/
  | readOut (e : Side) (i : Count)
  deriving DecidableEq, Repr

/-- The whole machine. -/
structure State where
  enc : Enc
  dec : Dec
  /-- The moves still to come, the next one first: the model's own field (log entry 1). -/
  agenda : List Move
  /-- The engine that steps next while `agenda` is empty: the model's own field (log entry 1). -/
  turn : Side
  /-- What the last read of the host delivered: the model's own field (log entry 2). -/
  rdata : BitVec 32
  deriving DecidableEq, Repr

/-- Why the machine stops with a fault. The block's own faults (60_exceptions.md R250) are no stops: they are next
states in the FAULT phase. -/
inductive Fault where
  /-- Raised by a host read or write of a control register number that the register map does not list
  (10_state.md R32, R33). Safe: the model stops where the spec gives no behaviour. Log entry 6. -/
  | noSuchRegister (e : Side) (no : Nat)
  deriving DecidableEq, Repr

/-- Why the machine refuses. -/
inductive Refusal where
  /-- Raised by an arm of exec that has no meaning yet. Safe: nothing can be proved of such an instruction. -/
  | notModelled (mnemonic : String)
  /-- Raised by a host write to `IN` while its engine is BUSY, for which the spec says the model has no move
  (93_implementation_defined.md U17; 20_memory.md R72). Safe. Log entry 7. -/
  | inputWriteWhileBusy (e : Side)
  deriving DecidableEq, Repr

/-- The reset values of 10_state.md R45 that both engines have; the buffers list nothing. -/
def Engine.reset : Engine where
  prec := 1
  hashShift := 0
  cfgSel := .a
  prev := sentinel
  cache := Vector.replicate 16 sentinel
  outn := 0
  phase := .idle
  fault := .none
  inBuf := []
  outBuf := []

/-- The encoder after hardware reset (R45). -/
def Enc.reset : Enc :=
  { Engine.reset with count := 0, idx := 0, run := 0, pend := [] }

/-- The decoder after hardware reset (R45). -/
def Dec.reset : Dec :=
  { Engine.reset with pcount := 0, expected := 0, rptr := 0, q := [], acc := [] }

/-- The machine right after reset (R45; 70_reset_and_hazards.md R280). The last three fields are the model's own
(log entries 1 and 2). -/
def State.reset : State where
  enc := Enc.reset
  dec := Dec.reset
  agenda := []
  turn := .dec
  rdata := 0

end Sys2Proof.Machine
end

