-- ==== Sys2Proof/Machine/Flags.lean ====
section
/-!
DEFINITION. The block has no condition flags (10_state.md R30): no operation writes a flag as a side effect. What a host
can read of a run's state is `PHASE` and `FAULT`; this file gives their numbers and the `STATUS` and `CFG` words
(10_state.md R32, R33, R35; 60_exceptions.md R250).
-/

namespace Sys2Proof.Machine

open Sys2Proof

/-- The 2-bit number of a phase (R35). -/
def phaseBits : Phase → BitVec 2
  | .idle => 0
  | .busy => 1
  | .done => 2
  | .fault => 3

/-- The 4-bit number of a fault (R250). -/
def faultBits : FaultCode → BitVec 4
  | .none => 0
  | .cfgPrecisionZero => 1
  | .cfgTagOverlap => 2
  | .decTruncated => 3
  | .decExcessOutput => 4
  | .decNoPrevious => 5
  | .decCacheEmpty => 6
  | .decSampleRange => 7

/-- `STATUS`: `PHASE` in bits 1..0, `FAULT` in bits 5..2; bits above read as 0 (R32 to R34). -/
def statusWord (g : Engine) : BitVec 32 :=
  (faultBits g.fault ++ phaseBits g.phase).setWidth 32

/-- The bit of `CFG_SEL` (00_scope.md R6). -/
def cfgSelBit : CfgSel → BitVec 1
  | .a => 0
  | .b => 1

/-- The configuration a bit selects. -/
def cfgSelOf (b : Bool) : CfgSel :=
  if b then .b else .a

/-- `CFG`: `S` in bits 3..0, `HASH_SHIFT` in bits 7..4, `CFG_SEL` in bit 8; bits above read as 0 (R32 to R34). -/
def cfgWord (g : Engine) : BitVec 32 :=
  (cfgSelBit g.cfgSel ++ g.hashShift ++ g.prec).setWidth 32

end Sys2Proof.Machine
end

