-- ==== Sys2Proof/Machine/Operands.lean ====
section
/-!
DEFINITION. The value computations of the components: Precision Reducer (40_precision_reducer.md), Bias-Delta Coder
(41_bias_delta.md), Run-Length Coder (42_run_length.md), the hash of the Recent-Value Cache (43_recent_value_cache.md).
Pure functions of operands and parameters; arithmetic is on exact integers (00_scope.md R10; 41_bias_delta.md R126).
-/

namespace Sys2Proof.Machine

open Sys2Proof

/-- `Get(sample) = sample >> S` (R110). -/
def precGet (s : BitVec 4) (x : Word) : Word :=
  x >>> s.toNat

/-- `Set(w) = w << S` (R112). -/
def precSet (s : BitVec 4) (w : Word) : Word :=
  w <<< s.toNat

/-- The largest WorkingSample, `2^(16-S) - 1` (R111). -/
def maxWorking (s : BitVec 4) : Nat :=
  2 ^ (16 - s.toNat) - 1

/-- `Diff(current, previous) = int(current) - int(previous)`, exact (R121). -/
def deltaDiff (cur prev : Word) : Int :=
  (cur.toNat : Int) - (prev.toNat : Int)

/-- `MAXV = 2^(w-1)`, `w` the payload width of the delta scheme (R120). -/
def maxv (sel : CfgSel) : Nat :=
  2 ^ ((tagsOf sel).delta.width - 1)

/-- `Delta.IsValid(diff)` (R122). -/
def deltaIsValid (sel : CfgSel) (d : Int) : Bool :=
  decide (d ≠ 0) && decide (-(maxv sel : Int) ≤ d) && decide (d ≤ (maxv sel : Int))

/-- The biased payload of a difference (R123). -/
def deltaBias (m : Nat) (d : Int) : Int :=
  if d < 0 then d + m else d + (m - 1)

/-- `Delta.Encode(diff)` (R123). -/
def deltaEncode (sel : CfgSel) (d : Int) : Code :=
  (tagsOf sel).delta.codeOf (BitVec.ofInt 8 (deltaBias (maxv sel) d))

/-- The difference a payload stands for (R124). -/
def deltaUnbias (m p : Nat) : Int :=
  if p < m then (p : Int) - m else (p : Int) - (m - 1)

/-- `Delta.Decode`: the exact sum of the previous sample and the payload's difference (R124). -/
def deltaDecode (m p : Nat) (prev : Word) : Int :=
  (prev.toNat : Int) + deltaUnbias m p

/-- `RUN_W` (R135). -/
def runW : Nat := 3

/-- `RL.Length` from position `i` on: the sum of `acc[i] << (RUN_W * i)` over unbounded naturals (R138). -/
def runLengthFrom : Nat → List Digit → Nat
  | _, [] => 0
  | i, p :: ps => (p.toNat <<< (runW * i)) + runLengthFrom (i + 1) ps

/-- `RL.Length(acc)` (R138). -/
def runLength (acc : List Digit) : Nat :=
  runLengthFrom 0 acc

/-- The digits `RL.Emit` writes, least significant first: a do-while loop (R136), cut off after `fuel` digits. -/
def runDigitsFuel : Nat → Nat → List Digit
  | 0, _ => []
  | fuel + 1, n => BitVec.ofNat 3 n :: (if n >>> runW = 0 then [] else runDigitsFuel fuel (n >>> runW))

/-- The digits of a 32-bit length: there are at most 11 (R136). -/
def runDigits (n : Nat) : List Digit :=
  runDigitsFuel 11 n

/-- The code of one digit, `RUN_H | (length & RUN_M)` (R136). -/
def runCode (sel : CfgSel) (n : Digit) : Code :=
  (tagsOf sel).run.codeOf (n.setWidth 8)

/-- `RUNLEN L`: the code sequence of a run length (30_encoding.md R96; 42_run_length.md R136). -/
def runCodes (sel : CfgSel) (n : Nat) : List Code :=
  (runDigits n).map (runCode sel)

/-- The bounded form of the run accumulator (10_state.md R27): `ACC_VAL`, `ACC_OVF`, `ACC_N`. -/
structure BoundedAcc where
  val : BitVec 32
  ovf : Bool
  n : Nat
  deriving DecidableEq, Repr

/-- The empty bounded accumulator (R27). -/
def boundedAccEmpty : BoundedAcc :=
  { val := 0, ovf := false, n := 0 }

/-- Appending a payload to the bounded accumulator (R27). -/
def boundedAccPush (b : BoundedAcc) (p : Digit) : BoundedAcc :=
  if b.n < 11 ∧ p.toNat <<< (runW * b.n) < 2 ^ 32 then
    { val := b.val + BitVec.ofNat 32 (p.toNat <<< (runW * b.n)), ovf := b.ovf, n := min (b.n + 1) 11 }
  else
    { val := b.val, ovf := b.ovf || p != 0, n := min (b.n + 1) 11 }

/-- The bounded accumulator after a list of payloads in arrival order (R27). -/
def boundedAccOf (acc : List Digit) : BoundedAcc :=
  acc.foldl boundedAccPush boundedAccEmpty

/-- `Hash(value) = (value >> HASH_SHIFT) & CACHE_M` (R150); the mask leaves at most 4 bits, so the slot number is given
as 4 bits. -/
def hashSlot (sel : CfgSel) (shift : BitVec 4) (v : Word) : BitVec 4 :=
  ((v >>> shift.toNat) &&& (tagsOf sel).cache.mask.setWidth 16).setWidth 4

/-- `CACHE_H | Hash(current)` (R152). -/
def cacheCode (sel : CfgSel) (slot : BitVec 4) : Code :=
  (tagsOf sel).cache.codeOf (slot.setWidth 8)

end Sys2Proof.Machine
end

