-- ==== Sys2Proof/Machine/Ops.lean ====
section
/-!
DEFINITION. The shared operations over buffers and registers: reading and appending cells (20_memory.md R62 to R64), the
cache (43_recent_value_cache.md), entering a fault and the resets that alone leave it (60_exceptions.md R256, R261), START
(70_reset_and_hazards.md R283), and the decoder's Emit and Resolve (47_decoder_fsm.md R228, R229).
-/

namespace Sys2Proof.Machine

open Sys2Proof

/-! ### Buffers -/

/-- The canonical form of a buffer: indices strictly rising, each a 32-bit index (20_memory.md R60; log entry 4). -/
abbrev Memory.wf (m : Memory) : Prop :=
  m.Pairwise (fun x y => x.1 < y.1) ∧ ∀ x ∈ m, x.1 < 2 ^ 32

/-- The value written to a cell, if anything has written it. -/
def Memory.read? : Memory → Nat → Option Word
  | [], _ => none
  | (j, u) :: m, i => if i = j then some u else Memory.read? m i

/-- Store `v` in cell `i`; the canonical form is kept. -/
def Memory.write : Memory → Nat → Word → Memory
  | [], i, v => [(i, v)]
  | (j, u) :: m, i, v =>
    if i < j then (i, v) :: (j, u) :: m
    else if i = j then (i, v) :: m
    else (j, u) :: Memory.write m i v

/-- `MemRead(space, i)` (20_memory.md R62). A cell nothing has written reads as its free value (log entry 3). -/
def memRead (sp : Space) (m : Memory) (i : Nat) : Word :=
  match m.read? i with
  | some v => v
  | none => Config.unwrittenCell sp i

/-- `OutAppend(v)`: `MemWrite(OUT, OUTN, v); OUTN <- OUTN + 1` (20_memory.md R63, R64). -/
def Engine.outAppend (g : Engine) (v : Word) : Engine :=
  { g with outBuf := g.outBuf.write g.outn.toNat v, outn := g.outn + 1 }

/-- `repeat n times: OutAppend(v)` (47_decoder_fsm.md R229). -/
def Engine.outAppendN (v : Word) : Nat → Engine → Engine
  | 0, g => g
  | n + 1, g => Engine.outAppendN v n (g.outAppend v)

/-! ### Registers and the cache -/

/-- `PREV <- v`. -/
def Engine.setPrev (g : Engine) (v : Word) : Engine :=
  { g with prev := v }

/-- `CACHE[i]` (00_scope.md R11). -/
def Engine.slot (g : Engine) (i : BitVec 4) : Word :=
  g.cache[i.toNat]'(i.isLt)

/-- `Hash(v)` with the engine's parameters (43_recent_value_cache.md R150). -/
def Engine.hash (g : Engine) (v : Word) : BitVec 4 :=
  hashSlot g.cfgSel g.hashShift v

/-- `CACHE[Hash(v)] <- v`, the only write to a cache (43_recent_value_cache.md R154). -/
def Engine.insert (g : Engine) (v : Word) : Engine :=
  { g with cache := g.cache.set (g.hash v).toNat v (g.hash v).isLt }

/-- `Q <- Q without its first element` (47_decoder_fsm.md R221). -/
def Dec.popCode (d : Dec) : Dec :=
  { d with q := d.q.tail }

/-- `RPTR <- RPTR + 1` (47_decoder_fsm.md R221; 10_state.md R29). -/
def Dec.nextWord (d : Dec) : Dec :=
  { d with rptr := d.rptr + 1 }

/-! ### Faults and resets -/

/-- Fault entry: `PHASE <- FAULT; FAULT <- code`, and nothing else changes (60_exceptions.md R256). -/
def Engine.raise (g : Engine) (f : FaultCode) : Engine :=
  { g with phase := .fault, fault := f }

/-- Soft reset of what both engines have: the working state, `PHASE` and `FAULT` take their reset values; the
configuration registers and the buffers keep theirs (70_reset_and_hazards.md R281). Reset is the only way out of the
FAULT phase (60_exceptions.md R261), and the resets alone restart `PREV`, the cache and `ACC` (R289, R291). -/
def Engine.softReset (g : Engine) : Engine :=
  { Engine.reset with
    prec := g.prec, hashShift := g.hashShift, cfgSel := g.cfgSel, inBuf := g.inBuf, outBuf := g.outBuf }

/-- Hardware reset of what both engines have: as soft reset, and the configuration at its defaults; the buffers are not
touched (70_reset_and_hazards.md R280). -/
def Engine.hardReset (g : Engine) : Engine :=
  { Engine.reset with inBuf := g.inBuf, outBuf := g.outBuf }

/-- Soft reset of the encoder (R281). -/
def Enc.softReset (e : Enc) : Enc :=
  { e.toEngine.softReset with count := e.count, idx := 0, run := 0, pend := [] }

/-- Soft reset of the decoder (R281). -/
def Dec.softReset (d : Dec) : Dec :=
  { d.toEngine.softReset with pcount := d.pcount, expected := d.expected, rptr := 0, q := [], acc := [] }

/-- Hardware reset of the encoder (R280). -/
def Enc.hardReset (e : Enc) : Enc :=
  { e.toEngine.hardReset with count := 0, idx := 0, run := 0, pend := [] }

/-- Hardware reset of the decoder (R280). -/
def Dec.hardReset (d : Dec) : Dec :=
  { d.toEngine.hardReset with pcount := 0, expected := 0, rptr := 0, q := [], acc := [] }

/-- START in IDLE: the two configuration checks in the order of the rule, else BUSY (70_reset_and_hazards.md R283;
60_exceptions.md R251, R252). START in any other phase is ignored. -/
def Engine.start (g : Engine) : Engine :=
  if g.phase = .idle then
    if g.prec = 0 then g.raise .cfgPrecisionZero
    else if (tagsOf g.cfgSel).valid then { g with phase := .busy }
    else g.raise .cfgTagOverlap
  else g

/-- A decoder step that ended in `r`: its writes, or, when it raised a fault, the state before the step with the fault
entered (60_exceptions.md R256; 00_scope.md R11). -/
def Dec.settle (d : Dec) : Except FaultCode Dec → Dec
  | .ok d' => d'
  | .error f => { d with toEngine := d.toEngine.raise f }

/-- The next state of the machine after a decoder step from `s` that ended in `r`. -/
def State.settle (s : State) (r : Except FaultCode Dec) : Host.Outcome State Fault Refusal :=
  .next { s with dec := s.dec.settle r }

/-! ### The decoder's output -/

/-- `Emit(cur)`: range check, bound check, append, `PREV <- cur` (47_decoder_fsm.md R228). -/
def Dec.emit (cur : Int) (d : Dec) : Except FaultCode Dec :=
  if cur < 0 ∨ (maxWorking d.prec : Int) < cur then .error .decSampleRange
  else if d.outn = d.expected then .error .decExcessOutput
  else
    .ok { d with
      toEngine := (d.toEngine.outAppend (precSet d.prec (BitVec.ofInt 16 cur))).setPrev (BitVec.ofInt 16 cur) }

/-- `Resolve()`: complete the pending run (47_decoder_fsm.md R229). -/
def Dec.resolve (d : Dec) : Except FaultCode Dec :=
  if runLength d.acc = 0 then .ok { d with acc := [] }
  else if d.prev = sentinel then .error .decNoPrevious
  else if (d.expected.toNat : Int) - (d.outn.toNat : Int) < (runLength d.acc : Int) then .error .decExcessOutput
  else
    .ok { d with
      acc := [], toEngine := Engine.outAppendN (precSet d.prec d.prev) (runLength d.acc) d.toEngine }

/-- `Resolve()`, then `Emit(cur)` for the `cur` that the state after the resolution gives, or its fault: the shape of a
symbol that stands for one sample (47_decoder_fsm.md R223 to R225). -/
def Dec.resolveEmit (cur : Dec → Except FaultCode Int) (d : Dec) : Except FaultCode Dec :=
  match d.resolve with
  | .error f => .error f
  | .ok d1 =>
    match cur d1 with
    | .error f => .error f
    | .ok x => d1.emit x

end Sys2Proof.Machine
end

