-- ==== Sys2Proof/Machine/BiasDelta.lean ====
section
/-!
DEFINITION. The Bias-Delta Coder's decoder side (41_bias_delta.md R124; 47_decoder_fsm.md R223): the meanings of DELTA.
-/

namespace Sys2Proof.Machine

open Sys2Proof

/-- The sample of a DELTA code with `MaxValue` `m` and payload `p`: the sum is formed with the `PREV` that stands after
the resolution, which must not be the sentinel (47_decoder_fsm.md R223). -/
def deltaSample (m p : Nat) (d : Dec) : Except FaultCode Int :=
  if d.prev = sentinel then .error .decNoPrevious else .ok (deltaDecode m p d.prev)

/-- DELTA, configuration A: consume the code, resolve the run, emit `PREV + d` (47_decoder_fsm.md R223). -/
def execDeltaA (p : BitVec 4) (s : State) : Host.Outcome State Fault Refusal :=
  s.settle (s.dec.popCode.resolveEmit (deltaSample (maxv .a) p.toNat))

/-- DELTA, configuration B: as configuration A with `MAXV` = 4 (47_decoder_fsm.md R223; 41_bias_delta.md R120). -/
def execDeltaB (p : BitVec 3) (s : State) : Host.Outcome State Fault Refusal :=
  s.settle (s.dec.popCode.resolveEmit (deltaSample (maxv .b) p.toNat))

end Sys2Proof.Machine
end

