-- ==== Sys2Proof/Machine/PackedStream.lean ====
section
/-!
DEFINITION. The Packed Output Stream (45_packed_stream.md): the encoder's writing operations, and the decoder's meaning
of a Chunk word.
-/

namespace Sys2Proof.Machine

open Sys2Proof

/-- `OutAppend` of the encoder (20_memory.md R64). -/
def Enc.append (v : Word) (e : Enc) : Enc :=
  { e with toEngine := e.toEngine.outAppend v }

/-- `WriteCode(code)`: the code joins the pending list; three codes are packed at once (45_packed_stream.md R177).
Between steps the list holds at most two codes (10_state.md R24), so its third code is this one. -/
def Enc.writeCode (e : Enc) (c : Code) : Enc :=
  match e.pend ++ [c] with
  | [x, y, z] => { e.append (pack3 x y z) with pend := [] }
  | p => { e with pend := p }

/-- `PackPending()`: the pending codes are packed, the missing ones as pad codes 0; with none pending nothing happens
(45_packed_stream.md R178). -/
def Enc.packPending (e : Enc) : Enc :=
  match e.pend with
  | [] => e
  | [x] => { e.append (pack3 x 0 0) with pend := [] }
  | x :: y :: _ => { e.append (pack3 x y 0) with pend := [] }

/-- `WriteRaw(word)` (45_packed_stream.md R179). -/
def Enc.writeRaw (w : Word) (e : Enc) : Enc :=
  e.packPending.append w

/-- `Flush()` (45_packed_stream.md R180). -/
def Enc.flush (e : Enc) : Enc :=
  e.packPending

/-- `Q <- [first, second, third]` (47_decoder_fsm.md R226). -/
def Dec.fillQueue (a b c : Code) (d : Dec) : Dec :=
  { d with q := [a, b, c] }

/-- CHUNK: the word is consumed and its three codes become the pending queue; the run is not resolved and no sample is
emitted (47_decoder_fsm.md R226; 45_packed_stream.md R182). Nothing restarts at a word, be it the first of another stream
(70_reset_and_hazards.md R291). -/
def execChunk (a b c : Code) (s : State) : Host.Outcome State Fault Refusal :=
  s.settle (.ok (s.dec.nextWord.fillQueue a b c))

end Sys2Proof.Machine
end

