-- ==== Sys2Proof/Machine/RawEscape.lean ====
section
/-!
DEFINITION. The Raw Escape (44_raw_escape.md): `Raw.Encode` of the encoder, and the decoder's meaning of a Raw word.
-/

namespace Sys2Proof.Machine

open Sys2Proof

/-- `Raw.Encode(current)`: write the Raw word, insert the value in the cache (44_raw_escape.md R166). -/
def Enc.rawEncode (cur : Word) (e : Enc) : Enc :=
  { e.writeRaw (rawWord cur) with
    toEngine := (e.writeRaw (rawWord cur)).toEngine.insert cur }

/-- `CACHE[Hash(cur)] <- cur` of the decoder (44_raw_escape.md R167). -/
def Dec.insert (cur : Word) (d : Dec) : Dec :=
  { d with toEngine := d.toEngine.insert cur }

/-- RAW: consume the word, resolve the run, emit the payload, insert it in the cache; a step that faults inserts nothing
(47_decoder_fsm.md R225). -/
def execRaw (v : BitVec 15) (s : State) : Host.Outcome State Fault Refusal :=
  s.settle (match s.dec.nextWord.resolveEmit (fun _ => .ok v.toNat) with
    | .error f => .error f
    | .ok d => .ok (d.insert (v.setWidth 16)))

end Sys2Proof.Machine
end

