-- ==== Sys2Proof/Machine/RunLength.lean ====
section
/-!
DEFINITION. The Run-Length Coder (42_run_length.md): `RL.Emit` of the encoder, and the decoder's meaning of RUN and PAD.
-/

namespace Sys2Proof.Machine

open Sys2Proof

/-- `RL.Emit(length)`: one RUN code per base-8 digit, through WriteCode (42_run_length.md R136). -/
def Enc.rlEmit (n : Nat) (e : Enc) : Enc :=
  (runCodes e.cfgSel n).foldl Enc.writeCode e

/-- `ACC <- ACC ++ [n]` (47_decoder_fsm.md R222): wherever the code stands, its digit joins those before it, so the digits
of two runs that meet, as at the join of two streams, merge into one number (42_run_length.md R142;
70_reset_and_hazards.md R291). -/
def Dec.pushDigit (n : Digit) (d : Dec) : Dec :=
  { d with acc := d.acc ++ [n] }

/-- RUN: the pending code is consumed and its digit joins the accumulator; no sample is emitted (47_decoder_fsm.md R222). -/
def execRun (n : Digit) (s : State) : Host.Outcome State Fault Refusal :=
  s.settle (.ok (s.dec.popCode.pushDigit n))

/-- PAD: decoded as `RUN 0` (30_encoding.md R92; 42_run_length.md R140). -/
def execPad (s : State) : Host.Outcome State Fault Refusal :=
  s.settle (.ok (s.dec.popCode.pushDigit 0))

end Sys2Proof.Machine
end

