-- ==== Sys2Proof/Machine/ValueCache.lean ====
section
/-!
DEFINITION. The Recent-Value Cache (43_recent_value_cache.md): the encoder's lookup, and the decoder's meanings of CACHE.
-/

namespace Sys2Proof.Machine

open Sys2Proof

/-- `hit = (CACHE[Hash(current)] = current)` (43_recent_value_cache.md R152). -/
def Engine.hits (g : Engine) (cur : Word) : Bool :=
  g.slot (g.hash cur) == cur

/-- The sample of a CACHE code naming slot `h`, which must not hold the sentinel (47_decoder_fsm.md R224;
43_recent_value_cache.md R153). -/
def cacheSample (h : BitVec 4) (d : Dec) : Except FaultCode Int :=
  if d.toEngine.slot h = sentinel then .error .decCacheEmpty else .ok (d.toEngine.slot h).toNat

/-- CACHE, configuration A: consume the code, resolve the run, emit the slot's value; the cache is not written
(47_decoder_fsm.md R224). -/
def execCacheA (h : BitVec 3) (s : State) : Host.Outcome State Fault Refusal :=
  s.settle (s.dec.popCode.resolveEmit (cacheSample (h.setWidth 4)))

/-- CACHE, configuration B: as configuration A with 16 slots (47_decoder_fsm.md R224). -/
def execCacheB (h : BitVec 4) (s : State) : Host.Outcome State Fault Refusal :=
  s.settle (s.dec.popCode.resolveEmit (cacheSample h))

end Sys2Proof.Machine
end

