-- ==== Sys2Proof/Machine/Dispatch.lean ====
section
/-! DEFINITION. One arm per instruction: the handlers of the decoder (47_decoder_fsm.md R222 to R226). -/

namespace Sys2Proof.Machine

open Sys2Proof

def exec (i : Instr) (s : State) : Host.Outcome State Fault Refusal :=
  match i with
  | .raw v => Sys2Proof.Machine.execRaw v s
  | .chunk a b c => Sys2Proof.Machine.execChunk a b c s
  | .run n => Sys2Proof.Machine.execRun n s
  | .cacheA h => Sys2Proof.Machine.execCacheA h s
  | .deltaA p => Sys2Proof.Machine.execDeltaA p s
  | .deltaB p => Sys2Proof.Machine.execDeltaB p s
  | .cacheB h => Sys2Proof.Machine.execCacheB h s
  | .pad => Sys2Proof.Machine.execPad s

end Sys2Proof.Machine
end

