-- ==== Sys2Proof/Machine/Decoder.lean ====
section
/-!
DEFINITION. The Decoder State Machine (47_decoder_fsm.md): fetching the next symbol, and the final step. The handlers of
the symbols are exec's arms.
-/

namespace Sys2Proof.Machine

open Sys2Proof

/-- The symbol the next step handles: a pending code has priority over reading the next word; none is left when `Q` is
empty and the input is used up (47_decoder_fsm.md R220, R221). -/
def Dec.fetch (d : Dec) : Option Symbol :=
  match d.q with
  | c :: _ => some (.code c)
  | [] =>
    if d.rptr < d.pcount then some (.word (memRead .decIn d.inBuf d.rptr.toNat)) else none

/-- The final step: resolve the trailing run, check the sample count, DONE (47_decoder_fsm.md R230). -/
def Dec.final (d : Dec) : Except FaultCode Dec :=
  match d.resolve with
  | .error f => .error f
  | .ok d1 => if d1.outn = d1.expected then .ok { d1 with phase := .done } else .error .decTruncated

/-- One step of a BUSY decoder (47_decoder_fsm.md R221): the fetched symbol's instruction in the configuration in force,
or the final step. The words up to `PCOUNT` are one stream: no step looks for a join of two, and `PREV`, the cache and `ACC`
run on through all of them (70_reset_and_hazards.md R289, R291; log entry 12). -/
def stepDec (s : State) : Host.Outcome State Fault Refusal :=
  match s.dec.fetch with
  | some y => exec (decode s.dec.cfgSel y) s
  | none => s.settle s.dec.final

end Sys2Proof.Machine
end

