-- ==== Sys2Proof/Machine/Encoder.lean ====
section
/-!
DEFINITION. The Encoder State Machine (46_encoder_fsm.md): the sample step with its priority list, and the final step.
Every step is total: the encoder has no fault after START (60_exceptions.md R270).
-/

namespace Sys2Proof.Machine

open Sys2Proof

/-- `cur <- Get(MemRead(ENC.IN, IDX))`: the WorkingSample of the sample step (46_encoder_fsm.md R196). -/
def Enc.sample (e : Enc) : Word :=
  precGet e.prec (memRead .encIn e.inBuf e.idx.toNat)

/-- `IDX <- IDX + 1` (10_state.md R28). -/
def Enc.nextSample (e : Enc) : Enc :=
  { e with idx := e.idx + 1 }

/-- Arm 1: the sample extends the run (46_encoder_fsm.md R197). -/
def Enc.extendRun (e : Enc) : Enc :=
  { e with run := e.run + 1 }

/-- Arm 2: a run in flight is emitted and the counter cleared (46_encoder_fsm.md R198, R203). -/
def Enc.flushRun (e : Enc) : Enc :=
  if e.run = 0 then e else { e.rlEmit e.run.toNat with run := 0 }

/-- Arms 3 to 5: delta, else cache hit, else raw (46_encoder_fsm.md R199 to R201). -/
def Enc.codeSample (cur : Word) (e : Enc) : Enc :=
  if deltaIsValid e.cfgSel (deltaDiff cur e.prev) then e.writeCode (deltaEncode e.cfgSel (deltaDiff cur e.prev))
  else if e.toEngine.hits cur then e.writeCode (cacheCode e.cfgSel (e.toEngine.hash cur))
  else e.rawEncode cur

/-- `PREV <- cur` (46_encoder_fsm.md R202). -/
def Enc.setPrev (cur : Word) (e : Enc) : Enc :=
  { e with toEngine := e.toEngine.setPrev cur }

/-- The sample step (46_encoder_fsm.md R196, R208). -/
def Enc.sampleStep (e : Enc) : Enc :=
  if e.sample = e.prev then e.nextSample.extendRun
  else (e.nextSample.flushRun.codeSample e.sample).setPrev e.sample

/-- The final step: flush the run, flush the stream, DONE (46_encoder_fsm.md R203). -/
def Enc.finalStep (e : Enc) : Enc :=
  { e.flushRun.flush with phase := .done }

/-- One step of a BUSY encoder: a sample step while `IDX < COUNT`, else the final step (46_encoder_fsm.md R196, R203). -/
def Enc.step (e : Enc) : Enc :=
  if e.idx < e.count then e.sampleStep else e.finalStep

end Sys2Proof.Machine
end

