-- ==== Sys2Proof/Machine/HostPort.lean ====
section
/-!
DEFINITION. What the host can do to the engines: the control registers of 10_state.md R32 to R36, the resets and START of
70_reset_and_hazards.md R280 to R283, and the buffers of 20_memory.md as the host reaches them (R284, R285).
-/

namespace Sys2Proof.Machine

open Sys2Proof

/-- The encoder's registers (10_state.md R32). -/
inductive EncReg where
  | ctrl
  | cfg
  | count
  | status
  | outn
  | idx
  deriving DecidableEq, Repr

/-- The decoder's registers (10_state.md R33). -/
inductive DecReg where
  | ctrl
  | cfg
  | pcount
  | expected
  | status
  | outn
  | rptr
  deriving DecidableEq, Repr

/-- The encoder's register numbers (R32). -/
def encReg? : Nat → Option EncReg
  | 0 => some .ctrl
  | 1 => some .cfg
  | 2 => some .count
  | 3 => some .status
  | 4 => some .outn
  | 5 => some .idx
  | _ => none

/-- The decoder's register numbers (R33). -/
def decReg? : Nat → Option DecReg
  | 0 => some .ctrl
  | 1 => some .cfg
  | 2 => some .pcount
  | 3 => some .expected
  | 4 => some .status
  | 5 => some .outn
  | 6 => some .rptr
  | _ => none

/-- A write of `CFG` in IDLE stores exactly the bits written; the bits above the register's 9 are ignored (R32 to R34). -/
def Engine.writeCfg (g : Engine) (v : BitVec 32) : Engine :=
  { g with
    prec := v.extractLsb' 0 4, hashShift := v.extractLsb' 4 4, cfgSel := cfgSelOf (v.getLsbD 8) }

/-- A write to an encoder register (R32, R34, R36): CTRL acts, `RESET` before `START`; CFG and COUNT are stored in IDLE
and ignored in any other phase; the rest is read-only, and a write to it is ignored (U22). -/
def Enc.writeReg (r : EncReg) (v : BitVec 32) (e : Enc) : Enc :=
  match r with
  | .ctrl =>
    if v.getLsbD 1 then e.softReset
    else if v.getLsbD 0 then { e with toEngine := e.toEngine.start }
    else e
  | .cfg => if e.phase = .idle then { e with toEngine := e.toEngine.writeCfg v } else e
  | .count => if e.phase = .idle then { e with count := v } else e
  | .status => e
  | .outn => e
  | .idx => e

/-- A write to a decoder register (R33, R34, R36). -/
def Dec.writeReg (r : DecReg) (v : BitVec 32) (d : Dec) : Dec :=
  match r with
  | .ctrl =>
    if v.getLsbD 1 then d.softReset
    else if v.getLsbD 0 then { d with toEngine := d.toEngine.start }
    else d
  | .cfg => if d.phase = .idle then { d with toEngine := d.toEngine.writeCfg v } else d
  | .pcount => if d.phase = .idle then { d with pcount := v } else d
  | .expected => if d.phase = .idle then { d with expected := v } else d
  | .status => d
  | .outn => d
  | .rptr => d

/-- What a read of an encoder register delivers; CTRL reads as 0 (R32). -/
def Enc.readReg (r : EncReg) (e : Enc) : BitVec 32 :=
  match r with
  | .ctrl => 0
  | .cfg => cfgWord e.toEngine
  | .count => e.count
  | .status => statusWord e.toEngine
  | .outn => e.outn
  | .idx => e.idx

/-- What a read of a decoder register delivers; CTRL reads as 0 (R33). -/
def Dec.readReg (r : DecReg) (d : Dec) : BitVec 32 :=
  match r with
  | .ctrl => 0
  | .cfg => cfgWord d.toEngine
  | .pcount => d.pcount
  | .expected => d.expected
  | .status => statusWord d.toEngine
  | .outn => d.outn
  | .rptr => d.rptr

/-- Hardware reset of both engines (70_reset_and_hazards.md R280). -/
def hostHardReset (s : State) : Host.Outcome State Fault Refusal :=
  .next { s with enc := s.enc.hardReset, dec := s.dec.hardReset }

/-- The host writes a control register. -/
def hostWriteReg (e : Side) (no : Nat) (v : BitVec 32) (s : State) : Host.Outcome State Fault Refusal :=
  match e with
  | .enc =>
    match encReg? no with
    | some r => .next { s with enc := s.enc.writeReg r v }
    | none => .fault (.noSuchRegister .enc no)
  | .dec =>
    match decReg? no with
    | some r => .next { s with dec := s.dec.writeReg r v }
    | none => .fault (.noSuchRegister .dec no)

/-- The host reads a control register; the value is delivered in `rdata` (log entry 2). -/
def hostReadReg (e : Side) (no : Nat) (s : State) : Host.Outcome State Fault Refusal :=
  match e with
  | .enc =>
    match encReg? no with
    | some r => .next { s with rdata := s.enc.readReg r }
    | none => .fault (.noSuchRegister .enc no)
  | .dec =>
    match decReg? no with
    | some r => .next { s with rdata := s.dec.readReg r }
    | none => .fault (.noSuchRegister .dec no)

/-- The host stores a cell of `IN`. -/
def Engine.hostPlace (g : Engine) (i : Count) (v : Word) : Engine :=
  { g with inBuf := g.inBuf.write i.toNat v }

/-- The host places a cell of `IN` (70_reset_and_hazards.md R284); while the engine is BUSY there is no such move
(20_memory.md R72; U17; log entry 7). -/
def hostWriteIn (e : Side) (i : Count) (v : Word) (s : State) : Host.Outcome State Fault Refusal :=
  match e with
  | .enc =>
    if s.enc.phase = .busy then .refused (.inputWriteWhileBusy .enc)
    else .next { s with enc := { s.enc with toEngine := s.enc.toEngine.hostPlace i v } }
  | .dec =>
    if s.dec.phase = .busy then .refused (.inputWriteWhileBusy .dec)
    else .next { s with dec := { s.dec with toEngine := s.dec.toEngine.hostPlace i v } }

/-- The host reads a cell of `OUT` (70_reset_and_hazards.md R285); a cell nothing has written reads as its free value
(U16; log entry 3). DESIGN CHOICE: a written cell reads as the value it holds in every phase and at every index, where U16
leaves `OUT` while BUSY, after FAULT, and at and above `OUTN` open (log entry 11). -/
def hostReadOut (e : Side) (i : Count) (s : State) : Host.Outcome State Fault Refusal :=
  match e with
  | .enc => .next { s with rdata := (memRead .encOut s.enc.outBuf i.toNat).setWidth 32 }
  | .dec => .next { s with rdata := (memRead .decOut s.dec.outBuf i.toNat).setWidth 32 }

end Sys2Proof.Machine
end

