-- ==== Sys2Proof/Machine/Turn.lean ====
section
/-!
DEFINITION. Whose move it is (log entry 1): the head of the agenda; with an empty agenda the engines alternate, so that a
BUSY engine always steps again (weak fairness, 70_reset_and_hazards.md R294).
-/

namespace Sys2Proof.Machine

open Sys2Proof

/-- The other engine. -/
def Side.other : Side → Side
  | .enc => .dec
  | .dec => .enc

/-- The engine is BUSY (10_state.md R35). -/
def State.isBusy (s : State) : Side → Bool
  | .enc => s.enc.phase == .busy
  | .dec => s.dec.phase == .busy

/-- One engine's step; an engine in any phase but BUSY performs none and holds its state (60_exceptions.md R269). -/
def stepEngine (e : Side) (s : State) : Host.Outcome State Fault Refusal :=
  if s.isBusy e then
    match e with
    | .enc => .next { s with enc := s.enc.step }
    | .dec => stepDec s
  else .next s

/-- One move. -/
def stepMove (m : Move) (s : State) : Host.Outcome State Fault Refusal :=
  match m with
  | .engine e => stepEngine e s
  | .hardReset => hostHardReset s
  | .writeReg e no v => hostWriteReg e no v s
  | .readReg e no => hostReadReg e no s
  | .writeIn e i v => hostWriteIn e i v s
  | .readOut e i => hostReadOut e i s

/-- With an empty agenda: the engine whose turn it is steps and the turn passes to the other; if it is not BUSY and the
other is, the other steps and the turn stays; if neither is BUSY the machine holds its state. -/
def stepTurn (s : State) : Host.Outcome State Fault Refusal :=
  if s.isBusy s.turn then stepEngine s.turn { s with turn := s.turn.other }
  else stepEngine s.turn.other s

end Sys2Proof.Machine
end

