-- ==== Sys2Proof/Machine/Step.lean ====
section
/-! DEFINITION. One step of the machine, and the placing of an instruction where the decoder fetches next. -/

namespace Sys2Proof.Machine

open Sys2Proof

/-- One step: the next move of the agenda, or, when it is empty, the next engine step (log entry 1). -/
def step (s : State) : Host.Outcome State Fault Refusal :=
  match s.agenda with
  | m :: rest => stepMove m { s with agenda := rest }
  | [] => stepTurn s

/-- `s` with the symbol `w` of `nbits` bits where the decoder fetches next, the decoder BUSY and its step the next move:
a 5-bit code at the head of `Q`, or a 16-bit word in `DEC.IN` at `RPTR` with `Q` empty and `PCOUNT` above `RPTR`
(log entry 9). -/
def State.withFetchWord (s : State) (nbits w : Nat) : State :=
  match symbolOf nbits w with
  | .ok (.code c) =>
    { s with
      agenda := .engine .dec :: s.agenda
      dec := { s.dec with phase := .busy, fault := .none, q := c :: s.dec.q.tail } }
  | .ok (.word v) =>
    let rptr : Count := if s.dec.rptr = BitVec.allOnes 32 then 0 else s.dec.rptr
    { s with
      agenda := .engine .dec :: s.agenda
      dec := { s.dec with
        phase := .busy, fault := .none, q := [], rptr := rptr
        pcount := if rptr < s.dec.pcount then s.dec.pcount else rptr + 1
        inBuf := s.dec.inBuf.write rptr.toNat v } }
  | .error _ => s

end Sys2Proof.Machine
end

