-- ==== Sys2Proof/Safety.lean ====
section
/-!
DEFINITION. The terms claims are made in: runs of the machine, an engine that has just been started, the invariant of the
pair, and what a symbol that stands for one sample leaves behind.
-/

namespace Sys2Proof.Machine

open Sys2Proof

/-! ### Runs -/

/-- `k` steps of the machine, stopping at the first fault or refusal. -/
def State.run : Nat → State → Host.Outcome State Fault Refusal
  | 0, s => .next s
  | k + 1, s =>
    match step s with
    | .next t => State.run k t
    | .fault r => .fault r
    | .refused r => .refused r

/-- `k` steps of one engine and of nothing else. -/
def State.runEngine (e : Side) (k : Nat) (s : State) : Host.Outcome State Fault Refusal :=
  State.run k { s with agenda := List.replicate k (.engine e) }

/-! ### An engine that has just been started -/

/-- The working state both engines have is as reset leaves it (10_state.md R45). -/
structure Engine.Fresh (g : Engine) : Prop where
  prev : g.prev = sentinel
  slots : ∀ i, g.slot i = sentinel
  outn : g.outn = 0

/-- The encoder's working state is as reset leaves it (10_state.md R45). -/
structure Enc.Fresh (e : Enc) : Prop where
  engine : e.toEngine.Fresh
  idx : e.idx = 0
  run : e.run = 0
  pend : e.pend = []

/-- The decoder's working state is as reset leaves it (10_state.md R45). -/
structure Dec.Fresh (d : Dec) : Prop where
  engine : d.toEngine.Fresh
  rptr : d.rptr = 0
  q : d.q = []
  acc : d.acc = []

/-- START was accepted and no step has happened (70_reset_and_hazards.md R283). -/
structure Enc.Started (e : Enc) : Prop where
  fresh : e.Fresh
  phase : e.phase = .busy
  fault : e.fault = .none
  prec : e.prec ≠ 0

/-- START was accepted and no step has happened (70_reset_and_hazards.md R283). -/
structure Dec.Started (d : Dec) : Prop where
  fresh : d.Fresh
  phase : d.phase = .busy
  fault : d.fault = .none
  prec : d.prec ≠ 0

/-- The two engines have the same parameters (70_reset_and_hazards.md R286). -/
structure Engine.SameParams (g h : Engine) : Prop where
  prec : g.prec = h.prec
  hashShift : g.hashShift = h.hashShift
  cfgSel : g.cfgSel = h.cfgSel

/-! ### Codes written one after another -/

/-- `WriteCode` of each code of a list, in order (45_packed_stream.md R177). -/
def Enc.writeCodes (cs : List Code) (e : Enc) : Enc :=
  cs.foldl Enc.writeCode e

/-- The codes of the run in flight: none if there is none (46_encoder_fsm.md R198). -/
def Enc.runInFlight (e : Enc) : List Code :=
  if e.run = 0 then [] else runCodes e.cfgSel e.run.toNat

/-! ### The invariant -/

/-- The value is the sentinel or a WorkingSample (10_state.md R22; 40_precision_reducer.md R111). -/
def Engine.Admits (g : Engine) (w : Word) : Prop :=
  w = sentinel ∨ w.toNat ≤ maxWorking g.prec

/-- What holds of either engine in every state a run reaches. -/
structure Engine.Inv (g : Engine) : Prop where
  /-- 10_state.md R22. -/
  prev : g.Admits g.prev
  /-- 10_state.md R39; 43_recent_value_cache.md R155. -/
  slots : ∀ i, g.slot i = sentinel ∨ ((g.slot i).toNat ≤ maxWorking g.prec ∧ g.hash (g.slot i) = i)
  /-- 60_exceptions.md R251: no run has `S` = 0. -/
  prec : g.phase = .busy ∨ g.phase = .done → g.prec ≠ 0
  /-- 10_state.md R35: `FAULT` is 0 in every phase but FAULT, and not 0 in FAULT. -/
  fault : g.fault = .none ↔ g.phase ≠ .fault
  /-- 60_exceptions.md R252: code 2 is never observed. -/
  noOverlap : g.fault ≠ .cfgTagOverlap
  /-- 70_reset_and_hazards.md R283: working state is non-initial only outside IDLE. -/
  idle : g.phase = .idle → g.Fresh
  /-- The buffers are in canonical form. -/
  inWf : g.inBuf.wf
  outWf : g.outBuf.wf

/-- What holds of the encoder in every state a run reaches. -/
structure Enc.Inv (e : Enc) : Prop where
  engine : e.toEngine.Inv
  /-- 10_state.md R28. -/
  idx : e.idx.toNat ≤ e.count.toNat
  /-- 10_state.md R24. -/
  pend : e.pend.length ≤ 2
  /-- 46_encoder_fsm.md R206, with the codes pending and the samples of the run in flight counted in. -/
  account : e.outn.toNat + e.pend.length + e.run.toNat ≤ e.idx.toNat
  idle : e.phase = .idle → e.Fresh
  /-- 46_encoder_fsm.md R203. -/
  done : e.phase = .done → e.idx = e.count ∧ e.run = 0 ∧ e.pend = []
  /-- 60_exceptions.md R270: the encoder's only reachable fault is the one START raises. -/
  faults : e.fault = .none ∨ e.fault = .cfgPrecisionZero

/-- What holds of the decoder in every state a run reaches. -/
structure Dec.Inv (d : Dec) : Prop where
  engine : d.toEngine.Inv
  /-- 10_state.md R29. -/
  rptr : d.rptr.toNat ≤ d.pcount.toNat
  /-- 60_exceptions.md R254. -/
  outn : d.outn.toNat ≤ d.expected.toNat
  /-- 10_state.md R25. -/
  q : d.q.length ≤ 3
  idle : d.phase = .idle → d.Fresh
  /-- 47_decoder_fsm.md R230. -/
  done : d.phase = .done → d.rptr = d.pcount ∧ d.q = [] ∧ d.acc = [] ∧ d.outn = d.expected

/-- The invariant of the pair. -/
structure State.Inv (s : State) : Prop where
  enc : s.enc.Inv
  dec : s.dec.Inv

/-! ### What a step leaves unchanged -/

/-- Nothing but the decoder differs. -/
structure State.OnlyDec (s t : State) : Prop where
  enc : t.enc = s.enc
  agenda : t.agenda = s.agenda
  turn : t.turn = s.turn
  rdata : t.rdata = s.rdata

/-- The parameters, counts and input of a run are those before. -/
structure Dec.SameRun (d d' : Dec) : Prop where
  prec : d'.prec = d.prec
  hashShift : d'.hashShift = d.hashShift
  cfgSel : d'.cfgSel = d.cfgSel
  pcount : d'.pcount = d.pcount
  expected : d'.expected = d.expected
  inBuf : d'.inBuf = d.inBuf

/-- The pending run, if its length is not 0, has a previous sample to repeat, and `EXPECTED` has room for it
(47_decoder_fsm.md R229). -/
structure Dec.RunResolves (d : Dec) : Prop where
  prev : runLength d.acc ≠ 0 → d.prev ≠ sentinel
  room : runLength d.acc ≠ 0 → d.outn.toNat + runLength d.acc ≤ d.expected.toNat

/-- As `RunResolves`, and `EXPECTED` has room for one more sample (47_decoder_fsm.md R228, R229). -/
structure Dec.HasRoom (d : Dec) : Prop where
  prev : runLength d.acc ≠ 0 → d.prev ≠ sentinel
  room : d.outn.toNat + runLength d.acc + 1 ≤ d.expected.toNat

/-- The pending run was resolved and then the WorkingSample `w` emitted (47_decoder_fsm.md R228, R229): the run's copies
of the old `PREV` and then `w` stand in `OUT` from the old `OUTN` on, every other cell of `OUT` is as before, and `PREV`
is `w`. -/
structure Dec.Emitted (d d' : Dec) (w : Word) : Prop where
  prev : d'.prev = w
  acc : d'.acc = []
  outn : d'.outn.toNat = d.outn.toNat + runLength d.acc + 1
  runCells : ∀ k, k < runLength d.acc → d'.outBuf.read? (d.outn.toNat + k) = some (precSet d.prec d.prev)
  sampleCell : d'.outBuf.read? (d.outn.toNat + runLength d.acc) = some (precSet d.prec w)
  otherCells : ∀ a, a < d.outn.toNat ∨ d.outn.toNat + runLength d.acc + 1 ≤ a →
    d'.outBuf.read? a = d.outBuf.read? a
  phase : d'.phase = d.phase
  fault : d'.fault = d.fault
  sameRun : d.SameRun d'

/-- The pending run was resolved and nothing else emitted (47_decoder_fsm.md R229). -/
structure Dec.Resolved (d d' : Dec) : Prop where
  prev : d'.prev = d.prev
  cache : d'.cache = d.cache
  acc : d'.acc = []
  outn : d'.outn.toNat = d.outn.toNat + runLength d.acc
  runCells : ∀ k, k < runLength d.acc → d'.outBuf.read? (d.outn.toNat + k) = some (precSet d.prec d.prev)
  otherCells : ∀ a, a < d.outn.toNat ∨ d.outn.toNat + runLength d.acc ≤ a → d'.outBuf.read? a = d.outBuf.read? a
  sameRun : d.SameRun d'

/-- `t` and `t'` are what one decoder step makes of `s` and of `s` with `m` in `OUT`. Apart from `OUT` they are the same; the
cells from the old `OUTN` up to the new one hold the same in both; every other cell is as it was before. The clauses about
cells take `OUTN <= EXPECTED`, a part of `Dec.Inv` (60_exceptions.md R254), since in other states `OUTN` could wrap. -/
structure State.BlindToOut (s : State) (m : Memory) (t t' : State) : Prop where
  rest : { t with dec := { t.dec with outBuf := m } } = { t' with dec := { t'.dec with outBuf := m } }
  written : s.dec.outn.toNat ≤ s.dec.expected.toNat →
    ∀ a, s.dec.outn.toNat ≤ a → a < t.dec.outn.toNat → t.dec.outBuf.read? a = t'.dec.outBuf.read? a
  kept : s.dec.outn.toNat ≤ s.dec.expected.toNat →
    ∀ a, a < s.dec.outn.toNat ∨ t.dec.outn.toNat ≤ a →
      t.dec.outBuf.read? a = s.dec.outBuf.read? a ∧ t'.dec.outBuf.read? a = m.read? a

/-- The state before, with the decoder in the FAULT phase under code `f` and nothing else changed
(60_exceptions.md R256). -/
def State.decFaulted (s : State) (f : FaultCode) : State :=
  { s with dec := { s.dec with phase := .fault, fault := f } }

end Sys2Proof.Machine
end

