-- ==== Sys2Proof/Certificates/Slice0/Obligations.lean ====
section
/-!
DEFINITION. The statements for the provers. Each docstring names the rules of spec/ it formalises.
-/

open Sys2Proof Sys2Proof.Machine

/-! ### Encoding -/

/-- Decoding the encoding of any instruction of a configuration gives back its core instruction, every operand at every
value: itself, and `RUN 0` for `PAD` (30_encoding.md R81, R82, R85, R86, R92).
Not the source's, but the spec's own or the model's: the code values of configuration B (D6). -/
def Obligations.DecodeOfEncodeIsTheCoreInstruction : Prop :=
  ∀ (sel : CfgSel) (i : Instr), i.wellFormed sel = true → decode sel (encode i) = i.core

/-- Every word and every code is an instruction of the configuration, and encodes back to the same bits: there is no
reserved encoding (30_encoding.md R87, R93).
Not the source's, but the spec's own or the model's: R87 (derived), R93 (D10, D11), the code values of configuration
B (D6). -/
def Obligations.EverySymbolDecodesAndEncodesBack : Prop :=
  ∀ (sel : CfgSel) (y : Symbol), (decode sel y).wellFormed sel = true ∧ encode (decode sel y) = y

/-- Each of the 32 code values belongs to exactly one of the three schemes, in both configurations (30_encoding.md R87).
Not the source's, but the spec's own or the model's: R87 (derived), the code values of configuration B (D6). -/
def Obligations.SchemesPartitionTheCodes : Prop :=
  ∀ (sel : CfgSel) (c : Code),
    ((tagsOf sel).run.isTagOf c = true ∧ (tagsOf sel).cache.isTagOf c = false ∧ (tagsOf sel).delta.isTagOf c = false) ∨
    ((tagsOf sel).run.isTagOf c = false ∧ (tagsOf sel).cache.isTagOf c = true ∧ (tagsOf sel).delta.isTagOf c = false) ∨
    ((tagsOf sel).run.isTagOf c = false ∧ (tagsOf sel).cache.isTagOf c = false ∧ (tagsOf sel).delta.isTagOf c = true)

/-- Words written out bit by bit from the formats of 30_encoding.md (R81, R82, R85, R86) decode to what they stand for.
Not the source's, but the spec's own or the model's: the code values of configuration B (D6). -/
def Obligations.WordsOfTheFormatsDecode : Prop :=
  decode .a (.word 0b1000100000000000) = .raw 0x0800 ∧
  decode .a (.word 0b0000001111111111) = .chunk 0b11111 0b11111 0b00000 ∧
  decode .a (.code 0b00010) = .run 2 ∧
  decode .a (.code 0b01001) = .cacheA 1 ∧
  decode .a (.code 0b11111) = .deltaA 15 ∧
  decode .b (.code 0b01110) = .deltaB 6 ∧
  decode .b (.code 0b11001) = .cacheB 9

/-- `Pack3` is `a | b << 5 | c << 10` and never a Raw word; `Unpack3` takes the three fields of a word and inverts `Pack3`,
and `Pack3` inverts it on every Chunk word (45_packed_stream.md R176, R181). -/
def Obligations.PackAndUnpackAreInverse : Prop :=
  (∀ a b c : Code, (pack3 a b c).toNat = a.toNat + b.toNat <<< 5 + c.toNat <<< 10 ∧
    rawIsValid (pack3 a b c) = false ∧ unpack3 (pack3 a b c) = (a, b, c)) ∧
  (∀ w : Word, unpack3 w = (w.extractLsb' 0 5, w.extractLsb' 5 5, w.extractLsb' 10 5)) ∧
  (∀ w : Word, rawIsValid w = false → pack3 (unpack3 w).1 (unpack3 w).2.1 (unpack3 w).2.2 = w)

/-! ### The value computations -/

/-- `Get` drops the low `S` bits and stays in range; `Set` after `Get` clears them; `Get` after `Set` is the identity on
WorkingSamples (40_precision_reducer.md R111, R113). `S` = 0 is no working value (R114).
Not the source's, but the spec's own or the model's: R111 and R113 (derived), S = 0 excluded (D8). -/
def Obligations.SetAfterGetClearsTheLowBits : Prop :=
  ∀ s : BitVec 4, s ≠ 0 →
    (∀ x : Word, (precGet s x).toNat ≤ maxWorking s ∧
      precSet s (precGet s x) = x &&& ~~~(BitVec.ofNat 16 (2 ^ s.toNat - 1))) ∧
    (∀ w : Word, w.toNat ≤ maxWorking s → precGet s (precSet s w) = w)

/-- The differences a DELTA code can carry (41_bias_delta.md R122): zero is excluded, both bounds are included. -/
def Obligations.ValidDifferencesAreBounded : Prop :=
  ∀ d : Int,
    (deltaIsValid .a d = true ↔ d ≠ 0 ∧ -8 ≤ d ∧ d ≤ 8) ∧ (deltaIsValid .b d = true ↔ d ≠ 0 ∧ -4 ≤ d ∧ d ≤ 4)

/-- Encoding and decoding of differences are inverse, and every DELTA code stands for exactly one valid difference
(41_bias_delta.md R125). The code of a valid difference is the delta header plus the difference biased by `MAXV`, or by
`MAXV - 1` when it is positive (R123).
Not the source's, but the spec's own or the model's: R125 (derived). -/
def Obligations.DeltaCodesAreABijection : Prop :=
  (∀ d : Int, (deltaIsValid .a d = true → ((deltaEncode .a d).toNat : Int) = 0x10 + (if d < 0 then d + 8 else d + 7)) ∧
    (deltaIsValid .b d = true → ((deltaEncode .b d).toNat : Int) = 0x08 + (if d < 0 then d + 4 else d + 3))) ∧
  ∀ sel : CfgSel,
    (∀ (d : Int) (prev : Word), deltaIsValid sel d = true →
      (tagsOf sel).delta.isTagOf (deltaEncode sel d) = true ∧
      deltaDecode (maxv sel) ((tagsOf sel).delta.payload (deltaEncode sel d)).toNat prev = (prev.toNat : Int) + d) ∧
    (∀ c : Code, (tagsOf sel).delta.isTagOf c = true → ∃! d : Int, deltaIsValid sel d = true ∧ deltaEncode sel d = c)

/-- No WorkingSample is a delta, a run or a cache hit against the sentinel: the exact difference is out of range and the
values differ (41_bias_delta.md R121; 40_precision_reducer.md R111).
Not the source's, but the spec's own or the model's: R111 (derived), the reading of signed(...) in R121 (D5). -/
def Obligations.SentinelIsFarFromEveryWorkingSample : Prop :=
  ∀ (sel : CfgSel) (s : BitVec 4) (w : Word), s ≠ 0 → w.toNat ≤ maxWorking s →
    w ≠ sentinel ∧ deltaDiff w sentinel ≤ -32768 ∧ deltaIsValid sel (deltaDiff w sentinel) = false

/-- `RL.Length` is the sum of the payloads, each shifted by three bits times its position, over unbounded naturals
(42_run_length.md R138). -/
def Obligations.RunLengthIsTheDigitSum : Prop :=
  ∀ acc : List Digit, runLength acc = ∑ i : Fin acc.length, (acc[i]).toNat <<< (3 * i.val)

/-- The digits `RL.Emit` writes for a length, followed by any number of zero payloads, read back as that length
(42_run_length.md R141).
Not the source's, but the spec's own or the model's: R141 (derived). -/
def Obligations.EmittedDigitsReadBack : Prop :=
  ∀ n k : Nat, 1 ≤ n → n < 2 ^ 32 → runLength (runDigits n ++ List.replicate k 0) = n

/-- `RL.Emit` writes, through WriteCode, one RUN code per base-8 digit of the length, least significant first: between 1
and 11 of them, the last not 0 (42_run_length.md R136). -/
def Obligations.EmittedDigitsAreTheBase8Digits : Prop :=
  ∀ n : Nat, 1 ≤ n → n < 2 ^ 32 →
    (runDigits n).length = Nat.log 8 n + 1 ∧ (runDigits n).length ≤ 11 ∧ (runDigits n).getLast? ≠ some 0 ∧
    (∀ i, i < (runDigits n).length → (runDigits n)[i]? = some (BitVec.ofNat 3 (n / 8 ^ i))) ∧
    (∀ sel, runCodes sel n = (runDigits n).map (fun p => p.setWidth 5)) ∧
    ∀ e : Enc, e.rlEmit n = Enc.writeCodes (runCodes e.cfgSel n) e

/-- The bounded accumulator agrees with the list: without overflow its value is the length, with overflow the length is
above every 32-bit bound (10_state.md R27).
Not the source's, but the spec's own or the model's: R27 (derived). -/
def Obligations.BoundedAccumulatorAgrees : Prop :=
  ∀ acc : List Digit,
    (boundedAccOf acc).n = min acc.length 11 ∧
    ((boundedAccOf acc).ovf = false → (boundedAccOf acc).val.toNat = runLength acc) ∧
    ((boundedAccOf acc).ovf = true → 2 ^ 32 ≤ runLength acc)

/-! ### The symbols: results and frames -/

/-- RUN consumes the pending code and appends its digit; PAD does the same with digit 0; nothing else changes. A code with
the run tag is a RUN of its low three bits, in both configurations (47_decoder_fsm.md R222; 30_encoding.md R92). -/
def Obligations.RunAndPadAppendTheirDigit : Prop :=
  (∀ (n : Digit) (s : State),
    exec (.run n) s = .next { s with dec := { s.dec with q := s.dec.q.tail, acc := s.dec.acc ++ [n] } } ∧
    exec .pad s = .next { s with dec := { s.dec with q := s.dec.q.tail, acc := s.dec.acc ++ [0] } }) ∧
  ∀ (sel : CfgSel) (c : Code), (tagsOf sel).run.isTagOf c = true → decodeCode sel c = .run (c.extractLsb' 0 3)

/-- CHUNK consumes the word and queues its three codes in order; nothing else changes. The codes of a Chunk word are its
fields [4:0], [9:5] and [14:10] (47_decoder_fsm.md R226). -/
def Obligations.ChunkQueuesItsThreeCodes : Prop :=
  (∀ (a b c : Code) (s : State),
    exec (.chunk a b c) s = .next { s with dec := { s.dec with rptr := s.dec.rptr + 1, q := [a, b, c] } }) ∧
  ∀ w : Word, w.getLsbD 15 = false →
    decodeWord w = .chunk (w.extractLsb' 0 5) (w.extractLsb' 5 5) (w.extractLsb' 10 5)

/-- RAW, when its payload is in range and there is room: the run is resolved, the payload is emitted and inserted in the
cache, the word is consumed; nothing else changes (47_decoder_fsm.md R225; 44_raw_escape.md R167).
Not the source's, but the spec's own or the model's: Emit and Resolve (R228, R229: D10, D11), Set on an unsigned
reading (R112: D11). -/
def Obligations.RawEmitsAndInserts : Prop :=
  ∀ (v : BitVec 15) (s : State), s.dec.HasRoom → v.toNat ≤ maxWorking s.dec.prec →
    ∃ t, exec (.raw v) s = .next t ∧ s.OnlyDec t ∧ s.dec.Emitted t.dec (v.setWidth 16) ∧
      t.dec.rptr = s.dec.rptr + 1 ∧ t.dec.q = s.dec.q ∧
      t.dec.toEngine.slot (s.dec.toEngine.hash (v.setWidth 16)) = v.setWidth 16 ∧
      ∀ i, i ≠ s.dec.toEngine.hash (v.setWidth 16) → t.dec.toEngine.slot i = s.dec.toEngine.slot i

/-- DELTA of configuration A, when there is a previous sample, the sum is in range and there is room: payloads 0 to 7 are
-8 to -1, payloads 8 to 15 are +1 to +8 (47_decoder_fsm.md R223; 41_bias_delta.md R124).
Not the source's, but the spec's own or the model's: Emit and Resolve (R228, R229: D10, D11), Set on an unsigned
reading (R112: D11), the two ranges of R124 (derived). -/
def Obligations.DeltaAEmitsTheSum : Prop :=
  ∀ (p : BitVec 4) (s : State) (w : Word), s.dec.HasRoom → s.dec.prev ≠ sentinel →
    w.toNat ≤ maxWorking s.dec.prec →
    (w.toNat : Int) = s.dec.prev.toNat + (if p.toNat < 8 then (p.toNat : Int) - 8 else (p.toNat : Int) - 7) →
    ∃ t, exec (.deltaA p) s = .next t ∧ s.OnlyDec t ∧ s.dec.Emitted t.dec w ∧
      t.dec.rptr = s.dec.rptr ∧ t.dec.q = s.dec.q.tail ∧ t.dec.cache = s.dec.cache

/-- DELTA of configuration B: payloads 0 to 3 are -4 to -1, payloads 4 to 7 are +1 to +4
(47_decoder_fsm.md R223; 41_bias_delta.md R124).
Not the source's, but the spec's own or the model's: Emit and Resolve (R228, R229: D10, D11), Set on an unsigned
reading (R112: D11), the two ranges of R124 (derived), the codes of configuration B (D6). -/
def Obligations.DeltaBEmitsTheSum : Prop :=
  ∀ (p : BitVec 3) (s : State) (w : Word), s.dec.HasRoom → s.dec.prev ≠ sentinel →
    w.toNat ≤ maxWorking s.dec.prec →
    (w.toNat : Int) = s.dec.prev.toNat + (if p.toNat < 4 then (p.toNat : Int) - 4 else (p.toNat : Int) - 3) →
    ∃ t, exec (.deltaB p) s = .next t ∧ s.OnlyDec t ∧ s.dec.Emitted t.dec w ∧
      t.dec.rptr = s.dec.rptr ∧ t.dec.q = s.dec.q.tail ∧ t.dec.cache = s.dec.cache

/-- CACHE, both configurations, when the slot holds a WorkingSample and there is room: the slot's value is emitted; the
cache is not written (47_decoder_fsm.md R224; 43_recent_value_cache.md R153).
Not the source's, but the spec's own or the model's: Emit and Resolve (R228, R229: D10, D11), Set on an unsigned
reading (R112: D11), the codes of configuration B (D6). -/
def Obligations.CacheEmitsTheSlot : Prop :=
  (∀ (h : BitVec 3) (s : State) (w : Word), s.dec.HasRoom → s.dec.toEngine.slot (h.setWidth 4) = w →
    w ≠ sentinel → w.toNat ≤ maxWorking s.dec.prec →
    ∃ t, exec (.cacheA h) s = .next t ∧ s.OnlyDec t ∧ s.dec.Emitted t.dec w ∧
      t.dec.rptr = s.dec.rptr ∧ t.dec.q = s.dec.q.tail ∧ t.dec.cache = s.dec.cache) ∧
  (∀ (h : BitVec 4) (s : State) (w : Word), s.dec.HasRoom → s.dec.toEngine.slot h = w →
    w ≠ sentinel → w.toNat ≤ maxWorking s.dec.prec →
    ∃ t, exec (.cacheB h) s = .next t ∧ s.OnlyDec t ∧ s.dec.Emitted t.dec w ∧
      t.dec.rptr = s.dec.rptr ∧ t.dec.q = s.dec.q.tail ∧ t.dec.cache = s.dec.cache)

/-! ### The symbols: faults -/

/-- What a symbol that resolves the run faults with when the resolution itself faults: no previous sample first, then no
room (60_exceptions.md R254, R255, R259; 47_decoder_fsm.md R229). It holds for RAW, DELTA and CACHE alike.
Not the source's, but the spec's own or the model's: the decoder faults are the spec's own (R250, R254 to R259,
R228, R229: D10, D11, D14). -/
def Obligations.RunResolutionFaultsFirst : Prop :=
  ∀ (i : Instr) (s : State), (∀ a b c, i ≠ .chunk a b c) → (∀ n, i ≠ .run n) → i ≠ .pad →
    runLength s.dec.acc ≠ 0 →
    (s.dec.prev = sentinel → exec i s = .next (s.decFaulted .decNoPrevious)) ∧
    (s.dec.prev ≠ sentinel → s.dec.expected.toNat < s.dec.outn.toNat + runLength s.dec.acc →
      exec i s = .next (s.decFaulted .decExcessOutput))

/-- RAW, the run resolved: a payload out of range faults before a full output (47_decoder_fsm.md R225, R228;
60_exceptions.md R258, R259).
Not the source's, but the spec's own or the model's: the decoder faults are the spec's own (R250, R254 to R259,
R228, R229: D10, D11, D14). -/
def Obligations.RawFaultsOnRangeThenRoom : Prop :=
  ∀ (v : BitVec 15) (s : State), s.dec.RunResolves →
    (maxWorking s.dec.prec < v.toNat → exec (.raw v) s = .next (s.decFaulted .decSampleRange)) ∧
    (v.toNat ≤ maxWorking s.dec.prec → s.dec.outn.toNat + runLength s.dec.acc = s.dec.expected.toNat →
      exec (.raw v) s = .next (s.decFaulted .decExcessOutput))

/-- DELTA, both configurations, the run resolved: no previous sample, then a sum out of range, then a full output
(47_decoder_fsm.md R223, R228; 60_exceptions.md R255, R258, R259).
Not the source's, but the spec's own or the model's: the decoder faults are the spec's own (R250, R254 to R259,
R228, R229: D10, D11, D14). -/
def Obligations.DeltaFaultsOnPreviousRangeRoom : Prop :=
  ∀ (i : Instr) (s : State) (d : Int), s.dec.RunResolves →
    ((∃ p : BitVec 4, i = .deltaA p ∧ d = if p.toNat < 8 then (p.toNat : Int) - 8 else (p.toNat : Int) - 7) ∨
     (∃ p : BitVec 3, i = .deltaB p ∧ d = if p.toNat < 4 then (p.toNat : Int) - 4 else (p.toNat : Int) - 3)) →
    (s.dec.prev = sentinel → exec i s = .next (s.decFaulted .decNoPrevious)) ∧
    (s.dec.prev ≠ sentinel →
      ((s.dec.prev.toNat : Int) + d < 0 ∨ (maxWorking s.dec.prec : Int) < s.dec.prev.toNat + d →
        exec i s = .next (s.decFaulted .decSampleRange)) ∧
      (0 ≤ (s.dec.prev.toNat : Int) + d → (s.dec.prev.toNat : Int) + d ≤ maxWorking s.dec.prec →
        s.dec.outn.toNat + runLength s.dec.acc = s.dec.expected.toNat →
        exec i s = .next (s.decFaulted .decExcessOutput)))

/-- CACHE, both configurations, the run resolved: an empty slot faults before a full output (47_decoder_fsm.md R224,
R228; 60_exceptions.md R257, R259).
Not the source's, but the spec's own or the model's: the decoder faults are the spec's own (R250, R254 to R259,
R228, R229: D10, D11, D14). -/
def Obligations.CacheFaultsOnEmptyThenRoom : Prop :=
  ∀ (i : Instr) (s : State) (h : BitVec 4), s.dec.RunResolves →
    ((∃ k : BitVec 3, i = .cacheA k ∧ h = k.setWidth 4) ∨ i = .cacheB h) →
    (s.dec.toEngine.slot h = sentinel → exec i s = .next (s.decFaulted .decCacheEmpty)) ∧
    (s.dec.toEngine.slot h ≠ sentinel → (s.dec.toEngine.slot h).toNat ≤ maxWorking s.dec.prec →
      s.dec.outn.toNat + runLength s.dec.acc = s.dec.expected.toNat →
      exec i s = .next (s.decFaulted .decExcessOutput))

/-! ### The symbols: rules over all of them -/

/-- Every symbol in every state runs to a next state: in the same phase, or in the FAULT phase with one of the four
stream faults, the code recorded and nothing else changed (60_exceptions.md R256; 30_encoding.md R93).
Not the source's, but the spec's own or the model's: R256 (D14), R93 (D10, D11). -/
def Obligations.EverySymbolRunsOrFaultsPrecisely : Prop :=
  ∀ (i : Instr) (s : State), ∃ t, exec i s = .next t ∧
    ((t.dec.phase = s.dec.phase ∧ t.dec.fault = s.dec.fault) ∨
     ∃ f, f ∈ [FaultCode.decExcessOutput, .decNoPrevious, .decCacheEmpty, .decSampleRange] ∧ t = s.decFaulted f)

/-- No symbol changes anything but the decoder's stream state: not the encoder, not a configuration or count register,
not `IN`, and no cell of `OUT` below the old `OUTN` (47_decoder_fsm.md R239; 20_memory.md R63; 10_state.md R20).
Not the source's, but the spec's own or the model's: R239 (D3, D15), R20 (D1). -/
def Obligations.SymbolsChangeOnlyStreamState : Prop :=
  ∀ (i : Instr) (s t : State), exec i s = .next t →
    s.OnlyDec t ∧ s.dec.SameRun t.dec ∧ ∀ a, a < s.dec.outn.toNat → t.dec.outBuf.read? a = s.dec.outBuf.read? a

/-- Only a Raw word writes the cache (10_state.md R39; 43_recent_value_cache.md R154). -/
def Obligations.OnlyRawWritesTheCache : Prop :=
  ∀ (i : Instr) (s t : State), (∀ v, i ≠ .raw v) → exec i s = .next t → t.dec.cache = s.dec.cache

/-- Whatever stands in `OUT`, a symbol, and any decoder step (the final step among them), does the same: to everything but
`OUT`, and to the cells of `OUT` it writes; every other cell keeps what stood there (20_memory.md R63).
Not the source's, but the spec's own or the model's: R282 (derived), the final step of R230 (D10). -/
def Obligations.DecodingNeverReadsOutput : Prop :=
  (∀ (i : Instr) (s : State) (m : Memory), ∃ t t',
    exec i s = .next t ∧ exec i { s with dec := { s.dec with outBuf := m } } = .next t' ∧ s.BlindToOut m t t') ∧
  ∀ (s : State) (m : Memory) (rest : List Move), s.agenda = .engine .dec :: rest → ∃ t t',
    step s = .next t ∧ step { s with dec := { s.dec with outBuf := m } } = .next t' ∧ s.BlindToOut m t t'

/-! ### The decoder's step -/

/-- A step of a BUSY decoder runs the instruction that the pending code, or else the next input word, decodes to, and
exec does all the rest. Around it the step only takes the move: the head of the agenda, or, when that is empty, the turn
(47_decoder_fsm.md R221; the agenda and the turn are the model's own, log entry 1).
Not the source's, but the spec's own or the model's: the agenda and the turn are the model's choice (log entry 1). -/
def Obligations.StepRunsTheFetchedInstruction : Prop :=
  ∀ (s s' : State) (i : Instr), s.dec.phase = .busy →
    ((∃ c q, s.dec.q = c :: q ∧ i = decodeCode s.dec.cfgSel c) ∨
     (s.dec.q = [] ∧ s.dec.rptr < s.dec.pcount ∧ i = decodeWord (memRead .decIn s.dec.inBuf s.dec.rptr.toNat))) →
    ((∃ rest, s.agenda = .engine .dec :: rest ∧ s' = { s with agenda := rest }) ∨
     (s.agenda = [] ∧ s.turn = .dec ∧ s' = { s with turn := .enc }) ∨
     (s.agenda = [] ∧ s.turn = .enc ∧ s.enc.phase ≠ .busy ∧ s' = s)) →
    step s = exec i s'

/-- A symbol placed where the decoder fetches next is what the very next step runs (the model's placing, log entry 9).
Not the source's, but the spec's own or the model's: the placing is the model's choice (log entry 9). -/
def Obligations.PlacedSymbolIsRunNext : Prop :=
  ∀ (s : State) (nbits w : Nat) (y : Symbol), symbolOf nbits w = .ok y →
    step (s.withFetchWord nbits w) = exec (decode s.dec.cfgSel y) { s.withFetchWord nbits w with agenda := s.agenda }

/-- The decoder's final step, taken when no code and no word is left: the trailing run is resolved and the run is DONE if
exactly `EXPECTED` samples were produced; otherwise it faults, with the resolution's fault before `DecTruncated`
(47_decoder_fsm.md R230; 60_exceptions.md R253).
Not the source's, but the spec's own or the model's: R230 and R253 (D10), the faults (D11, D14). -/
def Obligations.DecoderFinalStep : Prop :=
  ∀ (s : State) (rest : List Move), s.dec.phase = .busy → s.agenda = .engine .dec :: rest → s.dec.q = [] →
    s.dec.pcount ≤ s.dec.rptr →
    (s.dec.RunResolves → s.dec.outn.toNat + runLength s.dec.acc = s.dec.expected.toNat →
      ∃ t, step s = .next t ∧ { s with agenda := rest }.OnlyDec t ∧ s.dec.Resolved t.dec ∧ t.dec.phase = .done ∧
        t.dec.fault = s.dec.fault ∧ t.dec.rptr = s.dec.rptr ∧ t.dec.q = []) ∧
    (s.dec.RunResolves → s.dec.outn.toNat + runLength s.dec.acc ≠ s.dec.expected.toNat →
      step s = .next ({ s with agenda := rest }.decFaulted .decTruncated)) ∧
    (runLength s.dec.acc ≠ 0 → s.dec.prev = sentinel →
      step s = .next ({ s with agenda := rest }.decFaulted .decNoPrevious)) ∧
    (runLength s.dec.acc ≠ 0 → s.dec.prev ≠ sentinel →
      s.dec.expected.toNat < s.dec.outn.toNat + runLength s.dec.acc →
      step s = .next ({ s with agenda := rest }.decFaulted .decExcessOutput))

/-! ### The encoder's step -/

/-- A step of a BUSY encoder is its step function, and nothing else of the machine changes but the agenda or the turn
(46_encoder_fsm.md R196; 10_state.md R20).
Not the source's, but the spec's own or the model's: R20 (D1); the agenda and the turn are the model's choice (log
entry 1). -/
def Obligations.StepRunsTheEncoder : Prop :=
  ∀ s : State, s.enc.phase = .busy →
    (∀ rest, s.agenda = .engine .enc :: rest → step s = .next { s with agenda := rest, enc := s.enc.step }) ∧
    (s.agenda = [] → s.turn = .enc → step s = .next { s with turn := .dec, enc := s.enc.step }) ∧
    (s.agenda = [] → s.turn = .dec → s.dec.phase ≠ .busy → step s = .next { s with enc := s.enc.step })

/-- Arm 1: a sample equal to `PREV` only extends the run; while `PREV` is the sentinel no sample is equal to it
(46_encoder_fsm.md R197). -/
def Obligations.EqualSampleExtendsTheRun : Prop :=
  ∀ e : Enc, e.idx < e.count →
    (precGet e.prec (memRead .encIn e.inBuf e.idx.toNat) = e.prev →
      e.step = { e with idx := e.idx + 1, run := e.run + 1 }) ∧
    (e.prec ≠ 0 → e.prev = sentinel → precGet e.prec (memRead .encIn e.inBuf e.idx.toNat) ≠ e.prev)

/-- Arms 2 and 3: the run in flight is written first, then the DELTA code, whatever the cache holds; the cache is not
written; while `PREV` is the sentinel no difference is valid (46_encoder_fsm.md R198, R199). -/
def Obligations.SmallDifferenceWritesDelta : Prop :=
  ∀ (e : Enc) (cur : Word), e.idx < e.count → cur = precGet e.prec (memRead .encIn e.inBuf e.idx.toNat) →
    (cur ≠ e.prev → deltaIsValid e.cfgSel ((cur.toNat : Int) - e.prev.toNat) = true →
      e.step = Enc.writeCodes (e.runInFlight ++ [deltaEncode e.cfgSel ((cur.toNat : Int) - e.prev.toNat)])
        { e with idx := e.idx + 1, run := 0, prev := cur }) ∧
    (e.prec ≠ 0 → e.prev = sentinel → deltaIsValid e.cfgSel ((cur.toNat : Int) - e.prev.toNat) = false)

/-- Arms 2 and 4: the run in flight is written first, then the CACHE code of the slot that holds the value; the cache is
not written (46_encoder_fsm.md R198, R200; 43_recent_value_cache.md R152). -/
def Obligations.ResidentValueWritesCache : Prop :=
  ∀ (e : Enc) (cur : Word), e.idx < e.count → cur = precGet e.prec (memRead .encIn e.inBuf e.idx.toNat) →
    cur ≠ e.prev → deltaIsValid e.cfgSel ((cur.toNat : Int) - e.prev.toNat) = false →
    e.toEngine.slot (e.toEngine.hash cur) = cur →
    e.step = Enc.writeCodes (e.runInFlight ++ [cacheCode e.cfgSel (e.toEngine.hash cur)])
      { e with idx := e.idx + 1, run := 0, prev := cur }

/-- Arms 2 and 5: the run in flight is written first, the pending codes are packed, the Raw word is appended, and the
value enters the cache (46_encoder_fsm.md R198, R201; 44_raw_escape.md R166; 45_packed_stream.md R179). -/
def Obligations.OtherValueWritesRaw : Prop :=
  ∀ (e e' : Enc) (cur : Word), e.idx < e.count → cur = precGet e.prec (memRead .encIn e.inBuf e.idx.toNat) →
    cur ≠ e.prev → deltaIsValid e.cfgSel ((cur.toNat : Int) - e.prev.toNat) = false →
    e.toEngine.slot (e.toEngine.hash cur) ≠ cur →
    e' = (Enc.writeCodes e.runInFlight { e with idx := e.idx + 1, run := 0, prev := cur }).packPending →
    e.step = { e' with
      outBuf := e'.outBuf.write e'.outn.toNat (0x8000 ||| cur), outn := e'.outn + 1
      cache := e'.cache.set (e.toEngine.hash cur).toNat cur (e.toEngine.hash cur).isLt }

/-- `WriteCode` and `PackPending`, for each length the pending list has between steps; `WriteRaw` packs what is pending
and appends its word; `Flush` packs what is pending (45_packed_stream.md R177 to R180). -/
def Obligations.PendingCodesPackByThree : Prop :=
  (∀ (e : Enc) (x y c : Code),
    (e.pend = [] → e.writeCode c = { e with pend := [c] } ∧ e.packPending = e) ∧
    (e.pend = [x] → e.writeCode c = { e with pend := [x, c] } ∧
      e.packPending = { e with
        pend := [], outBuf := e.outBuf.write e.outn.toNat (pack3 x 0 0), outn := e.outn + 1 }) ∧
    (e.pend = [x, y] →
      e.writeCode c = { e with
        pend := [], outBuf := e.outBuf.write e.outn.toNat (pack3 x y c), outn := e.outn + 1 } ∧
      e.packPending = { e with
        pend := [], outBuf := e.outBuf.write e.outn.toNat (pack3 x y 0), outn := e.outn + 1 })) ∧
  ∀ (e e' : Enc) (w : Word), e' = e.packPending →
    e.writeRaw w = { e' with outBuf := e'.outBuf.write e'.outn.toNat w, outn := e'.outn + 1 } ∧ e.flush = e'

/-- After any sample step `PREV` is the sample just processed and `IDX` is one more; the parameters, the count, the input,
the phase and every cell of `OUT` below the old `OUTN` are as before (46_encoder_fsm.md R202; 10_state.md R28;
60_exceptions.md R270; 20_memory.md R63). The premise rules out a count of words that would wrap.
Not the source's, but the spec's own or the model's: R202 and R270 (derived), R28 (D4). -/
def Obligations.SampleStepFrame : Prop :=
  ∀ e : Enc, e.idx < e.count → e.Inv →
    e.step.prev = precGet e.prec (memRead .encIn e.inBuf e.idx.toNat) ∧ e.step.idx = e.idx + 1 ∧
    e.step.phase = e.phase ∧ e.step.fault = e.fault ∧ e.step.count = e.count ∧ e.toEngine.SameParams e.step.toEngine ∧
    e.step.inBuf = e.inBuf ∧ ∀ a, a < e.outn.toNat → e.step.outBuf.read? a = e.outBuf.read? a

/-- The final step: the run in flight is written, the pending codes are packed, the run is DONE; afterwards nothing is
pending. On an empty input it only ends the run (46_encoder_fsm.md R203, R204).
Not the source's, but the spec's own or the model's: R203 (D14), R204 (derived). -/
def Obligations.EncoderFinalStep : Prop :=
  ∀ e : Enc, e.idx = e.count →
    e.step = { (Enc.writeCodes e.runInFlight { e with run := 0 }).packPending with phase := .done } ∧
    e.step.pend = [] ∧ e.step.run = 0 ∧
    (e.run = 0 → e.pend = [] → e.step = { e with phase := .done })

/-- The first sample of every stream is raw-coded (46_encoder_fsm.md R207).
Not the source's, but the spec's own or the model's: R207 (derived; D5). -/
def Obligations.FirstSampleIsRawCoded : Prop :=
  ∀ (e : Enc) (cur : Word), e.Started → e.count ≠ 0 → cur = precGet e.prec (memRead .encIn e.inBuf 0) →
    e.step.outn = 1 ∧ e.step.outBuf.read? 0 = some (0x8000 ||| cur) ∧ e.step.prev = cur ∧ e.step.pend = [] ∧
    e.step.run = 0 ∧ e.step.toEngine.slot (e.toEngine.hash cur) = cur

/-! ### Reset, START and the registers -/

/-- The machine right after reset has the values of 10_state.md R45; the agenda, the turn and the read port are the
model's own (log entries 1 and 2).
Not the source's, but the spec's own or the model's: R45 and R280 (D16); the agenda, the turn and the read port are
the model's choice (log entries 1 and 2) and are not stated here. -/
def Obligations.ResetValues : Prop :=
  State.reset.enc.Fresh ∧ State.reset.dec.Fresh ∧
  State.reset.enc.phase = .idle ∧ State.reset.dec.phase = .idle ∧
  State.reset.enc.fault = .none ∧ State.reset.dec.fault = .none ∧
  cfgWord State.reset.enc.toEngine = 1 ∧ cfgWord State.reset.dec.toEngine = 1 ∧
  State.reset.enc.count = 0 ∧ State.reset.dec.pcount = 0 ∧ State.reset.dec.expected = 0

/-- A write to CTRL with bit 1 clear and bit 0 set: in IDLE it starts the engine, or faults if `S` is 0; in any other
phase it is ignored (70_reset_and_hazards.md R283; 10_state.md R36; 60_exceptions.md R251).
Not the source's, but the spec's own or the model's: R283 (D15), R36 (D3, D15). -/
def Obligations.StartChecksAndRuns : Prop :=
  ∀ (s : State) (v : BitVec 32) (rest : List Move), v.getLsbD 1 = false → v.getLsbD 0 = true →
    (s.agenda = .writeReg .enc 0 v :: rest →
      (s.enc.phase ≠ .idle → step s = .next { s with agenda := rest }) ∧
      (s.enc.phase = .idle → s.enc.prec = 0 →
        step s = .next { s with agenda := rest, enc := { s.enc with phase := .fault, fault := .cfgPrecisionZero } }) ∧
      (s.enc.phase = .idle → s.enc.prec ≠ 0 →
        step s = .next { s with agenda := rest, enc := { s.enc with phase := .busy } })) ∧
    (s.agenda = .writeReg .dec 0 v :: rest →
      (s.dec.phase ≠ .idle → step s = .next { s with agenda := rest }) ∧
      (s.dec.phase = .idle → s.dec.prec = 0 →
        step s = .next { s with agenda := rest, dec := { s.dec with phase := .fault, fault := .cfgPrecisionZero } }) ∧
      (s.dec.phase = .idle → s.dec.prec ≠ 0 →
        step s = .next { s with agenda := rest, dec := { s.dec with phase := .busy } }))

/-- A write to CTRL with bit 1 set, in every phase and whatever bit 0 holds: the engine's working state, phase and fault
take their reset values; its configuration, counts and buffers, and the other engine, are as before
(70_reset_and_hazards.md R281; 10_state.md R36). A write of 0 does nothing.
Not the source's, but the spec's own or the model's: R281 (D15, D16), R36 (D3, D15). -/
def Obligations.SoftResetKeepsTheConfiguration : Prop :=
  ∀ (s : State) (v : BitVec 32) (rest : List Move),
    (s.agenda = .writeReg .enc 0 v :: rest → v.getLsbD 1 = true →
      ∃ e, step s = .next { s with agenda := rest, enc := e } ∧ e.Fresh ∧ e.phase = .idle ∧ e.fault = .none ∧
        s.enc.toEngine.SameParams e.toEngine ∧ e.count = s.enc.count ∧ e.inBuf = s.enc.inBuf ∧
        e.outBuf = s.enc.outBuf) ∧
    (s.agenda = .writeReg .dec 0 v :: rest → v.getLsbD 1 = true →
      ∃ d, step s = .next { s with agenda := rest, dec := d } ∧ d.Fresh ∧ d.phase = .idle ∧ d.fault = .none ∧
        s.dec.SameRun d ∧ d.outBuf = s.dec.outBuf) ∧
    (∀ side, s.agenda = .writeReg side 0 0 :: rest → step s = .next { s with agenda := rest })

/-- Hardware reset: every register of both engines takes its reset value; the buffers are not touched
(70_reset_and_hazards.md R280). That `IN` and `OUT` hold after it what they held before is the model's choice (log entry 3):
R280 calls their contents unspecified after a hardware reset, and U16 gives them any value.
Not the source's, but the spec's own or the model's: R280 (D16), and the contents of the buffers after it (log entry
3, DESIGN CHOICE). -/
def Obligations.HardResetSparesTheBuffers : Prop :=
  ∀ (s : State) (rest : List Move), s.agenda = .hardReset :: rest →
    step s = .next { s with
      agenda := rest
      enc := { State.reset.enc with inBuf := s.enc.inBuf, outBuf := s.enc.outBuf }
      dec := { State.reset.dec with inBuf := s.dec.inBuf, outBuf := s.dec.outBuf } }

/-- Configuration and count registers are stored in IDLE, exactly the bits written, and ignored in any other phase; a write
to a read-only register is ignored (10_state.md R32, R33, R34; 93_implementation_defined.md U22).
Not the source's, but the spec's own or the model's: R32 to R34 (D3, D8, D16), U22. -/
def Obligations.RegisterWritesAreGatedByPhase : Prop :=
  ∀ (s : State) (v : BitVec 32) (no : Nat) (rest : List Move),
    (s.agenda = .writeReg .enc no v :: rest →
      (s.enc.phase = .idle → no = 1 → ∃ e, step s = .next { s with agenda := rest, enc := e } ∧
        cfgWord e.toEngine = v &&& 0x1FF ∧
        { e with prec := s.enc.prec, hashShift := s.enc.hashShift, cfgSel := s.enc.cfgSel } = s.enc) ∧
      (s.enc.phase = .idle → no = 2 → step s = .next { s with agenda := rest, enc := { s.enc with count := v } }) ∧
      (s.enc.phase ≠ .idle → no = 1 ∨ no = 2 → step s = .next { s with agenda := rest }) ∧
      (no = 3 ∨ no = 4 ∨ no = 5 → step s = .next { s with agenda := rest })) ∧
    (s.agenda = .writeReg .dec no v :: rest →
      (s.dec.phase = .idle → no = 1 → ∃ d, step s = .next { s with agenda := rest, dec := d } ∧
        cfgWord d.toEngine = v &&& 0x1FF ∧
        { d with prec := s.dec.prec, hashShift := s.dec.hashShift, cfgSel := s.dec.cfgSel } = s.dec) ∧
      (s.dec.phase = .idle → no = 2 → step s = .next { s with agenda := rest, dec := { s.dec with pcount := v } }) ∧
      (s.dec.phase = .idle → no = 3 → step s = .next { s with agenda := rest, dec := { s.dec with expected := v } }) ∧
      (s.dec.phase ≠ .idle → no = 1 ∨ no = 2 ∨ no = 3 → step s = .next { s with agenda := rest }) ∧
      (no = 4 ∨ no = 5 ∨ no = 6 → step s = .next { s with agenda := rest }))

/-- What the host reads: CTRL as 0, STATUS as `PHASE` in bits 1..0 and `FAULT` in bits 5..2, the counts and counters as
they are; a read changes nothing but the read port (10_state.md R32, R33, R35; the port is the model's own, log entry 2).
The phases are numbered 0 IDLE, 1 BUSY, 2 DONE, 3 FAULT (R35), the faults 0 to 7 (60_exceptions.md R250).
Not the source's, but the spec's own or the model's: R32, R33 (D3, D16), R35 (D14, D15), R250 (D14); the read port
is the model's choice (log entry 2). -/
def Obligations.RegisterReads : Prop :=
  (phaseBits .idle = 0 ∧ phaseBits .busy = 1 ∧ phaseBits .done = 2 ∧ phaseBits .fault = 3) ∧
  (faultBits .none = 0 ∧ faultBits .cfgPrecisionZero = 1 ∧ faultBits .cfgTagOverlap = 2 ∧ faultBits .decTruncated = 3 ∧
    faultBits .decExcessOutput = 4 ∧ faultBits .decNoPrevious = 5 ∧ faultBits .decCacheEmpty = 6 ∧
    faultBits .decSampleRange = 7) ∧
  ∀ (s : State) (rest : List Move) (no : Nat) (r : BitVec 32),
    (s.agenda = .readReg .enc no :: rest →
      (no = 0 ∧ r = 0) ∨ (no = 2 ∧ r = s.enc.count) ∨ (no = 4 ∧ r = s.enc.outn) ∨ (no = 5 ∧ r = s.enc.idx) ∨
        (no = 3 ∧ r.toNat = (phaseBits s.enc.phase).toNat + 4 * (faultBits s.enc.fault).toNat) ∨
        (no = 1 ∧ r.toNat = s.enc.prec.toNat + 16 * s.enc.hashShift.toNat + (if s.enc.cfgSel = .b then 256 else 0)) →
      step s = .next { s with agenda := rest, rdata := r }) ∧
    (s.agenda = .readReg .dec no :: rest →
      (no = 0 ∧ r = 0) ∨ (no = 2 ∧ r = s.dec.pcount) ∨ (no = 3 ∧ r = s.dec.expected) ∨ (no = 5 ∧ r = s.dec.outn) ∨
        (no = 6 ∧ r = s.dec.rptr) ∨
        (no = 4 ∧ r.toNat = (phaseBits s.dec.phase).toNat + 4 * (faultBits s.dec.fault).toNat) ∨
        (no = 1 ∧ r.toNat = s.dec.prec.toNat + 16 * s.dec.hashShift.toNat + (if s.dec.cfgSel = .b then 256 else 0)) →
      step s = .next { s with agenda := rest, rdata := r })

/-- The host places a cell of `IN` while the engine is not BUSY: that cell reads as the placed value, every other cell and
the rest of the machine are as before; while it is BUSY the model has no such move (70_reset_and_hazards.md R284;
20_memory.md R72; the refusal is log entry 7).
Not the source's, but the spec's own or the model's: R284 (D2, D17), R72 (D22); the refusal is the model's choice of
name (log entry 7). -/
def Obligations.HostPlacesInputBetweenRuns : Prop :=
  ∀ (s : State) (i : Count) (v : Word) (rest : List Move),
    (s.agenda = .writeIn .enc i v :: rest →
      (s.enc.phase = .busy → step s = .refused (.inputWriteWhileBusy .enc)) ∧
      (s.enc.phase ≠ .busy → ∃ m, step s = .next { s with agenda := rest, enc := { s.enc with inBuf := m } } ∧
        m.read? i.toNat = some v ∧ ∀ a, a ≠ i.toNat → m.read? a = s.enc.inBuf.read? a)) ∧
    (s.agenda = .writeIn .dec i v :: rest →
      (s.dec.phase = .busy → step s = .refused (.inputWriteWhileBusy .dec)) ∧
      (s.dec.phase ≠ .busy → ∃ m, step s = .next { s with agenda := rest, dec := { s.dec with inBuf := m } } ∧
        m.read? i.toNat = some v ∧ ∀ a, a ≠ i.toNat → m.read? a = s.dec.inBuf.read? a))

/-! ### Phases, interleaving, invariants -/

/-- An engine that is not BUSY performs no step and holds its state (60_exceptions.md R269; 10_state.md R35).
Not the source's, but the spec's own or the model's: R35 (D14, D15); the agenda and the turn are the model's choice
(log entry 1). -/
def Obligations.IdleEnginesHoldTheirState : Prop :=
  ∀ s : State,
    (∀ rest, s.agenda = .engine .enc :: rest → s.enc.phase ≠ .busy → step s = .next { s with agenda := rest }) ∧
    (∀ rest, s.agenda = .engine .dec :: rest → s.dec.phase ≠ .busy → step s = .next { s with agenda := rest }) ∧
    (s.agenda = [] → s.enc.phase ≠ .busy → s.dec.phase ≠ .busy → step s = .next s)

/-- DONE and FAULT are left only by reset: from either phase a step leaves the engine's phase and fault as they are, or
the move was a reset of that engine and its phase is IDLE (10_state.md R35; 60_exceptions.md R261).
Not the source's, but the spec's own or the model's: R35 (D14, D15), R261 (D14). -/
def Obligations.DoneAndFaultAreLeftOnlyByReset : Prop :=
  ∀ s t : State, step s = .next t →
    (s.enc.phase = .done ∨ s.enc.phase = .fault →
      (t.enc.phase = s.enc.phase ∧ t.enc.fault = s.enc.fault) ∨
      (t.enc.phase = .idle ∧ ∃ rest, s.agenda = .hardReset :: rest ∨
        ∃ v, s.agenda = .writeReg .enc 0 v :: rest ∧ v.getLsbD 1 = true)) ∧
    (s.dec.phase = .done ∨ s.dec.phase = .fault →
      (t.dec.phase = s.dec.phase ∧ t.dec.fault = s.dec.fault) ∨
      (t.dec.phase = .idle ∧ ∃ rest, s.agenda = .hardReset :: rest ∨
        ∃ v, s.agenda = .writeReg .dec 0 v :: rest ∧ v.getLsbD 1 = true))

/-- The two engines share nothing: one step of each, in either order, gives the same machine (20_memory.md R69;
10_state.md R20).
Not the source's, but the spec's own or the model's: R20 (D1), R69 (D21). -/
def Obligations.EngineStepsCommute : Prop :=
  ∀ s : State, ∃ t,
    State.run 2 { s with agenda := [.engine .enc, .engine .dec] } = .next t ∧
    State.run 2 { s with agenda := [.engine .dec, .engine .enc] } = .next t

/-- The invariant holds right after reset (10_state.md R45).
Not the source's, but the spec's own or the model's: R45 (D16). -/
def Obligations.InvariantHoldsAtReset : Prop :=
  State.reset.Inv

/-- Every step, of an engine or of the host, keeps the invariant (10_state.md R22, R24, R25, R28, R29, R35, R39;
43_recent_value_cache.md R155; 46_encoder_fsm.md R206; 60_exceptions.md R254).
Not the source's, but the spec's own or the model's: R22, R155, R206 (derived), R28 (D4), R35 (D14, D15), R254
(D10), the last sentence of R39 (derived). -/
def Obligations.EveryStepKeepsTheInvariant : Prop :=
  ∀ s t : State, s.Inv → step s = .next t → t.Inv

/-- START from IDLE gives a started engine: every run starts from the reset values of the working state
(70_reset_and_hazards.md R283).
Not the source's, but the spec's own or the model's: R283 (D15). -/
def Obligations.EveryRunStartsFresh : Prop :=
  ∀ (s : State) (rest : List Move), s.Inv →
    (s.agenda = .writeReg .enc 0 1 :: rest → s.enc.phase = .idle → s.enc.prec ≠ 0 →
      ∃ t, step s = .next t ∧ t.enc.Started) ∧
    (s.agenda = .writeReg .dec 0 1 :: rest → s.dec.phase = .idle → s.dec.prec ≠ 0 →
      ∃ t, step s = .next t ∧ t.dec.Started)

/-! ### Runs -/

/-- The encoder needs exactly `COUNT + 1` steps: after `k <= COUNT` it is BUSY with `IDX = k`, after `COUNT + 1` it is
DONE (70_reset_and_hazards.md R294; 46_encoder_fsm.md R195).
Not the source's, but the spec's own or the model's: R294 (derived; D19). -/
def Obligations.EncoderRunTakesCountPlusOneSteps : Prop :=
  ∀ s : State, s.enc.Started →
    (∀ k, k ≤ s.enc.count.toNat →
      ∃ t, s.runEngine .enc k = .next t ∧ t.enc.phase = .busy ∧ t.enc.idx.toNat = k) ∧
    ∃ t, s.runEngine .enc (s.enc.count.toNat + 1) = .next t ∧ t.enc.phase = .done ∧ t.enc.fault = .none

/-- At every step of a run the encoder has written at most as many words as it has read samples, and at its end at most
`COUNT` (46_encoder_fsm.md R206).
Not the source's, but the spec's own or the model's: R206 (derived). -/
def Obligations.EncoderOutputNeverExceedsInput : Prop :=
  ∀ (s : State) (k : Nat), s.enc.Started →
    ∃ t, s.runEngine .enc k = .next t ∧ t.enc.outn.toNat ≤ t.enc.idx.toNat ∧ t.enc.idx.toNat ≤ s.enc.count.toNat

/-- The decoder ends, in DONE or FAULT, within `4 * PCOUNT + 1` steps, whatever the words (70_reset_and_hazards.md R294;
30_encoding.md R93).
Not the source's, but the spec's own or the model's: R294 (derived; D19), R93 (D10, D11). -/
def Obligations.DecoderRunEnds : Prop :=
  ∀ s : State, s.dec.Started →
    ∃ t, s.runEngine .dec (4 * s.dec.pcount.toNat + 1) = .next t ∧ (t.dec.phase = .done ∨ t.dec.phase = .fault)

/-- Round trip (47_decoder_fsm.md R236; 10_state.md R40): a started encoder runs to DONE, and a decoder started with the
same parameters on the words it wrote, expecting as many samples as it read, runs to DONE with every sample restored but
for its low `S` bits, and with the same `PREV` and the same cache.
Not the source's, but the spec's own or the model's: Emit and Resolve (R228 to R230: D10, D11), the step bounds of
R294 (derived; D19). -/
def Obligations.DecodingAnEncodedStreamRestoresIt : Prop :=
  ∀ s : State, s.enc.Started →
    ∃ t, s.runEngine .enc (s.enc.count.toNat + 1) = .next t ∧ t.enc.phase = .done ∧
      ∀ u : State, u.dec.Started → s.enc.toEngine.SameParams u.dec.toEngine →
        u.dec.pcount = t.enc.outn → u.dec.expected = s.enc.count →
        (∀ i, i < t.enc.outn.toNat → memRead .decIn u.dec.inBuf i = memRead .encOut t.enc.outBuf i) →
        ∃ v, u.runEngine .dec (4 * u.dec.pcount.toNat + 1) = .next v ∧ v.dec.phase = .done ∧
          v.dec.outn = s.enc.count ∧
          (∀ i, i < s.enc.count.toNat →
            v.dec.outBuf.read? i = some (precSet s.enc.prec (precGet s.enc.prec (memRead .encIn s.enc.inBuf i)))) ∧
          v.dec.prev = t.enc.prev ∧ v.dec.cache = t.enc.cache

/-! ### Beside the statements above -/

/-- `Hash` is the value shifted right by `HASH_SHIFT`, its low three bits in configuration A and its low four in B, and an
engine hashes with its own parameters (43_recent_value_cache.md R150). A lookup hits when the slot of the value's hash holds
the value, and the code of a hit is the cache header with the slot number as payload, which the decoder reads back as CACHE
of that slot (R152; 30_encoding.md R85).
Not the source's, but the spec's own or the model's: HASH_SHIFT as an open parameter in R150 (D7), the code values
of configuration B (D6). -/
def Obligations.HashAndCacheCodeAreShiftAndMask : Prop :=
  (∀ (shift : BitVec 4) (v : Word),
    (hashSlot .a shift v).toNat = (v.toNat >>> shift.toNat) % 8 ∧
    (hashSlot .b shift v).toNat = (v.toNat >>> shift.toNat) % 16) ∧
  (∀ (g : Engine) (v : Word), g.hash v = hashSlot g.cfgSel g.hashShift v ∧ (g.hits v = true ↔ g.slot (g.hash v) = v)) ∧
  (∀ h : BitVec 3, cacheCode .a (h.setWidth 4) = 0x08 ||| h.setWidth 5 ∧
    decodeCode .a (cacheCode .a (h.setWidth 4)) = .cacheA h) ∧
  (∀ h : BitVec 4, cacheCode .b h = 0x10 ||| h.setWidth 5 ∧ decodeCode .b (cacheCode .b h) = .cacheB h)

/-- The host reads a cell of `OUT`, in any phase and of either engine: the read port takes the cell's value, zero-extended,
and nothing else changes (70_reset_and_hazards.md R285; 20_memory.md R62). The port is the model's own (log entry 2); a cell
that nothing has written reads as its free value (log entry 3). That a written cell reads as what it holds in every phase
and at every index is the model's choice (log entry 11): U16 gives `OUT` any value while BUSY, after FAULT, and at and above
`OUTN`.
Not the source's, but the spec's own or the model's: R285 (D14), R62 (D20); the read port, unwritten cells, and
written cells in the phases and places U16 leaves open are the model's choice (log entries 2, 3 and 11). -/
def Obligations.HostReadsOutputCells : Prop :=
  ∀ (s : State) (i : Count) (rest : List Move),
    (s.agenda = .readOut .enc i :: rest →
      ∃ r, step s = .next { s with agenda := rest, rdata := r } ∧
        (∀ v, s.enc.outBuf.read? i.toNat = some v → r.toNat = v.toNat) ∧
        (s.enc.outBuf.read? i.toNat = none → r.toNat = (Config.unwrittenCell .encOut i.toNat).toNat)) ∧
    (s.agenda = .readOut .dec i :: rest →
      ∃ r, step s = .next { s with agenda := rest, rdata := r } ∧
        (∀ v, s.dec.outBuf.read? i.toNat = some v → r.toNat = v.toNat) ∧
        (s.dec.outBuf.read? i.toNat = none → r.toNat = (Config.unwrittenCell .decOut i.toNat).toNat))

/-- Nothing restarts inside the input, so streams placed end to end are one stream to the decoder (70_reset_and_hazards.md
R291, R289). The digits of RUN codes that meet merge into one number (42_run_length.md R142): a word of three RUN codes,
wherever it stands, only appends its digits, and the digits after a join count in the places after those before it. A step
that has a symbol to take does not depend on `PCOUNT`. No step of the decoder makes `PREV` or a cache slot the sentinel
again: only reset does.
Not the source's, but the spec's own or the model's: R291 and R142 (derived); how R291 is read is deduced (log entry
12). -/
def Obligations.NothingRestartsBetweenJoinedStreams : Prop :=
  (∀ before after : List Digit, runLength (before ++ after) = runLength before + runLength after * 8 ^ before.length) ∧
  (∀ (s : State) (x y z : Digit) (rest : List Move), s.dec.phase = .busy → s.dec.q = [] → s.dec.rptr < s.dec.pcount →
    memRead .decIn s.dec.inBuf s.dec.rptr.toNat = pack3 (x.setWidth 5) (y.setWidth 5) (z.setWidth 5) →
    s.agenda = .engine .dec :: .engine .dec :: .engine .dec :: .engine .dec :: rest →
    State.run 4 s = .next { s with
      agenda := rest, dec := { s.dec with rptr := s.dec.rptr + 1, acc := s.dec.acc ++ [x, y, z] } }) ∧
  (∀ (s : State) (p : Count) (rest : List Move), s.agenda = .engine .dec :: rest →
    s.dec.q ≠ [] ∨ (s.dec.rptr < s.dec.pcount ∧ s.dec.rptr < p) →
    ∃ t, step s = .next t ∧
      step { s with dec := { s.dec with pcount := p } } = .next { t with dec := { t.dec with pcount := p } }) ∧
  ∀ (s : State) (rest : List Move), s.agenda = .engine .dec :: rest → s.dec.prec ≠ 0 →
    ∃ t, step s = .next t ∧ (s.dec.prev ≠ sentinel → t.dec.prev ≠ sentinel) ∧
      ∀ i, s.dec.toEngine.slot i ≠ sentinel → t.dec.toEngine.slot i ≠ sentinel
end

