-- ==== Sys2Proof/Laws/State.lean ====
section
/-!
SUPPORT. What each named update does to each field of an engine, an encoder or a decoder: one lemma per field per update,
so that no later proof unfolds a record update.
-/

namespace Sys2Proof.Machine

open Sys2Proof

/-! `Engine.outAppend` -/

@[simp] theorem Engine.outAppend_prec (g : Engine) (v : Word) : (g.outAppend v).prec = g.prec := rfl
@[simp] theorem Engine.outAppend_hashShift (g : Engine) (v : Word) : (g.outAppend v).hashShift = g.hashShift := rfl
@[simp] theorem Engine.outAppend_cfgSel (g : Engine) (v : Word) : (g.outAppend v).cfgSel = g.cfgSel := rfl
@[simp] theorem Engine.outAppend_prev (g : Engine) (v : Word) : (g.outAppend v).prev = g.prev := rfl
@[simp] theorem Engine.outAppend_cache (g : Engine) (v : Word) : (g.outAppend v).cache = g.cache := rfl
@[simp] theorem Engine.outAppend_outn (g : Engine) (v : Word) : (g.outAppend v).outn = g.outn + 1 := rfl
@[simp] theorem Engine.outAppend_phase (g : Engine) (v : Word) : (g.outAppend v).phase = g.phase := rfl
@[simp] theorem Engine.outAppend_fault (g : Engine) (v : Word) : (g.outAppend v).fault = g.fault := rfl
@[simp] theorem Engine.outAppend_inBuf (g : Engine) (v : Word) : (g.outAppend v).inBuf = g.inBuf := rfl
@[simp] theorem Engine.outAppend_outBuf (g : Engine) (v : Word) : (g.outAppend v).outBuf = g.outBuf.write g.outn.toNat v := rfl

/-! `Engine.setPrev` -/

@[simp] theorem Engine.setPrev_prec (g : Engine) (v : Word) : (g.setPrev v).prec = g.prec := rfl
@[simp] theorem Engine.setPrev_hashShift (g : Engine) (v : Word) : (g.setPrev v).hashShift = g.hashShift := rfl
@[simp] theorem Engine.setPrev_cfgSel (g : Engine) (v : Word) : (g.setPrev v).cfgSel = g.cfgSel := rfl
@[simp] theorem Engine.setPrev_prev (g : Engine) (v : Word) : (g.setPrev v).prev = v := rfl
@[simp] theorem Engine.setPrev_cache (g : Engine) (v : Word) : (g.setPrev v).cache = g.cache := rfl
@[simp] theorem Engine.setPrev_outn (g : Engine) (v : Word) : (g.setPrev v).outn = g.outn := rfl
@[simp] theorem Engine.setPrev_phase (g : Engine) (v : Word) : (g.setPrev v).phase = g.phase := rfl
@[simp] theorem Engine.setPrev_fault (g : Engine) (v : Word) : (g.setPrev v).fault = g.fault := rfl
@[simp] theorem Engine.setPrev_inBuf (g : Engine) (v : Word) : (g.setPrev v).inBuf = g.inBuf := rfl
@[simp] theorem Engine.setPrev_outBuf (g : Engine) (v : Word) : (g.setPrev v).outBuf = g.outBuf := rfl

/-! `Engine.insert` -/

@[simp] theorem Engine.insert_prec (g : Engine) (v : Word) : (g.insert v).prec = g.prec := rfl
@[simp] theorem Engine.insert_hashShift (g : Engine) (v : Word) : (g.insert v).hashShift = g.hashShift := rfl
@[simp] theorem Engine.insert_cfgSel (g : Engine) (v : Word) : (g.insert v).cfgSel = g.cfgSel := rfl
@[simp] theorem Engine.insert_prev (g : Engine) (v : Word) : (g.insert v).prev = g.prev := rfl
@[simp] theorem Engine.insert_cache (g : Engine) (v : Word) : (g.insert v).cache = g.cache.set (g.hash v).toNat v (g.hash v).isLt := rfl
@[simp] theorem Engine.insert_outn (g : Engine) (v : Word) : (g.insert v).outn = g.outn := rfl
@[simp] theorem Engine.insert_phase (g : Engine) (v : Word) : (g.insert v).phase = g.phase := rfl
@[simp] theorem Engine.insert_fault (g : Engine) (v : Word) : (g.insert v).fault = g.fault := rfl
@[simp] theorem Engine.insert_inBuf (g : Engine) (v : Word) : (g.insert v).inBuf = g.inBuf := rfl
@[simp] theorem Engine.insert_outBuf (g : Engine) (v : Word) : (g.insert v).outBuf = g.outBuf := rfl

/-! `Engine.raise` -/

@[simp] theorem Engine.raise_prec (g : Engine) (f : FaultCode) : (g.raise f).prec = g.prec := rfl
@[simp] theorem Engine.raise_hashShift (g : Engine) (f : FaultCode) : (g.raise f).hashShift = g.hashShift := rfl
@[simp] theorem Engine.raise_cfgSel (g : Engine) (f : FaultCode) : (g.raise f).cfgSel = g.cfgSel := rfl
@[simp] theorem Engine.raise_prev (g : Engine) (f : FaultCode) : (g.raise f).prev = g.prev := rfl
@[simp] theorem Engine.raise_cache (g : Engine) (f : FaultCode) : (g.raise f).cache = g.cache := rfl
@[simp] theorem Engine.raise_outn (g : Engine) (f : FaultCode) : (g.raise f).outn = g.outn := rfl
@[simp] theorem Engine.raise_phase (g : Engine) (f : FaultCode) : (g.raise f).phase = .fault := rfl
@[simp] theorem Engine.raise_fault (g : Engine) (f : FaultCode) : (g.raise f).fault = f := rfl
@[simp] theorem Engine.raise_inBuf (g : Engine) (f : FaultCode) : (g.raise f).inBuf = g.inBuf := rfl
@[simp] theorem Engine.raise_outBuf (g : Engine) (f : FaultCode) : (g.raise f).outBuf = g.outBuf := rfl

/-! `Engine.hostPlace` -/

@[simp] theorem Engine.hostPlace_prec (g : Engine) (i : Count) (v : Word) : (g.hostPlace i v).prec = g.prec := rfl
@[simp] theorem Engine.hostPlace_hashShift (g : Engine) (i : Count) (v : Word) : (g.hostPlace i v).hashShift = g.hashShift := rfl
@[simp] theorem Engine.hostPlace_cfgSel (g : Engine) (i : Count) (v : Word) : (g.hostPlace i v).cfgSel = g.cfgSel := rfl
@[simp] theorem Engine.hostPlace_prev (g : Engine) (i : Count) (v : Word) : (g.hostPlace i v).prev = g.prev := rfl
@[simp] theorem Engine.hostPlace_cache (g : Engine) (i : Count) (v : Word) : (g.hostPlace i v).cache = g.cache := rfl
@[simp] theorem Engine.hostPlace_outn (g : Engine) (i : Count) (v : Word) : (g.hostPlace i v).outn = g.outn := rfl
@[simp] theorem Engine.hostPlace_phase (g : Engine) (i : Count) (v : Word) : (g.hostPlace i v).phase = g.phase := rfl
@[simp] theorem Engine.hostPlace_fault (g : Engine) (i : Count) (v : Word) : (g.hostPlace i v).fault = g.fault := rfl
@[simp] theorem Engine.hostPlace_inBuf (g : Engine) (i : Count) (v : Word) : (g.hostPlace i v).inBuf = g.inBuf.write i.toNat v := rfl
@[simp] theorem Engine.hostPlace_outBuf (g : Engine) (i : Count) (v : Word) : (g.hostPlace i v).outBuf = g.outBuf := rfl

/-! `Engine.writeCfg` -/

@[simp] theorem Engine.writeCfg_prec (g : Engine) (v : BitVec 32) : (g.writeCfg v).prec = v.extractLsb' 0 4 := rfl
@[simp] theorem Engine.writeCfg_hashShift (g : Engine) (v : BitVec 32) : (g.writeCfg v).hashShift = v.extractLsb' 4 4 := rfl
@[simp] theorem Engine.writeCfg_cfgSel (g : Engine) (v : BitVec 32) : (g.writeCfg v).cfgSel = cfgSelOf (v.getLsbD 8) := rfl
@[simp] theorem Engine.writeCfg_prev (g : Engine) (v : BitVec 32) : (g.writeCfg v).prev = g.prev := rfl
@[simp] theorem Engine.writeCfg_cache (g : Engine) (v : BitVec 32) : (g.writeCfg v).cache = g.cache := rfl
@[simp] theorem Engine.writeCfg_outn (g : Engine) (v : BitVec 32) : (g.writeCfg v).outn = g.outn := rfl
@[simp] theorem Engine.writeCfg_phase (g : Engine) (v : BitVec 32) : (g.writeCfg v).phase = g.phase := rfl
@[simp] theorem Engine.writeCfg_fault (g : Engine) (v : BitVec 32) : (g.writeCfg v).fault = g.fault := rfl
@[simp] theorem Engine.writeCfg_inBuf (g : Engine) (v : BitVec 32) : (g.writeCfg v).inBuf = g.inBuf := rfl
@[simp] theorem Engine.writeCfg_outBuf (g : Engine) (v : BitVec 32) : (g.writeCfg v).outBuf = g.outBuf := rfl

/-! `Engine.softReset` -/

@[simp] theorem Engine.softReset_prec (g : Engine) : (g.softReset).prec = g.prec := rfl
@[simp] theorem Engine.softReset_hashShift (g : Engine) : (g.softReset).hashShift = g.hashShift := rfl
@[simp] theorem Engine.softReset_cfgSel (g : Engine) : (g.softReset).cfgSel = g.cfgSel := rfl
@[simp] theorem Engine.softReset_prev (g : Engine) : (g.softReset).prev = sentinel := rfl
@[simp] theorem Engine.softReset_cache (g : Engine) : (g.softReset).cache = Vector.replicate 16 sentinel := rfl
@[simp] theorem Engine.softReset_outn (g : Engine) : (g.softReset).outn = 0 := rfl
@[simp] theorem Engine.softReset_phase (g : Engine) : (g.softReset).phase = .idle := rfl
@[simp] theorem Engine.softReset_fault (g : Engine) : (g.softReset).fault = .none := rfl
@[simp] theorem Engine.softReset_inBuf (g : Engine) : (g.softReset).inBuf = g.inBuf := rfl
@[simp] theorem Engine.softReset_outBuf (g : Engine) : (g.softReset).outBuf = g.outBuf := rfl

/-! `Engine.hardReset` -/

@[simp] theorem Engine.hardReset_prec (g : Engine) : (g.hardReset).prec = 1 := rfl
@[simp] theorem Engine.hardReset_hashShift (g : Engine) : (g.hardReset).hashShift = 0 := rfl
@[simp] theorem Engine.hardReset_cfgSel (g : Engine) : (g.hardReset).cfgSel = .a := rfl
@[simp] theorem Engine.hardReset_prev (g : Engine) : (g.hardReset).prev = sentinel := rfl
@[simp] theorem Engine.hardReset_cache (g : Engine) : (g.hardReset).cache = Vector.replicate 16 sentinel := rfl
@[simp] theorem Engine.hardReset_outn (g : Engine) : (g.hardReset).outn = 0 := rfl
@[simp] theorem Engine.hardReset_phase (g : Engine) : (g.hardReset).phase = .idle := rfl
@[simp] theorem Engine.hardReset_fault (g : Engine) : (g.hardReset).fault = .none := rfl
@[simp] theorem Engine.hardReset_inBuf (g : Engine) : (g.hardReset).inBuf = g.inBuf := rfl
@[simp] theorem Engine.hardReset_outBuf (g : Engine) : (g.hardReset).outBuf = g.outBuf := rfl

/-! `Dec.popCode` -/

@[simp] theorem Dec.popCode_toEngine (d : Dec) : (d.popCode).toEngine = d.toEngine := rfl
@[simp] theorem Dec.popCode_pcount (d : Dec) : (d.popCode).pcount = d.pcount := rfl
@[simp] theorem Dec.popCode_expected (d : Dec) : (d.popCode).expected = d.expected := rfl
@[simp] theorem Dec.popCode_rptr (d : Dec) : (d.popCode).rptr = d.rptr := rfl
@[simp] theorem Dec.popCode_q (d : Dec) : (d.popCode).q = d.q.tail := rfl
@[simp] theorem Dec.popCode_acc (d : Dec) : (d.popCode).acc = d.acc := rfl

/-! `Dec.nextWord` -/

@[simp] theorem Dec.nextWord_toEngine (d : Dec) : (d.nextWord).toEngine = d.toEngine := rfl
@[simp] theorem Dec.nextWord_pcount (d : Dec) : (d.nextWord).pcount = d.pcount := rfl
@[simp] theorem Dec.nextWord_expected (d : Dec) : (d.nextWord).expected = d.expected := rfl
@[simp] theorem Dec.nextWord_rptr (d : Dec) : (d.nextWord).rptr = d.rptr + 1 := rfl
@[simp] theorem Dec.nextWord_q (d : Dec) : (d.nextWord).q = d.q := rfl
@[simp] theorem Dec.nextWord_acc (d : Dec) : (d.nextWord).acc = d.acc := rfl

/-! `Dec.pushDigit` -/

@[simp] theorem Dec.pushDigit_toEngine (d : Dec) (n : Digit) : (d.pushDigit n).toEngine = d.toEngine := rfl
@[simp] theorem Dec.pushDigit_pcount (d : Dec) (n : Digit) : (d.pushDigit n).pcount = d.pcount := rfl
@[simp] theorem Dec.pushDigit_expected (d : Dec) (n : Digit) : (d.pushDigit n).expected = d.expected := rfl
@[simp] theorem Dec.pushDigit_rptr (d : Dec) (n : Digit) : (d.pushDigit n).rptr = d.rptr := rfl
@[simp] theorem Dec.pushDigit_q (d : Dec) (n : Digit) : (d.pushDigit n).q = d.q := rfl
@[simp] theorem Dec.pushDigit_acc (d : Dec) (n : Digit) : (d.pushDigit n).acc = d.acc ++ [n] := rfl

/-! `Dec.fillQueue` -/

@[simp] theorem Dec.fillQueue_toEngine (d : Dec) (a b c : Code) : (d.fillQueue a b c).toEngine = d.toEngine := rfl
@[simp] theorem Dec.fillQueue_pcount (d : Dec) (a b c : Code) : (d.fillQueue a b c).pcount = d.pcount := rfl
@[simp] theorem Dec.fillQueue_expected (d : Dec) (a b c : Code) : (d.fillQueue a b c).expected = d.expected := rfl
@[simp] theorem Dec.fillQueue_rptr (d : Dec) (a b c : Code) : (d.fillQueue a b c).rptr = d.rptr := rfl
@[simp] theorem Dec.fillQueue_q (d : Dec) (a b c : Code) : (d.fillQueue a b c).q = [a, b, c] := rfl
@[simp] theorem Dec.fillQueue_acc (d : Dec) (a b c : Code) : (d.fillQueue a b c).acc = d.acc := rfl

/-! `Dec.insert` -/

@[simp] theorem Dec.insert_toEngine (d : Dec) (v : Word) : (d.insert v).toEngine = d.toEngine.insert v := rfl
@[simp] theorem Dec.insert_pcount (d : Dec) (v : Word) : (d.insert v).pcount = d.pcount := rfl
@[simp] theorem Dec.insert_expected (d : Dec) (v : Word) : (d.insert v).expected = d.expected := rfl
@[simp] theorem Dec.insert_rptr (d : Dec) (v : Word) : (d.insert v).rptr = d.rptr := rfl
@[simp] theorem Dec.insert_q (d : Dec) (v : Word) : (d.insert v).q = d.q := rfl
@[simp] theorem Dec.insert_acc (d : Dec) (v : Word) : (d.insert v).acc = d.acc := rfl

/-! `Dec.softReset` -/

@[simp] theorem Dec.softReset_toEngine (d : Dec) : (d.softReset).toEngine = d.toEngine.softReset := rfl
@[simp] theorem Dec.softReset_pcount (d : Dec) : (d.softReset).pcount = d.pcount := rfl
@[simp] theorem Dec.softReset_expected (d : Dec) : (d.softReset).expected = d.expected := rfl
@[simp] theorem Dec.softReset_rptr (d : Dec) : (d.softReset).rptr = 0 := rfl
@[simp] theorem Dec.softReset_q (d : Dec) : (d.softReset).q = [] := rfl
@[simp] theorem Dec.softReset_acc (d : Dec) : (d.softReset).acc = [] := rfl

/-! `Dec.hardReset` -/

@[simp] theorem Dec.hardReset_toEngine (d : Dec) : (d.hardReset).toEngine = d.toEngine.hardReset := rfl
@[simp] theorem Dec.hardReset_pcount (d : Dec) : (d.hardReset).pcount = 0 := rfl
@[simp] theorem Dec.hardReset_expected (d : Dec) : (d.hardReset).expected = 0 := rfl
@[simp] theorem Dec.hardReset_rptr (d : Dec) : (d.hardReset).rptr = 0 := rfl
@[simp] theorem Dec.hardReset_q (d : Dec) : (d.hardReset).q = [] := rfl
@[simp] theorem Dec.hardReset_acc (d : Dec) : (d.hardReset).acc = [] := rfl

/-! `Enc.append` -/

@[simp] theorem Enc.append_toEngine (e : Enc) (v : Word) : (e.append v).toEngine = e.toEngine.outAppend v := rfl
@[simp] theorem Enc.append_count (e : Enc) (v : Word) : (e.append v).count = e.count := rfl
@[simp] theorem Enc.append_idx (e : Enc) (v : Word) : (e.append v).idx = e.idx := rfl
@[simp] theorem Enc.append_run (e : Enc) (v : Word) : (e.append v).run = e.run := rfl
@[simp] theorem Enc.append_pend (e : Enc) (v : Word) : (e.append v).pend = e.pend := rfl

/-! `Enc.nextSample` -/

@[simp] theorem Enc.nextSample_toEngine (e : Enc) : (e.nextSample).toEngine = e.toEngine := rfl
@[simp] theorem Enc.nextSample_count (e : Enc) : (e.nextSample).count = e.count := rfl
@[simp] theorem Enc.nextSample_idx (e : Enc) : (e.nextSample).idx = e.idx + 1 := rfl
@[simp] theorem Enc.nextSample_run (e : Enc) : (e.nextSample).run = e.run := rfl
@[simp] theorem Enc.nextSample_pend (e : Enc) : (e.nextSample).pend = e.pend := rfl

/-! `Enc.extendRun` -/

@[simp] theorem Enc.extendRun_toEngine (e : Enc) : (e.extendRun).toEngine = e.toEngine := rfl
@[simp] theorem Enc.extendRun_count (e : Enc) : (e.extendRun).count = e.count := rfl
@[simp] theorem Enc.extendRun_idx (e : Enc) : (e.extendRun).idx = e.idx := rfl
@[simp] theorem Enc.extendRun_run (e : Enc) : (e.extendRun).run = e.run + 1 := rfl
@[simp] theorem Enc.extendRun_pend (e : Enc) : (e.extendRun).pend = e.pend := rfl

/-! `Enc.setPrev` -/

@[simp] theorem Enc.setPrev_toEngine (e : Enc) (v : Word) : (e.setPrev v).toEngine = e.toEngine.setPrev v := rfl
@[simp] theorem Enc.setPrev_count (e : Enc) (v : Word) : (e.setPrev v).count = e.count := rfl
@[simp] theorem Enc.setPrev_idx (e : Enc) (v : Word) : (e.setPrev v).idx = e.idx := rfl
@[simp] theorem Enc.setPrev_run (e : Enc) (v : Word) : (e.setPrev v).run = e.run := rfl
@[simp] theorem Enc.setPrev_pend (e : Enc) (v : Word) : (e.setPrev v).pend = e.pend := rfl

/-! `Enc.softReset` -/

@[simp] theorem Enc.softReset_toEngine (e : Enc) : (e.softReset).toEngine = e.toEngine.softReset := rfl
@[simp] theorem Enc.softReset_count (e : Enc) : (e.softReset).count = e.count := rfl
@[simp] theorem Enc.softReset_idx (e : Enc) : (e.softReset).idx = 0 := rfl
@[simp] theorem Enc.softReset_run (e : Enc) : (e.softReset).run = 0 := rfl
@[simp] theorem Enc.softReset_pend (e : Enc) : (e.softReset).pend = [] := rfl

/-! `Enc.hardReset` -/

@[simp] theorem Enc.hardReset_toEngine (e : Enc) : (e.hardReset).toEngine = e.toEngine.hardReset := rfl
@[simp] theorem Enc.hardReset_count (e : Enc) : (e.hardReset).count = 0 := rfl
@[simp] theorem Enc.hardReset_idx (e : Enc) : (e.hardReset).idx = 0 := rfl
@[simp] theorem Enc.hardReset_run (e : Enc) : (e.hardReset).run = 0 := rfl
@[simp] theorem Enc.hardReset_pend (e : Enc) : (e.hardReset).pend = [] := rfl

end Sys2Proof.Machine
end

