-- ==== Sys2Proof/Laws/Memory.lean ====
section
/-!
SUPPORT. The laws of a buffer: a read after a write, the canonical form is kept by every operation on a buffer, and two
buffers in canonical form that read alike are equal.
-/

namespace Sys2Proof.Machine

open Sys2Proof

/-- A 32-bit count plus one, as a natural number. -/
theorem count_toNat_add_one (c : Count) : (c + 1).toNat = (c.toNat + 1) % 2 ^ 32 := by
  rw [BitVec.toNat_add]
  rfl

/-- A count below its limit steps without wrapping. -/
theorem count_toNat_succ {c : Count} (h : c.toNat + 1 < 2 ^ 32) : (c + 1).toNat = c.toNat + 1 := by
  rw [count_toNat_add_one, Nat.mod_eq_of_lt h]

@[simp] theorem Memory.read?_nil (i : Nat) : Memory.read? [] i = none := rfl

/-- A read after a write gives the written value in its cell and the old value in every other. -/
theorem Memory.read?_write (m : Memory) (i j : Nat) (v : Word) :
    (m.write i v).read? j = if j = i then some v else m.read? j := by
  induction m with
  | nil => simp [Memory.write, Memory.read?]
  | cons c m ih =>
    obtain ⟨k, u⟩ := c
    by_cases h1 : i < k
    · simp [Memory.write, Memory.read?, h1]
    · by_cases h2 : i = k
      · subst h2
        by_cases h3 : j = i <;> simp [Memory.write, Memory.read?, h3]
      · by_cases h3 : j = k
        · subst h3
          simp [Memory.write, Memory.read?, h1, h2, Ne.symm h2]
        · simp [Memory.write, Memory.read?, h1, h2, h3, ih]

@[simp] theorem Memory.read?_write_same (m : Memory) (i : Nat) (v : Word) :
    (m.write i v).read? i = some v := by
  simp [Memory.read?_write]

theorem Memory.read?_write_other (m : Memory) {i j : Nat} (v : Word) (h : j ≠ i) :
    (m.write i v).read? j = m.read? j := by
  simp [Memory.read?_write, h]

theorem memRead_of_read? (sp : Space) {m : Memory} {i : Nat} {v : Word} (h : m.read? i = some v) :
    memRead sp m i = v := by
  simp [memRead, h]

/-- The cells of a buffer after a write are the written one and cells the buffer had. -/
theorem Memory.mem_write {m : Memory} {i : Nat} {v : Word} {x : Nat × Word} (h : x ∈ m.write i v) :
    x = (i, v) ∨ x ∈ m := by
  induction m with
  | nil => simpa [Memory.write] using h
  | cons c m ih =>
    obtain ⟨k, u⟩ := c
    simp only [Memory.write] at h
    split at h
    · simpa using h
    · split at h
      · rcases List.mem_cons.mp h with h | h
        · exact .inl h
        · exact .inr (List.mem_cons_of_mem _ h)
      · rcases List.mem_cons.mp h with h | h
        · exact .inr (by simp [h])
        · rcases ih h with h | h
          · exact .inl h
          · exact .inr (List.mem_cons_of_mem _ h)

theorem Memory.wf_nil : Memory.wf [] :=
  ⟨List.Pairwise.nil, fun _ h => absurd h (by simp)⟩

/-- A write within the index range keeps the canonical form. -/
theorem Memory.wf_write {m : Memory} {i : Nat} (v : Word) (hi : i < 2 ^ 32) (h : m.wf) : (m.write i v).wf := by
  refine ⟨?_, fun x hx => ?_⟩
  · obtain ⟨hp, -⟩ := h
    induction m with
    | nil => simp [Memory.write]
    | cons c m ih =>
      obtain ⟨k, u⟩ := c
      obtain ⟨hk, hm⟩ := List.pairwise_cons.mp hp
      simp only [Memory.write]
      split
      · rename_i h1
        refine List.pairwise_cons.mpr ⟨fun x hx => ?_, hp⟩
        rcases List.mem_cons.mp hx with hx | hx
        · simpa [hx] using h1
        · exact lt_trans h1 (hk x hx)
      · split
        · rename_i h2
          subst h2
          exact List.pairwise_cons.mpr ⟨hk, hm⟩
        · refine List.pairwise_cons.mpr ⟨fun x hx => ?_, ih hm⟩
          rcases Memory.mem_write hx with hx | hx
          · simp only [hx]
            omega
          · exact hk x hx
  · rcases Memory.mem_write hx with hx | hx
    · simpa [hx] using hi
    · exact h.2 x hx

/-- In canonical form a read below every listed index finds nothing. -/
theorem Memory.read?_eq_none {m : Memory} {i : Nat} (h : ∀ x ∈ m, i ≠ x.1) : m.read? i = none := by
  induction m with
  | nil => rfl
  | cons c m ih =>
    obtain ⟨k, u⟩ := c
    have hk : i ≠ k := h (k, u) (by simp)
    simpa [Memory.read?, hk] using ih fun x hx => h x (List.mem_cons_of_mem _ hx)

/-- Buffers in canonical form that read alike are the same data. -/
theorem Memory.ext_of_read? {m n : Memory} (hm : m.wf) (hn : n.wf) (h : ∀ i, m.read? i = n.read? i) : m = n := by
  replace hm := hm.1
  replace hn := hn.1
  induction m generalizing n with
  | nil =>
    cases n with
    | nil => rfl
    | cons c n => simpa [Memory.read?] using h c.1
  | cons c m ih =>
    cases n with
    | nil => simpa [Memory.read?] using h c.1
    | cons d n =>
      obtain ⟨k, u⟩ := c
      obtain ⟨l, v⟩ := d
      obtain ⟨hk, hm'⟩ := List.pairwise_cons.mp hm
      obtain ⟨hl, hn'⟩ := List.pairwise_cons.mp hn
      have hkl : k = l := by
        rcases lt_trichotomy k l with hlt | heq | hgt
        · have hnone : Memory.read? ((l, v) :: n) k = none :=
            Memory.read?_eq_none fun x hx => by
              rcases List.mem_cons.mp hx with hx | hx
              · simp only [hx]
                omega
              · have := hl x hx
                simp only at this
                omega
          have := h k
          rw [hnone] at this
          simp [Memory.read?] at this
        · exact heq
        · have hnone : Memory.read? ((k, u) :: m) l = none :=
            Memory.read?_eq_none fun x hx => by
              rcases List.mem_cons.mp hx with hx | hx
              · simp only [hx]
                omega
              · have := hk x hx
                simp only at this
                omega
          have := h l
          rw [hnone] at this
          simp [Memory.read?] at this
      subst hkl
      have huv : u = v := by simpa [Memory.read?] using h k
      subst huv
      congr 1
      refine ih (fun i => ?_) hm' hn'
      by_cases hik : i = k
      · subst hik
        rw [Memory.read?_eq_none fun x hx => (hk x hx).ne, Memory.read?_eq_none fun x hx => (hl x hx).ne]
      · simpa [Memory.read?, hik] using h i

/-! ### Appending to `OUT` -/

theorem Engine.outAppend_wf {g : Engine} (v : Word) (h : g.outBuf.wf) : (g.outAppend v).outBuf.wf :=
  Memory.wf_write v g.outn.isLt h

theorem Engine.hostPlace_wf {g : Engine} (i : Count) (v : Word) (h : g.inBuf.wf) : (g.hostPlace i v).inBuf.wf :=
  Memory.wf_write v i.isLt h

@[simp] theorem Engine.outAppendN_zero (v : Word) (g : Engine) : Engine.outAppendN v 0 g = g := rfl

/-- What repeated appending leaves alone. -/
theorem Engine.outAppendN_frame (v : Word) (n : Nat) (g : Engine) :
    Engine.outAppendN v n g =
      { g with outBuf := (Engine.outAppendN v n g).outBuf, outn := (Engine.outAppendN v n g).outn } := by
  induction n generalizing g with
  | zero => rfl
  | succ n ih =>
    rw [Engine.outAppendN, ih (g.outAppend v)]
    rfl

@[simp] theorem Engine.outAppendN_prec (v : Word) (n : Nat) (g : Engine) : (Engine.outAppendN v n g).prec = g.prec := by
  rw [Engine.outAppendN_frame]

@[simp] theorem Engine.outAppendN_hashShift (v : Word) (n : Nat) (g : Engine) :
    (Engine.outAppendN v n g).hashShift = g.hashShift := by
  rw [Engine.outAppendN_frame]

@[simp] theorem Engine.outAppendN_cfgSel (v : Word) (n : Nat) (g : Engine) :
    (Engine.outAppendN v n g).cfgSel = g.cfgSel := by
  rw [Engine.outAppendN_frame]

@[simp] theorem Engine.outAppendN_prev (v : Word) (n : Nat) (g : Engine) : (Engine.outAppendN v n g).prev = g.prev := by
  rw [Engine.outAppendN_frame]

@[simp] theorem Engine.outAppendN_cache (v : Word) (n : Nat) (g : Engine) :
    (Engine.outAppendN v n g).cache = g.cache := by
  rw [Engine.outAppendN_frame]

@[simp] theorem Engine.outAppendN_phase (v : Word) (n : Nat) (g : Engine) :
    (Engine.outAppendN v n g).phase = g.phase := by
  rw [Engine.outAppendN_frame]

@[simp] theorem Engine.outAppendN_fault (v : Word) (n : Nat) (g : Engine) :
    (Engine.outAppendN v n g).fault = g.fault := by
  rw [Engine.outAppendN_frame]

@[simp] theorem Engine.outAppendN_inBuf (v : Word) (n : Nat) (g : Engine) :
    (Engine.outAppendN v n g).inBuf = g.inBuf := by
  rw [Engine.outAppendN_frame]

@[simp] theorem Engine.outAppendN_outn (v : Word) (n : Nat) (g : Engine) :
    (Engine.outAppendN v n g).outn = g.outn + BitVec.ofNat 32 n := by
  induction n generalizing g with
  | zero => simp
  | succ n ih =>
    rw [Engine.outAppendN, ih, Engine.outAppend_outn]
    apply BitVec.eq_of_toNat_eq
    rw [BitVec.toNat_add, count_toNat_add_one, BitVec.toNat_add, BitVec.toNat_ofNat, BitVec.toNat_ofNat]
    omega

theorem Engine.outAppendN_wf {g : Engine} (v : Word) (n : Nat) (h : g.outBuf.wf) :
    (Engine.outAppendN v n g).outBuf.wf := by
  induction n generalizing g with
  | zero => exact h
  | succ n ih => exact ih (Engine.outAppend_wf v h)

/-- Repeated appending writes `v` to the `n` cells from `OUTN` on and nothing else. -/
theorem Engine.outAppendN_read? (v : Word) (n : Nat) (g : Engine) (h : g.outn.toNat + n < 2 ^ 32) (a : Nat) :
    (Engine.outAppendN v n g).outBuf.read? a =
      if g.outn.toNat ≤ a ∧ a < g.outn.toNat + n then some v else g.outBuf.read? a := by
  induction n generalizing g with
  | zero =>
    rw [if_neg (by omega)]
    rfl
  | succ n ih =>
    have hn : (g.outAppend v).outn.toNat = g.outn.toNat + 1 := count_toNat_succ (by omega)
    rw [Engine.outAppendN, ih (g.outAppend v) (by omega), hn, Engine.outAppend_outBuf, Memory.read?_write]
    by_cases h1 : a = g.outn.toNat
    · subst h1
      simp
    · rw [if_neg h1]
      exact if_congr (by omega) rfl rfl

end Sys2Proof.Machine
end

