-- ==== Sys2Proof/Laws/Ops.lean ====
section
/-!
SUPPORT. One lemma per shared operation, saying once everything it can do: the cache, START, Emit, Resolve, and a decoder
step that ends in a fault.
-/

namespace Sys2Proof.Machine

open Sys2Proof

/-! ### The cache -/

/-- An insertion writes the slot of its value and no other. -/
theorem Engine.slot_insert (g : Engine) (v : Word) (i : BitVec 4) :
    (g.insert v).slot i = if i = g.hash v then v else g.slot i := by
  unfold Engine.slot Engine.insert
  simp only [Vector.getElem_set]
  by_cases h : i = g.hash v
  · simp [h]
  · have : (g.hash v).toNat ≠ i.toNat := fun hn => h (BitVec.eq_of_toNat_eq hn.symm)
    simp [h, this]

theorem Engine.slot_replicate {g : Engine} (h : g.cache = Vector.replicate 16 sentinel) (i : BitVec 4) :
    g.slot i = sentinel := by
  simp [Engine.slot, h]

/-- Equal caches are equal slot by slot, and the other way round. -/
theorem cache_eq_iff_slot (g h : Engine) : g.cache = h.cache ↔ ∀ i, g.slot i = h.slot i := by
  constructor
  · intro hc i
    simp [Engine.slot, hc]
  · intro hs
    apply Vector.ext
    intro i hi
    have := hs (BitVec.ofNat 4 i)
    have hmod : (BitVec.ofNat 4 i).toNat = i := by
      rw [BitVec.toNat_ofNat]
      omega
    simpa [Engine.slot, hmod] using this

/-- The slot of a value depends on the engine's parameters alone. -/
theorem Engine.hash_congr {g h : Engine} (hs : g.hashShift = h.hashShift) (hc : g.cfgSel = h.cfgSel) (v : Word) :
    g.hash v = h.hash v := by
  simp [Engine.hash, hs, hc]

/-! ### Resets and START -/

theorem Engine.softReset_fresh (g : Engine) : g.softReset.Fresh :=
  ⟨rfl, fun i => Engine.slot_replicate rfl i, rfl⟩

theorem Engine.hardReset_fresh (g : Engine) : g.hardReset.Fresh :=
  ⟨rfl, fun i => Engine.slot_replicate rfl i, rfl⟩

/-- Both tag configurations are valid, so START never finds an overlap. -/
theorem tagsOf_valid (sel : CfgSel) : (tagsOf sel).valid = true := by
  cases sel <;> decide

/-- What START does: nothing outside IDLE; in IDLE the one fault that can occur, or BUSY. -/
theorem Engine.start_eq (g : Engine) :
    g.start =
      if g.phase = .idle then
        if g.prec = 0 then { g with phase := .fault, fault := .cfgPrecisionZero } else { g with phase := .busy }
      else g := by
  simp [Engine.start, tagsOf_valid, Engine.raise]

/-! ### Emit -/

/-- When `Emit` succeeds, and with what. -/
theorem Dec.emit_eq_ok {d d' : Dec} {x : Int} :
    d.emit x = .ok d' ↔
      0 ≤ x ∧ x ≤ maxWorking d.prec ∧ d.outn ≠ d.expected ∧
        d' = { d with
          toEngine := (d.toEngine.outAppend (precSet d.prec (BitVec.ofInt 16 x))).setPrev (BitVec.ofInt 16 x) } := by
  unfold Dec.emit
  split
  · constructor
    · intro h
      cases h
    · rintro ⟨h1, h2, -⟩
      omega
  · split
    · constructor
      · intro h
        cases h
      · rintro ⟨-, -, h3, -⟩
        contradiction
    · constructor
      · intro h
        cases h
        exact ⟨by omega, by omega, ‹_›, rfl⟩
      · rintro ⟨-, -, -, rfl⟩
        rfl

/-- When `Emit` faults, and with which code: the range is checked before the bound. -/
theorem Dec.emit_eq_error {d : Dec} {x : Int} {f : FaultCode} :
    d.emit x = .error f ↔
      (x < 0 ∨ (maxWorking d.prec : Int) < x) ∧ f = .decSampleRange ∨
        (0 ≤ x ∧ x ≤ maxWorking d.prec) ∧ d.outn = d.expected ∧ f = .decExcessOutput := by
  unfold Dec.emit
  split
  · constructor
    · intro h
      cases h
      exact .inl ⟨‹_›, rfl⟩
    · rintro (⟨-, rfl⟩ | ⟨⟨h1, h2⟩, -⟩)
      · rfl
      · omega
  · split
    · constructor
      · intro h
        cases h
        exact .inr ⟨⟨by omega, by omega⟩, ‹_›, rfl⟩
      · rintro (⟨h1, -⟩ | ⟨-, -, rfl⟩)
        · omega
        · rfl
    · constructor
      · intro h
        cases h
      · rintro (⟨h1, -⟩ | ⟨-, h, -⟩)
        · omega
        · contradiction

/-! ### Resolve -/

/-- When `Resolve` succeeds, and with what. With no run it appends nothing, so one form covers both cases. -/
theorem Dec.resolve_eq_ok {d d' : Dec} :
    d.resolve = .ok d' ↔
      (runLength d.acc ≠ 0 → d.prev ≠ sentinel ∧ d.outn.toNat + runLength d.acc ≤ d.expected.toNat) ∧
        d' = { d with
          acc := [], toEngine := Engine.outAppendN (precSet d.prec d.prev) (runLength d.acc) d.toEngine } := by
  unfold Dec.resolve
  by_cases h0 : runLength d.acc = 0
  · simp only [h0, if_true, Engine.outAppendN_zero]
    constructor
    · intro h
      cases h
      exact ⟨fun h => absurd rfl h, rfl⟩
    · rintro ⟨-, rfl⟩
      rfl
  · simp only [h0, if_false, ne_eq, not_false_eq_true, forall_true_left]
    split
    · constructor
      · intro h
        cases h
      · rintro ⟨⟨h1, -⟩, -⟩
        contradiction
    · split
      · constructor
        · intro h
          cases h
        · rintro ⟨⟨-, h2⟩, -⟩
          omega
      · constructor
        · intro h
          cases h
          exact ⟨⟨‹_›, by omega⟩, rfl⟩
        · rintro ⟨-, rfl⟩
          rfl

/-- When `Resolve` faults, and with which code: the previous sample is checked before the bound. -/
theorem Dec.resolve_eq_error {d : Dec} {f : FaultCode} :
    d.resolve = .error f ↔
      runLength d.acc ≠ 0 ∧
        (d.prev = sentinel ∧ f = .decNoPrevious ∨
          d.prev ≠ sentinel ∧ d.expected.toNat < d.outn.toNat + runLength d.acc ∧ f = .decExcessOutput) := by
  unfold Dec.resolve
  by_cases h0 : runLength d.acc = 0
  · simp [h0]
  · simp only [h0, if_false, ne_eq, not_false_eq_true, true_and]
    split
    · constructor
      · intro h
        cases h
        exact .inl ⟨‹_›, rfl⟩
      · rintro (⟨-, rfl⟩ | ⟨h, -⟩)
        · rfl
        · contradiction
    · split
      · constructor
        · intro h
          cases h
          exact .inr ⟨‹_›, by omega, rfl⟩
        · rintro (⟨h, -⟩ | ⟨-, -, rfl⟩)
          · contradiction
          · rfl
      · constructor
        · intro h
          cases h
        · rintro (⟨h, -⟩ | ⟨-, h, -⟩)
          · contradiction
          · omega

/-- When a symbol that stands for one sample succeeds: Resolve, then its sample, then Emit, each did. -/
theorem Dec.resolveEmit_eq_ok {cur : Dec → Except FaultCode Int} {d d' : Dec} :
    d.resolveEmit cur = .ok d' ↔ ∃ d1 x, d.resolve = .ok d1 ∧ cur d1 = .ok x ∧ d1.emit x = .ok d' := by
  unfold Dec.resolveEmit
  cases hr : d.resolve with
  | error f => simp
  | ok d1 =>
    simp only [Except.ok.injEq, exists_and_left, exists_eq_left']
    cases hc : cur d1 <;> simp

/-- When it faults: the first of the three that faults gives the code (60_exceptions.md R259). -/
theorem Dec.resolveEmit_eq_error {cur : Dec → Except FaultCode Int} {d : Dec} {f : FaultCode} :
    d.resolveEmit cur = .error f ↔
      d.resolve = .error f ∨
        ∃ d1, d.resolve = .ok d1 ∧ (cur d1 = .error f ∨ ∃ x, cur d1 = .ok x ∧ d1.emit x = .error f) := by
  unfold Dec.resolveEmit
  cases hr : d.resolve with
  | error g => simp
  | ok d1 =>
    simp only [Except.ok.injEq, exists_eq_left', reduceCtorEq, false_or]
    cases hc : cur d1 <;> simp

/-! ### Ending a decoder step -/

@[simp] theorem Dec.settle_ok (d d' : Dec) : d.settle (.ok d') = d' := rfl

@[simp] theorem Dec.settle_error (d : Dec) (f : FaultCode) :
    d.settle (.error f) = { d with phase := .fault, fault := f } := rfl

@[simp] theorem State.settle_ok (s : State) (d' : Dec) : s.settle (.ok d') = .next { s with dec := d' } := rfl

@[simp] theorem State.settle_error (s : State) (f : FaultCode) : s.settle (.error f) = .next (s.decFaulted f) := rfl

end Sys2Proof.Machine
end

