-- ==== Sys2Proof/Laws/RunLength.lean ====
section
/-!
SUPPORT. Run lengths: the digit sum in Horner form, and the digits of a length.
-/

namespace Sys2Proof.Machine

open Sys2Proof

theorem runLengthFrom_eq (i : Nat) (acc : List Digit) : runLengthFrom i acc = 8 ^ i * runLength acc := by
  have shift : ∀ (acc : List Digit) (i j : Nat), runLengthFrom (i + j) acc = 8 ^ i * runLengthFrom j acc := by
    intro acc
    induction acc with
    | nil => simp [runLengthFrom]
    | cons p ps ih =>
      intro i j
      have hpow : 2 ^ (runW * (i + j)) = 8 ^ i * 2 ^ (runW * j) := by
        rw [show (8 : Nat) = 2 ^ 3 from rfl, ← pow_mul, ← pow_add, runW]
        congr 1
        ring
      simp only [runLengthFrom, Nat.shiftLeft_eq, hpow, Nat.add_assoc, ih i (j + 1)]
      ring
  simpa [runLength] using shift acc i 0

@[simp] theorem runLength_nil : runLength [] = 0 := rfl

/-- The digit sum in Horner form. -/
theorem runLength_cons (p : Digit) (ps : List Digit) : runLength (p :: ps) = p.toNat + 8 * runLength ps := by
  have h : runLength (p :: ps) = p.toNat <<< (runW * 0) + runLengthFrom 1 ps := rfl
  rw [h, runLengthFrom_eq]
  simp

theorem runLength_append (xs ys : List Digit) :
    runLength (xs ++ ys) = runLength xs + 8 ^ xs.length * runLength ys := by
  induction xs with
  | nil => simp
  | cons x xs ih =>
    rw [List.cons_append, runLength_cons, runLength_cons, ih, List.length_cons, pow_succ]
    ring

/-- Zero digits are worth nothing. -/
theorem runLength_replicate_zero (k : Nat) : runLength (List.replicate k 0) = 0 := by
  induction k with
  | zero => rfl
  | succ k ih =>
    rw [List.replicate_succ, runLength_cons, ih]
    rfl

/-- Zero digits after the digits of a run leave its length unchanged (42_run_length.md R140). -/
theorem runLength_append_zeros (xs : List Digit) (k : Nat) :
    runLength (xs ++ List.replicate k 0) = runLength xs := by
  rw [runLength_append, runLength_replicate_zero]
  simp

/-- The digits of a length the fuel reaches read back as it. -/
theorem runLength_runDigitsFuel (fuel n : Nat) (h : n < 8 ^ fuel) : runLength (runDigitsFuel fuel n) = n := by
  induction fuel generalizing n with
  | zero =>
    have : n = 0 := by simpa using h
    simp [runDigitsFuel, this]
  | succ fuel ih =>
    have hdiv : n >>> runW = n / 8 := by rw [Nat.shiftRight_eq_div_pow]; rfl
    have hlow : (BitVec.ofNat 3 n).toNat = n % 8 := BitVec.toNat_ofNat n 3
    rw [runDigitsFuel, runLength_cons, hdiv, hlow]
    split
    · simp only [runLength_nil]
      omega
    · rw [ih (n / 8) (by rw [pow_succ] at h; omega)]
      omega

/-- The digits of a 32-bit length read back as it (42_run_length.md R136, R138). -/
theorem runLength_runDigits {n : Nat} (h : n < 2 ^ 32) : runLength (runDigits n) = n :=
  runLength_runDigitsFuel 11 n (lt_trans h (by norm_num))

/-- There is at least one digit, and no more digits than the length itself when that is not 0. -/
theorem length_runDigitsFuel_le (fuel n : Nat) (h : n ≠ 0) : (runDigitsFuel fuel n).length ≤ n := by
  induction fuel generalizing n with
  | zero => simp [runDigitsFuel]
  | succ fuel ih =>
    have hdiv : n >>> runW = n / 8 := by rw [Nat.shiftRight_eq_div_pow]; rfl
    rw [runDigitsFuel, hdiv]
    split
    · simp only [List.length_singleton]
      omega
    · rename_i h8
      have := ih (n / 8) h8
      rw [List.length_cons]
      omega

end Sys2Proof.Machine
end

