-- ==== Sys2Proof/Laws/Encoder.lean ====
section
/-!
SUPPORT. The encoder's writing as operations on its stream alone (pending codes, `OUT`, `OUTN`): what they leave of the
rest of the encoder, and the sample step and the final step in those terms.
-/

namespace Sys2Proof.Machine

open Sys2Proof

/-- The part of the encoder that writing changes (45_packed_stream.md R175). -/
structure Stream where
  pend : List Code
  out : Memory
  n : Count

/-- `OutAppend` on a stream. -/
def Stream.append (x : Stream) (w : Word) : Stream :=
  { x with out := x.out.write x.n.toNat w, n := x.n + 1 }

/-- `WriteCode` on a stream. -/
def Stream.code (x : Stream) (c : Code) : Stream :=
  match x.pend ++ [c] with
  | [a, b, d] => { x.append (pack3 a b d) with pend := [] }
  | p => { x with pend := p }

/-- `PackPending` on a stream. -/
def Stream.pack (x : Stream) : Stream :=
  match x.pend with
  | [] => x
  | [a] => { x.append (pack3 a 0 0) with pend := [] }
  | a :: b :: _ => { x.append (pack3 a b 0) with pend := [] }

/-- The encoder's stream. -/
def Enc.stream (e : Enc) : Stream :=
  { pend := e.pend, out := e.outBuf, n := e.outn }

/-- The encoder with another stream. -/
def Enc.withStream (x : Stream) (e : Enc) : Enc :=
  { e with pend := x.pend, outBuf := x.out, outn := x.n }

@[simp] theorem Enc.stream_withStream (x : Stream) (e : Enc) : (e.withStream x).stream = x := rfl
@[simp] theorem Enc.withStream_stream (e : Enc) : e.withStream e.stream = e := rfl
@[simp] theorem Enc.withStream_withStream (x y : Stream) (e : Enc) : (e.withStream x).withStream y = e.withStream y := rfl
@[simp] theorem Enc.withStream_prec (x : Stream) (e : Enc) : (e.withStream x).prec = e.prec := rfl
@[simp] theorem Enc.withStream_hashShift (x : Stream) (e : Enc) : (e.withStream x).hashShift = e.hashShift := rfl
@[simp] theorem Enc.withStream_cfgSel (x : Stream) (e : Enc) : (e.withStream x).cfgSel = e.cfgSel := rfl
@[simp] theorem Enc.withStream_prev (x : Stream) (e : Enc) : (e.withStream x).prev = e.prev := rfl
@[simp] theorem Enc.withStream_cache (x : Stream) (e : Enc) : (e.withStream x).cache = e.cache := rfl
@[simp] theorem Enc.withStream_outn (x : Stream) (e : Enc) : (e.withStream x).outn = x.n := rfl
@[simp] theorem Enc.withStream_phase (x : Stream) (e : Enc) : (e.withStream x).phase = e.phase := rfl
@[simp] theorem Enc.withStream_fault (x : Stream) (e : Enc) : (e.withStream x).fault = e.fault := rfl
@[simp] theorem Enc.withStream_inBuf (x : Stream) (e : Enc) : (e.withStream x).inBuf = e.inBuf := rfl
@[simp] theorem Enc.withStream_outBuf (x : Stream) (e : Enc) : (e.withStream x).outBuf = x.out := rfl
@[simp] theorem Enc.withStream_count (x : Stream) (e : Enc) : (e.withStream x).count = e.count := rfl
@[simp] theorem Enc.withStream_idx (x : Stream) (e : Enc) : (e.withStream x).idx = e.idx := rfl
@[simp] theorem Enc.withStream_run (x : Stream) (e : Enc) : (e.withStream x).run = e.run := rfl
@[simp] theorem Enc.withStream_pend (x : Stream) (e : Enc) : (e.withStream x).pend = x.pend := rfl
@[simp] theorem Enc.withStream_slot (x : Stream) (e : Enc) (i : BitVec 4) :
    (e.withStream x).toEngine.slot i = e.toEngine.slot i := rfl
@[simp] theorem Enc.withStream_hash (x : Stream) (e : Enc) (v : Word) :
    (e.withStream x).toEngine.hash v = e.toEngine.hash v := rfl

/-! ### The writing operations -/

theorem Enc.append_eq (w : Word) (e : Enc) : e.append w = e.withStream (e.stream.append w) := rfl

theorem Enc.writeCode_eq (e : Enc) (c : Code) : e.writeCode c = e.withStream (e.stream.code c) := by
  rw [Enc.writeCode, Stream.code, show e.stream.pend = e.pend from rfl]
  rcases e.pend with _ | ⟨a, _ | ⟨b, _ | ⟨d, _ | ⟨f, p⟩⟩⟩⟩ <;> rfl

theorem Enc.packPending_eq (e : Enc) : e.packPending = e.withStream e.stream.pack := by
  cases hp : e.pend with
  | nil => simp [Enc.packPending, Stream.pack, show e.stream.pend = e.pend from rfl, hp]
  | cons a p =>
    cases p with
    | nil =>
      simp [Enc.packPending, Stream.pack, show e.stream.pend = e.pend from rfl, hp]
      rfl
    | cons b p =>
      simp [Enc.packPending, Stream.pack, show e.stream.pend = e.pend from rfl, hp]
      rfl

theorem Enc.writeCodes_eq (cs : List Code) (e : Enc) :
    e.writeCodes cs = e.withStream (cs.foldl Stream.code e.stream) := by
  induction cs generalizing e with
  | nil => rfl
  | cons c cs ih =>
    show Enc.writeCodes cs (e.writeCode c) = _
    rw [ih, Enc.writeCode_eq]
    rfl

theorem Enc.writeCodes_append (xs ys : List Code) (e : Enc) :
    e.writeCodes (xs ++ ys) = (e.writeCodes xs).writeCodes ys := by
  simp [Enc.writeCodes, List.foldl_append]

theorem Enc.writeRaw_eq (w : Word) (e : Enc) : e.writeRaw w = e.withStream (e.stream.pack.append w) := by
  rw [Enc.writeRaw, Enc.packPending_eq, Enc.append_eq]
  rfl

theorem Enc.rlEmit_eq (n : Nat) (e : Enc) : e.rlEmit n = e.writeCodes (runCodes e.cfgSel n) := rfl

/-- The run flush writes the codes of the run in flight and clears the counter. -/
theorem Enc.flushRun_eq (e : Enc) : e.flushRun = { e.writeCodes e.runInFlight with run := 0 } := by
  unfold Enc.flushRun Enc.runInFlight
  by_cases h : e.run = 0
  · simp only [h, if_true]
    show e = { e with run := 0 }
    rw [← h]
  · simp only [h, if_false]
    rfl

/-- Nothing is pending after the pending codes were packed. -/
theorem Stream.pack_pend (x : Stream) : x.pack.pend = [] := by
  unfold Stream.pack
  split <;> first | assumption | rfl

/-! ### The steps -/

/-- The stream after the codes of the run in flight. -/
def Enc.flushed (e : Enc) : Stream :=
  e.runInFlight.foldl Stream.code e.stream

/-- The sample step on a sample that breaks the run, with a delta. -/
theorem Enc.step_delta {e : Enc} (hi : e.idx < e.count) (hp : e.sample ≠ e.prev)
    (hd : deltaIsValid e.cfgSel (deltaDiff e.sample e.prev) = true) :
    e.step = { e.withStream (e.flushed.code (deltaEncode e.cfgSel (deltaDiff e.sample e.prev))) with
      idx := e.idx + 1, run := 0, prev := e.sample } := by
  rw [Enc.step, if_pos hi, Enc.sampleStep, if_neg hp, Enc.flushRun_eq, Enc.writeCodes_eq]
  rw [Enc.codeSample, if_pos (by exact hd), Enc.writeCode_eq]
  rfl

/-- The sample step on a sample that breaks the run, with a cache hit. -/
theorem Enc.step_cache {e : Enc} (hi : e.idx < e.count) (hp : e.sample ≠ e.prev)
    (hd : deltaIsValid e.cfgSel (deltaDiff e.sample e.prev) = false)
    (hc : e.toEngine.slot (e.toEngine.hash e.sample) = e.sample) :
    e.step = { e.withStream (e.flushed.code (cacheCode e.cfgSel (e.toEngine.hash e.sample))) with
      idx := e.idx + 1, run := 0, prev := e.sample } := by
  rw [Enc.step, if_pos hi, Enc.sampleStep, if_neg hp, Enc.flushRun_eq, Enc.writeCodes_eq]
  rw [Enc.codeSample, if_neg (by exact Bool.eq_false_iff.mp hd), if_pos (by exact beq_iff_eq.mpr hc), Enc.writeCode_eq]
  rfl

/-- The sample step on a sample that breaks the run, with a raw escape. -/
theorem Enc.step_raw {e : Enc} (hi : e.idx < e.count) (hp : e.sample ≠ e.prev)
    (hd : deltaIsValid e.cfgSel (deltaDiff e.sample e.prev) = false)
    (hc : e.toEngine.slot (e.toEngine.hash e.sample) ≠ e.sample) :
    e.step = { e.withStream (e.flushed.pack.append (rawWord e.sample)) with
      idx := e.idx + 1, run := 0, prev := e.sample, cache := (e.toEngine.insert e.sample).cache } := by
  rw [Enc.step, if_pos hi, Enc.sampleStep, if_neg hp, Enc.flushRun_eq, Enc.writeCodes_eq]
  rw [Enc.codeSample, if_neg (by exact Bool.eq_false_iff.mp hd), if_neg (by exact fun h => hc (beq_iff_eq.mp h)),
    Enc.rawEncode, Enc.writeRaw_eq]
  rfl

/-- The sample step on a sample that extends the run. -/
theorem Enc.step_run {e : Enc} (hi : e.idx < e.count) (hp : e.sample = e.prev) :
    e.step = { e with idx := e.idx + 1, run := e.run + 1 } := by
  rw [Enc.step, if_pos hi, Enc.sampleStep, if_pos hp]
  rfl

/-- The final step. -/
theorem Enc.step_final {e : Enc} (hi : ¬ e.idx < e.count) :
    e.step = { e.withStream e.flushed.pack with run := 0, phase := .done } := by
  rw [Enc.step, if_neg hi, Enc.finalStep, Enc.flushRun_eq, Enc.writeCodes_eq, Enc.flush, Enc.packPending_eq]
  rfl

/-- Every step of the encoder is one of these five (46_encoder_fsm.md R208, R203). -/
theorem Enc.step_cases (e : Enc) :
    (e.idx < e.count ∧ e.sample = e.prev ∧ e.step = { e with idx := e.idx + 1, run := e.run + 1 }) ∨
    (e.idx < e.count ∧ e.sample ≠ e.prev ∧ deltaIsValid e.cfgSel (deltaDiff e.sample e.prev) = true ∧
      e.step = { e.withStream (e.flushed.code (deltaEncode e.cfgSel (deltaDiff e.sample e.prev))) with
        idx := e.idx + 1, run := 0, prev := e.sample }) ∨
    (e.idx < e.count ∧ e.sample ≠ e.prev ∧ deltaIsValid e.cfgSel (deltaDiff e.sample e.prev) = false ∧
      e.toEngine.slot (e.toEngine.hash e.sample) = e.sample ∧
      e.step = { e.withStream (e.flushed.code (cacheCode e.cfgSel (e.toEngine.hash e.sample))) with
        idx := e.idx + 1, run := 0, prev := e.sample }) ∨
    (e.idx < e.count ∧ e.sample ≠ e.prev ∧ deltaIsValid e.cfgSel (deltaDiff e.sample e.prev) = false ∧
      e.toEngine.slot (e.toEngine.hash e.sample) ≠ e.sample ∧
      e.step = { e.withStream (e.flushed.pack.append (rawWord e.sample)) with
        idx := e.idx + 1, run := 0, prev := e.sample, cache := (e.toEngine.insert e.sample).cache }) ∨
    (¬ e.idx < e.count ∧ e.step = { e.withStream e.flushed.pack with run := 0, phase := .done }) := by
  by_cases hi : e.idx < e.count
  · by_cases hp : e.sample = e.prev
    · exact .inl ⟨hi, hp, Enc.step_run hi hp⟩
    · cases hd : deltaIsValid e.cfgSel (deltaDiff e.sample e.prev) with
      | true => exact .inr (.inl ⟨hi, hp, rfl, Enc.step_delta hi hp hd⟩)
      | false =>
        by_cases hc : e.toEngine.slot (e.toEngine.hash e.sample) = e.sample
        · exact .inr (.inr (.inl ⟨hi, hp, rfl, hc, Enc.step_cache hi hp hd hc⟩))
        · exact .inr (.inr (.inr (.inl ⟨hi, hp, rfl, hc, Enc.step_raw hi hp hd hc⟩)))
  · exact .inr (.inr (.inr (.inr ⟨hi, Enc.step_final hi⟩)))

/-! ### How much a stream grows -/

/-- Words written plus codes pending. -/
def Stream.weight (x : Stream) : Nat :=
  x.n.toNat + x.pend.length

/-- What a writing operation may do to a stream whose pending list is short: cells below the old count stay, the weight
grows by at most `k`, the pending list stays short, and the canonical form is kept. -/
structure Stream.Grows (k : Nat) (x y : Stream) : Prop where
  pend : y.pend.length ≤ 2
  weight : y.weight ≤ x.weight + k
  count : x.n.toNat ≤ y.n.toNat
  cells : ∀ a, a < x.n.toNat → y.out.read? a = x.out.read? a
  wf : x.out.wf → y.out.wf

theorem Stream.Grows.refl {x : Stream} (h : x.pend.length ≤ 2) : Stream.Grows 0 x x :=
  ⟨h, le_refl _, le_refl _, fun _ _ => rfl, id⟩

theorem Stream.Grows.trans {j k : Nat} {x y z : Stream} (h1 : Stream.Grows j x y) (h2 : Stream.Grows k y z) :
    Stream.Grows (j + k) x z :=
  ⟨h2.pend, by have := h1.weight; have := h2.weight; omega, le_trans h1.count h2.count,
    fun a ha => by rw [h2.cells a (by have := h1.count; omega), h1.cells a ha], fun h => h2.wf (h1.wf h)⟩

/-- One more word. -/
theorem Stream.append_count {x : Stream} (w : Word) (hw : x.n.toNat + 1 < 2 ^ 32) :
    (x.append w).n.toNat = x.n.toNat + 1 :=
  count_toNat_succ hw

/-- One code: at most one more word or one more pending code. -/
theorem Stream.code_grows {x : Stream} (c : Code) (hp : x.pend.length ≤ 2) (hw : x.n.toNat + 1 < 2 ^ 32) :
    Stream.Grows 1 x (x.code c) := by
  obtain ⟨p, m, n⟩ := x
  rcases p with _ | ⟨a, _ | ⟨b, _ | ⟨d, p⟩⟩⟩
  · exact ⟨by simp [Stream.code], by simp [Stream.code, Stream.weight], le_refl _, fun _ _ => rfl, id⟩
  · exact ⟨by simp [Stream.code], by simp [Stream.code, Stream.weight, Nat.add_assoc], le_refl _, fun _ _ => rfl, id⟩
  · have hn : (n + 1).toNat = n.toNat + 1 := count_toNat_succ hw
    refine ⟨Nat.zero_le _, ?_, ?_, fun a ha => ?_, fun h => Memory.wf_write _ n.isLt h⟩
    · show (n + 1).toNat + 0 ≤ n.toNat + 2 + 1
      omega
    · show n.toNat ≤ (n + 1).toNat
      omega
    · exact Memory.read?_write_other _ _ (Nat.ne_of_lt ha)
  · simp only [List.length_cons] at hp
    omega

/-- A list of codes: each counts for at most one. -/
theorem Stream.codes_grows {x : Stream} (cs : List Code) (hp : x.pend.length ≤ 2)
    (hw : x.weight + cs.length < 2 ^ 32) : Stream.Grows cs.length x (cs.foldl Stream.code x) := by
  induction cs generalizing x with
  | nil => exact .refl hp
  | cons c cs ih =>
    simp only [List.length_cons] at hw ⊢
    have h1 := Stream.code_grows c hp (by have : x.n.toNat ≤ x.weight := Nat.le_add_right _ _; omega)
    have h2 := ih h1.pend (by have := h1.weight; omega)
    rw [Nat.add_comm]
    exact h1.trans h2

/-- Packing: the pending codes become at most one word. -/
theorem Stream.pack_grows {x : Stream} (hp : x.pend.length ≤ 2) (hw : x.weight < 2 ^ 32) :
    Stream.Grows 0 x x.pack := by
  obtain ⟨p, m, n⟩ := x
  have hw : n.toNat + p.length < 2 ^ 32 := hw
  rcases p with _ | ⟨a, _ | ⟨b, p⟩⟩
  · exact .refl hp
  · have hn : (n + 1).toNat = n.toNat + 1 := count_toNat_succ (by simp only [List.length_cons] at hw; omega)
    refine ⟨Nat.zero_le _, ?_, ?_, fun a ha => Memory.read?_write_other _ _ (Nat.ne_of_lt ha),
      fun h => Memory.wf_write _ n.isLt h⟩
    · show (n + 1).toNat + 0 ≤ n.toNat + 1 + 0
      omega
    · show n.toNat ≤ (n + 1).toNat
      omega
  · have hn : (n + 1).toNat = n.toNat + 1 := count_toNat_succ (by simp only [List.length_cons] at hw; omega)
    refine ⟨Nat.zero_le _, ?_, ?_, fun a ha => Memory.read?_write_other _ _ (Nat.ne_of_lt ha),
      fun h => Memory.wf_write _ n.isLt h⟩
    · show (n + 1).toNat + 0 ≤ n.toNat + (p.length + 2) + 0
      omega
    · show n.toNat ≤ (n + 1).toNat
      omega

/-- One more word. -/
theorem Stream.append_grows {x : Stream} (w : Word) (hp : x.pend.length ≤ 2) (hw : x.n.toNat + 1 < 2 ^ 32) :
    Stream.Grows 1 x (x.append w) := by
  have hn := Stream.append_count w hw
  refine ⟨hp, ?_, ?_, fun a ha => Memory.read?_write_other _ _ (Nat.ne_of_lt ha),
    fun h => Memory.wf_write _ x.n.isLt h⟩
  · show (x.append w).n.toNat + x.pend.length ≤ x.n.toNat + x.pend.length + 1
    omega
  · omega

/-- A run in flight has at most as many codes as samples. -/
theorem Enc.length_runInFlight_le (e : Enc) : e.runInFlight.length ≤ e.run.toNat := by
  unfold Enc.runInFlight
  split
  · simp
  · rename_i h
    rw [runCodes, List.length_map]
    exact length_runDigitsFuel_le 11 _ fun h0 => h (BitVec.eq_of_toNat_eq (by simpa using h0))

/-- Flushing the run: the codes of the run are paid for by its samples. -/
theorem Enc.flushed_grows {e : Enc} (hp : e.pend.length ≤ 2) (hw : e.stream.weight + e.run.toNat < 2 ^ 32) :
    Stream.Grows e.run.toNat e.stream e.flushed := by
  have hl := e.length_runInFlight_le
  have h := Stream.codes_grows (x := e.stream) e.runInFlight hp (by omega)
  have hw' := h.weight
  refine ⟨h.pend, ?_, h.count, h.cells, h.wf⟩
  show (e.runInFlight.foldl Stream.code e.stream).weight ≤ _
  omega

end Sys2Proof.Machine
end

