-- ==== Sys2Proof/Laws/Encoding.lean ====
section
/-!
SUPPORT. The two word formats bit by bit (30_encoding.md R81, R82), and the tag test decided over all 32 codes.
-/

namespace Sys2Proof

/-- `Raw.IsValid` is bit 15 of the word. -/
theorem rawIsValid_eq_bit (w : Word) : rawIsValid w = w.getLsbD 15 := by
  have h : w &&& 0x8000 = if w.getLsbD 15 then 0x8000#16 else 0#16 := by
    apply BitVec.eq_of_getLsbD_eq
    intro i hi
    rw [BitVec.getLsbD_and]
    interval_cases i <;> cases w.getLsbD 15 <;> simp
  unfold rawIsValid
  rw [h]
  cases w.getLsbD 15 <;> rfl

/-- The bits of a Raw word: the sentinel bit over the payload. -/
theorem rawWord_bit (v : BitVec 15) (i : Nat) :
    (rawWord (v.setWidth 16)).getLsbD i = (decide (i = 15) || v.getLsbD i) := by
  unfold rawWord
  by_cases hi : i < 16
  · interval_cases i <;> simp
  · rw [BitVec.getLsbD_of_ge _ i (by omega), BitVec.getLsbD_of_ge v i (by omega)]
    simp [show i ≠ 15 by omega]

/-- The bits of a Chunk word: the three codes, low to high; bit 15 is clear. -/
theorem pack3_bit (a b c : Code) (i : Nat) :
    (pack3 a b c).getLsbD i =
      if i < 5 then a.getLsbD i else if i < 10 then b.getLsbD (i - 5) else c.getLsbD (i - 10) := by
  unfold pack3
  by_cases hi : i < 15
  · interval_cases i <;> simp
  · simp only [BitVec.getLsbD_or, BitVec.getLsbD_shiftLeft, BitVec.getLsbD_setWidth]
    simp [BitVec.getLsbD_of_ge a i (by omega), BitVec.getLsbD_of_ge b (i - 5) (by omega),
      BitVec.getLsbD_of_ge c (i - 10) (by omega), show ¬ i < 5 by omega, show ¬ i < 10 by omega]

theorem rawIsValid_rawWord (v : BitVec 15) : rawIsValid (rawWord (v.setWidth 16)) = true := by
  rw [rawIsValid_eq_bit, rawWord_bit]
  rfl

theorem rawIsValid_pack3 (a b c : Code) : rawIsValid (pack3 a b c) = false := by
  rw [rawIsValid_eq_bit, pack3_bit]
  simp

/-- A bit of a word is a bit of its number under a one-bit mask. -/
theorem toNat_and_bit15 (w : Word) : w.toNat &&& 0x8000 = if w.getLsbD 15 then 0x8000 else 0 := by
  have h : (w &&& 0x8000).toNat = w.toNat &&& 0x8000 := rfl
  rw [← h, ← rawIsValid_eq_bit]
  unfold rawIsValid
  have hb : w &&& 0x8000 = 0 ∨ w &&& 0x8000 = 0x8000 := by
    have hv : w &&& 0x8000 = if w.getLsbD 15 then 0x8000#16 else 0#16 := by
      apply BitVec.eq_of_getLsbD_eq
      intro i hi
      rw [BitVec.getLsbD_and]
      interval_cases i <;> cases w.getLsbD 15 <;> simp
    rw [hv]
    cases w.getLsbD 15 <;> simp
  rcases hb with hb | hb <;> rw [hb] <;> rfl

end Sys2Proof
end

