-- ==== Sys2Proof/Laws/PerInstr.lean ====
section
/-!
SUPPORT. A statement about every instruction as syntax, one lemma per constructor: its encoding has the width and the fixed
bits that spec/opcode_table.json gives its row.
-/

namespace Sys2Proof.Laws.TableBits

open Sys2Proof

/-- The encoding has the row's width, fits in it, and agrees with the row's match under the row's mask. -/
def Statement (i : Instr) : Prop :=
  (encode i).width = (tableRow i).width ∧ (encode i).toNat < 2 ^ (tableRow i).width ∧
    (encode i).toNat &&& (tableRow i).mask = (tableRow i).mtch

theorem raw (v : BitVec 15) : Statement (.raw v) := by
  refine ⟨rfl, BitVec.isLt _, ?_⟩
  show (rawWord (v.setWidth 16)).toNat &&& 0x8000 = 0x8000
  rw [toNat_and_bit15, rawWord_bit]
  rfl

theorem chunk (a b c : Code) : Statement (.chunk a b c) := by
  refine ⟨rfl, BitVec.isLt _, ?_⟩
  show (pack3 a b c).toNat &&& 0x8000 = 0
  rw [toNat_and_bit15, pack3_bit]
  simp

theorem run (n : Digit) : Statement (.run n) := by
  revert n
  unfold Statement
  decide

theorem cacheA (h : BitVec 3) : Statement (.cacheA h) := by
  revert h
  unfold Statement
  decide

theorem deltaA (p : BitVec 4) : Statement (.deltaA p) := by
  revert p
  unfold Statement
  decide

theorem deltaB (p : BitVec 3) : Statement (.deltaB p) := by
  revert p
  unfold Statement
  decide

theorem cacheB (h : BitVec 4) : Statement (.cacheB h) := by
  revert h
  unfold Statement
  decide

theorem pad : Statement .pad := by
  unfold Statement
  decide

end Sys2Proof.Laws.TableBits
end

