-- ==== Sys2Proof/Laws/Symbols.lean ====
section
/-!
SUPPORT. What a symbol that stands for one sample leaves behind when it runs: the lemmas the result statements of RAW,
DELTA and CACHE go through.
-/

namespace Sys2Proof.Machine

open Sys2Proof

/-- A Word within the 16 bits of an integer is that integer. -/
@[simp] theorem ofInt_toNat_word (w : Word) : BitVec.ofInt 16 (w.toNat : Int) = w := by
  rw [BitVec.ofInt_natCast, BitVec.ofNat_toNat, BitVec.setWidth_eq]

/-- The state a successful resolution leaves. -/
def Dec.afterRun (d : Dec) : Dec :=
  { d with acc := [], toEngine := Engine.outAppendN (precSet d.prec d.prev) (runLength d.acc) d.toEngine }

theorem Dec.resolve_of_resolves {d : Dec} (h : d.RunResolves) : d.resolve = .ok d.afterRun :=
  Dec.resolve_eq_ok.mpr ⟨fun hn => ⟨h.prev hn, h.room hn⟩, rfl⟩

theorem Dec.HasRoom.resolves {d : Dec} (h : d.HasRoom) : d.RunResolves :=
  ⟨h.prev, fun _ => by have := h.room; omega⟩

/-- What the resolution does, cell by cell. -/
theorem Dec.afterRun_resolved {d : Dec} (h : d.outn.toNat + runLength d.acc < 2 ^ 32) : d.Resolved d.afterRun where
  prev := by simp [Dec.afterRun]
  cache := by simp [Dec.afterRun]
  acc := rfl
  outn := by
    simp only [Dec.afterRun, Engine.outAppendN_outn, BitVec.toNat_add, BitVec.toNat_ofNat]
    omega
  runCells k hk := by
    rw [Dec.afterRun, Engine.outAppendN_read? _ _ _ h, if_pos (by omega)]
  otherCells a ha := by
    rw [Dec.afterRun, Engine.outAppendN_read? _ _ _ h, if_neg (by omega)]
  sameRun := by
    constructor <;> simp [Dec.afterRun]

/-- The output count after a resolution is full exactly when the run filled it. -/
theorem Dec.afterRun_full {d : Dec} (h : d.RunResolves) :
    d.afterRun.outn = d.afterRun.expected ↔ d.outn.toNat + runLength d.acc = d.expected.toNat := by
  have ho : d.afterRun.outn.toNat = d.outn.toNat + runLength d.acc := by
    simp only [Dec.afterRun, Engine.outAppendN_outn, BitVec.toNat_add, BitVec.toNat_ofNat]
    by_cases hn : runLength d.acc = 0
    · rw [hn]
      exact Nat.mod_eq_of_lt d.outn.isLt
    · have := h.room hn
      omega
  have he : d.afterRun.expected = d.expected := rfl
  constructor
  · intro h'
    rw [← ho, h', he]
  · intro h'
    exact BitVec.eq_of_toNat_eq (by rw [ho, he, h'])

/-- With room for the run and one sample more, a symbol whose sample is the WorkingSample `w` runs: it emits `w` after
the run and leaves the rest of the decoder alone. -/
theorem Dec.resolveEmit_emitted {d : Dec} {cur : Dec → Except FaultCode Int} {w : Word} (h : d.HasRoom)
    (hcur : cur d.afterRun = .ok w.toNat) (hw : w.toNat ≤ maxWorking d.prec) :
    ∃ d', d.resolveEmit cur = .ok d' ∧ d.Emitted d' w ∧ d'.rptr = d.rptr ∧ d'.q = d.q ∧ d'.cache = d.cache := by
  have hroom := h.room
  have hlt : d.outn.toNat + runLength d.acc < 2 ^ 32 := by omega
  have hr := Dec.afterRun_resolved hlt
  have hne : d.afterRun.outn ≠ d.afterRun.expected := by
    rw [Ne, Dec.afterRun_full h.resolves]
    omega
  have hprec : d.afterRun.prec = d.prec := hr.sameRun.prec
  refine ⟨_, Dec.resolveEmit_eq_ok.mpr ⟨d.afterRun, w.toNat, Dec.resolve_of_resolves h.resolves, hcur,
    Dec.emit_eq_ok.mpr ⟨by omega, by rw [hprec]; exact_mod_cast hw, hne, rfl⟩⟩, ?_, rfl, rfl, hr.cache⟩
  have hout : (d.afterRun.outn + 1).toNat = d.outn.toNat + runLength d.acc + 1 := by
    rw [count_toNat_succ (by rw [hr.outn]; omega), hr.outn]
  constructor
  · simp
  · rfl
  · exact hout
  · intro k hk
    simp only [Engine.setPrev_outBuf, Engine.outAppend_outBuf, hr.outn]
    rw [Memory.read?_write_other _ _ (by omega), hr.runCells k hk]
  · simp only [Engine.setPrev_outBuf, Engine.outAppend_outBuf, hr.outn, Memory.read?_write_same, ofInt_toNat_word, hprec]
  · intro a ha
    simp only [Engine.setPrev_outBuf, Engine.outAppend_outBuf, hr.outn]
    rw [Memory.read?_write_other _ _ (by omega), hr.otherCells a (by omega)]
  · simp [Dec.afterRun]
  · simp [Dec.afterRun]
  · constructor <;> simp [Dec.afterRun]

/-- The same symbols with a full output, a sample out of range, or a sample that faults: the code, once the run is
resolved. -/
theorem Dec.resolveEmit_fault_range {d : Dec} {cur : Dec → Except FaultCode Int} {x : Int} (h : d.RunResolves)
    (hcur : cur d.afterRun = .ok x) (hx : x < 0 ∨ (maxWorking d.prec : Int) < x) :
    d.resolveEmit cur = .error .decSampleRange := by
  refine Dec.resolveEmit_eq_error.mpr (.inr ⟨_, Dec.resolve_of_resolves h, .inr ⟨x, hcur, ?_⟩⟩)
  have hprec : d.afterRun.prec = d.prec := by simp [Dec.afterRun]
  exact Dec.emit_eq_error.mpr (.inl ⟨by rw [hprec]; exact hx, rfl⟩)

theorem Dec.resolveEmit_fault_room {d : Dec} {cur : Dec → Except FaultCode Int} {x : Int} (h : d.RunResolves)
    (hcur : cur d.afterRun = .ok x) (h0 : 0 ≤ x) (hx : x ≤ maxWorking d.prec)
    (hfull : d.outn.toNat + runLength d.acc = d.expected.toNat) :
    d.resolveEmit cur = .error .decExcessOutput := by
  refine Dec.resolveEmit_eq_error.mpr (.inr ⟨_, Dec.resolve_of_resolves h, .inr ⟨x, hcur, ?_⟩⟩)
  have hprec : d.afterRun.prec = d.prec := by simp [Dec.afterRun]
  exact Dec.emit_eq_error.mpr (.inr ⟨⟨h0, by rw [hprec]; exact hx⟩, (Dec.afterRun_full h).mpr hfull, rfl⟩)

theorem Dec.resolveEmit_fault_sample {d : Dec} {cur : Dec → Except FaultCode Int} {f : FaultCode} (h : d.RunResolves)
    (hcur : cur d.afterRun = .error f) : d.resolveEmit cur = .error f :=
  Dec.resolveEmit_eq_error.mpr (.inr ⟨_, Dec.resolve_of_resolves h, .inl hcur⟩)

/-- Whatever the symbol, a successful one keeps the parameters of the run, the input, the cache, and the cells of `OUT`
below the old `OUTN`. -/
theorem Dec.resolveEmit_frame {d d' : Dec} {cur : Dec → Except FaultCode Int} (h : d.resolveEmit cur = .ok d') :
    d.SameRun d' ∧ d'.cache = d.cache ∧ d'.phase = d.phase ∧ d'.fault = d.fault ∧
      ∀ a, a < d.outn.toNat → d'.outBuf.read? a = d.outBuf.read? a := by
  obtain ⟨d1, x, hr, -, he⟩ := Dec.resolveEmit_eq_ok.mp h
  obtain ⟨hres, rfl⟩ := Dec.resolve_eq_ok.mp hr
  obtain ⟨-, -, hne, rfl⟩ := Dec.emit_eq_ok.mp he
  refine ⟨by constructor <;> simp, by simp, by simp, by simp, fun a ha => ?_⟩
  have hlt : d.outn.toNat + runLength d.acc < 2 ^ 32 := by
    by_cases hn : runLength d.acc = 0
    · rw [hn]
      exact d.outn.isLt
    · have := (hres hn).2
      omega
  have hr := Dec.afterRun_resolved hlt
  have hn : (Engine.outAppendN (precSet d.prec d.prev) (runLength d.acc) d.toEngine).outn.toNat =
      d.outn.toNat + runLength d.acc := hr.outn
  simp only [Engine.setPrev_outBuf, Engine.outAppend_outBuf, hn]
  rw [Memory.read?_write_other _ _ (by omega)]
  exact hr.otherCells a (by omega)

/-- Every cell of `OUT` after a successful symbol, by what the symbol computed and not by what `OUT` held: the run's copies,
then the sample, all else as before. -/
theorem Dec.resolveEmit_cells {d d' : Dec} {cur : Dec → Except FaultCode Int} (h : d.resolveEmit cur = .ok d')
    (hle : d.outn.toNat ≤ d.expected.toNat) :
    d'.outn.toNat = d.outn.toNat + runLength d.acc + 1 ∧
      ∀ a, d'.outBuf.read? a =
        if a < d.outn.toNat ∨ d.outn.toNat + runLength d.acc + 1 ≤ a then d.outBuf.read? a
        else if a < d.outn.toNat + runLength d.acc then some (precSet d.prec d.prev)
        else some (precSet d.prec d'.prev) := by
  obtain ⟨d1, x, hr, -, he⟩ := Dec.resolveEmit_eq_ok.mp h
  obtain ⟨hres, rfl⟩ := Dec.resolve_eq_ok.mp hr
  obtain ⟨-, -, hne, rfl⟩ := Dec.emit_eq_ok.mp he
  have hroom : d.outn.toNat + runLength d.acc ≤ d.expected.toNat := by
    by_cases hn : runLength d.acc = 0
    · omega
    · exact (hres hn).2
  have hlt : d.outn.toNat + runLength d.acc < 2 ^ 32 := by omega
  have hr := Dec.afterRun_resolved hlt
  have hn : (Engine.outAppendN (precSet d.prec d.prev) (runLength d.acc) d.toEngine).outn.toNat =
      d.outn.toNat + runLength d.acc := hr.outn
  have hfull : d.outn.toNat + runLength d.acc ≠ d.expected.toNat := fun h' =>
    hne ((Dec.afterRun_full ⟨fun h0 => (hres h0).1, fun _ => hroom⟩).mpr h')
  refine ⟨?_, fun a => ?_⟩
  · rw [Engine.setPrev_outn, Engine.outAppend_outn]
    rw [count_toNat_succ (by rw [hn]; omega), hn]
  · simp only [Engine.setPrev_outBuf, Engine.outAppend_outBuf, Engine.setPrev_prev, Engine.outAppendN_prec, hn,
      Memory.read?_write]
    rw [Engine.outAppendN_read? _ _ _ hlt]
    split_ifs <;> first | rfl | omega

/-! ### The decoder by itself -/

/-- What a symbol makes of the decoder: exec sees of the machine only the decoder. -/
def Dec.runSymbol (i : Instr) (d : Dec) : Except FaultCode Dec :=
  match i with
  | .raw v =>
    match d.nextWord.resolveEmit (fun _ => .ok v.toNat) with
    | .error f => .error f
    | .ok d' => .ok (d'.insert (v.setWidth 16))
  | .chunk a b c => .ok (d.nextWord.fillQueue a b c)
  | .run n => .ok (d.popCode.pushDigit n)
  | .cacheA h => d.popCode.resolveEmit (cacheSample (h.setWidth 4))
  | .deltaA p => d.popCode.resolveEmit (deltaSample (maxv .a) p.toNat)
  | .deltaB p => d.popCode.resolveEmit (deltaSample (maxv .b) p.toNat)
  | .cacheB h => d.popCode.resolveEmit (cacheSample h)
  | .pad => .ok (d.popCode.pushDigit 0)

/-- Every meaning is what its symbol makes of the decoder. -/
theorem exec_eq_settle (i : Instr) (s : State) : exec i s = s.settle (s.dec.runSymbol i) := by
  cases i <;> rfl

/-- The next state exec answers. -/
theorem exec_eq_next {i : Instr} {s t : State} :
    exec i s = .next t ↔ t = { s with dec := s.dec.settle (s.dec.runSymbol i) } := by
  rw [exec_eq_settle, State.settle]
  constructor
  · intro h
    cases h
    rfl
  · rintro rfl
    rfl

/-- One step of the decoder by itself (47_decoder_fsm.md R221, R230). -/
def Dec.step (d : Dec) : Dec :=
  match d.fetch with
  | some y => d.settle (d.runSymbol (decode d.cfgSel y))
  | none => d.settle d.final

/-- A decoder step of the machine is a step of its decoder. -/
theorem stepDec_eq (s : State) : stepDec s = .next { s with dec := s.dec.step } := by
  unfold stepDec Dec.step
  cases h : s.dec.fetch with
  | none => rfl
  | some y => exact exec_eq_settle _ s

end Sys2Proof.Machine
end

