-- ==== Sys2Proof/Laws/Runs.lean ====
section
/-!
SUPPORT. Runs of one engine as an iteration of its step, and what an encoder step does to the control registers.
-/

namespace Sys2Proof.Machine

open Sys2Proof

/-- What a move of its engine makes of the encoder: a step while BUSY, nothing else (60_exceptions.md R269). -/
def Enc.advance (e : Enc) : Enc :=
  if e.phase = .busy then e.step else e

/-- The same for the decoder. -/
def Dec.advance (d : Dec) : Dec :=
  if d.phase = .busy then d.step else d

theorem stepEngine_enc (s : State) : stepEngine .enc s = .next { s with enc := s.enc.advance } := by
  unfold stepEngine State.isBusy Enc.advance
  by_cases h : s.enc.phase = .busy <;> simp [h]

theorem stepEngine_dec (s : State) : stepEngine .dec s = .next { s with dec := s.dec.advance } := by
  unfold stepEngine State.isBusy Dec.advance
  by_cases h : s.dec.phase = .busy <;> simp [h, stepDec_eq]

/-- `k` steps of the encoder alone. -/
theorem State.runEngine_enc (k : Nat) (s : State) :
    s.runEngine .enc k = .next { s with agenda := [], enc := Enc.advance^[k] s.enc } := by
  unfold State.runEngine
  induction k generalizing s with
  | zero => rfl
  | succ k ih =>
    have h : step { s with agenda := List.replicate (k + 1) (.engine .enc) } =
        .next { s with agenda := List.replicate k (.engine .enc), enc := s.enc.advance } := stepEngine_enc _
    simp only [State.run, h]
    exact ih { s with enc := s.enc.advance }

/-- `k` steps of the decoder alone. -/
theorem State.runEngine_dec (k : Nat) (s : State) :
    s.runEngine .dec k = .next { s with agenda := [], dec := Dec.advance^[k] s.dec } := by
  unfold State.runEngine
  induction k generalizing s with
  | zero => rfl
  | succ k ih =>
    have h : step { s with agenda := List.replicate (k + 1) (.engine .dec) } =
        .next { s with agenda := List.replicate k (.engine .dec), dec := s.dec.advance } := stepEngine_dec _
    simp only [State.run, h]
    exact ih { s with dec := s.dec.advance }

/-- An engine whose run is over stays as it is. -/
theorem Dec.advance_iterate_of_not_busy {d : Dec} (h : d.phase ≠ .busy) (k : Nat) : Dec.advance^[k] d = d := by
  induction k with
  | zero => rfl
  | succ k ih => rw [Function.iterate_succ_apply, show d.advance = d by simp [Dec.advance, h], ih]

/-- The parameters and the input of an encoder's run are those before. -/
structure Enc.SameRun (e e' : Enc) : Prop where
  prec : e'.prec = e.prec
  hashShift : e'.hashShift = e.hashShift
  cfgSel : e'.cfgSel = e.cfgSel
  count : e'.count = e.count
  inBuf : e'.inBuf = e.inBuf
  fault : e'.fault = e.fault

/-- An encoder step keeps the parameters of its run. -/
theorem Enc.step_sameRun (e : Enc) : e.SameRun e.step := by
  rcases e.step_cases with ⟨-, -, h⟩ | ⟨-, -, -, h⟩ | ⟨-, -, -, -, h⟩ | ⟨-, -, -, -, h⟩ | ⟨-, h⟩ <;>
  · rw [h]
    exact ⟨rfl, rfl, rfl, rfl, rfl, rfl⟩

/-- A sample step takes the next sample and stays BUSY; the final step ends the run. -/
theorem Enc.step_control (e : Enc) :
    (e.idx < e.count → e.step.phase = e.phase ∧ e.step.idx = e.idx + 1) ∧
    (¬ e.idx < e.count → e.step.phase = .done ∧ e.step.idx = e.idx) := by
  rcases e.step_cases with ⟨hi, -, h⟩ | ⟨hi, -, -, h⟩ | ⟨hi, -, -, -, h⟩ | ⟨hi, -, -, -, h⟩ | ⟨hi, h⟩ <;> rw [h]
  iterate 4 exact ⟨fun _ => ⟨rfl, rfl⟩, fun hn => absurd hi hn⟩
  exact ⟨fun hn => absurd hn hi, fun _ => ⟨rfl, rfl⟩⟩

end Sys2Proof.Machine
end

