-- ==== Sys2Proof/Laws/Replay.lean ====
section
/-!
SUPPORT. What a stream means: a decoder without buffers and counters (`Replay`), the decoder's steps as a refinement of it,
and the encoder's writing as additions to what its stream means.
-/

namespace Sys2Proof.Machine

open Sys2Proof

/-- What a decoder is about, without its buffers and counters: the samples restored so far stand in a list. -/
structure Replay where
  prev : Word
  cache : Vector Word 16
  acc : List Digit
  out : List Word

/-- The parameters of a run. -/
structure Params where
  prec : BitVec 4
  hashShift : BitVec 4
  cfgSel : CfgSel

/-- `CACHE[i]`. -/
def Replay.slot (a : Replay) (i : BitVec 4) : Word := a.cache[i.toNat]'(i.isLt)

/-- `Resolve`, without the bound of the output (47_decoder_fsm.md R229). -/
def Replay.resolve (a : Replay) : Option Replay :=
  if runLength a.acc = 0 then some { a with acc := [] }
  else if a.prev = sentinel then none
  else some { a with acc := [], out := a.out ++ List.replicate (runLength a.acc) a.prev }

/-- `Emit`, without the bound of the output (47_decoder_fsm.md R228). -/
def Replay.emit (p : Params) (x : Int) (a : Replay) : Option Replay :=
  if x < 0 ∨ (maxWorking p.prec : Int) < x then none
  else some { a with prev := BitVec.ofInt 16 x, out := a.out ++ [BitVec.ofInt 16 x] }

/-- A symbol that stands for one sample. -/
def Replay.resolveEmit (p : Params) (cur : Replay → Option Int) (a : Replay) : Option Replay :=
  a.resolve.bind fun a1 => (cur a1).bind fun x => a1.emit p x

/-- The sample of a DELTA code. -/
def Replay.deltaSample (m q : Nat) (a : Replay) : Option Int :=
  if a.prev = sentinel then none else some (deltaDecode m q a.prev)

/-- The sample of a CACHE code. -/
def Replay.cacheSample (h : BitVec 4) (a : Replay) : Option Int :=
  if a.slot h = sentinel then none else some (a.slot h).toNat

/-- `CACHE[Hash(v)] <- v`. -/
def Replay.insert (p : Params) (v : Word) (a : Replay) : Replay :=
  { a with cache := a.cache.set (hashSlot p.cfgSel p.hashShift v).toNat v (hashSlot p.cfgSel p.hashShift v).isLt }

/-- What a symbol does; a Chunk word is taken apart by `Replay.word`. -/
def Replay.symbol (p : Params) : Instr → Replay → Option Replay
  | .raw v, a => (a.resolveEmit p (fun _ => some v.toNat)).map (Replay.insert p (v.setWidth 16))
  | .chunk _ _ _, _ => none
  | .run n, a => some { a with acc := a.acc ++ [n] }
  | .pad, a => some { a with acc := a.acc ++ [0] }
  | .cacheA h, a => a.resolveEmit p (Replay.cacheSample (h.setWidth 4))
  | .cacheB h, a => a.resolveEmit p (Replay.cacheSample h)
  | .deltaA q, a => a.resolveEmit p (Replay.deltaSample (maxv .a) q.toNat)
  | .deltaB q, a => a.resolveEmit p (Replay.deltaSample (maxv .b) q.toNat)

/-- What a code does. -/
def Replay.code (p : Params) (a : Replay) (c : Code) : Option Replay :=
  a.symbol p (decodeCode p.cfgSel c)

/-- What a word does: a Chunk word is its three codes. -/
def Replay.word (p : Params) (a : Replay) (w : Word) : Option Replay :=
  match decodeWord w with
  | .chunk x y z => (a.code p x).bind fun a => (a.code p y).bind fun a => a.code p z
  | i => a.symbol p i

/-- The decoder `d` stands where the replay `a` stands. -/
structure Shows (p : Params) (d : Dec) (a : Replay) : Prop where
  prec : d.prec = p.prec
  hashShift : d.hashShift = p.hashShift
  cfgSel : d.cfgSel = p.cfgSel
  prev : d.prev = a.prev
  cache : d.cache = a.cache
  acc : d.acc = a.acc
  outn : d.outn.toNat = a.out.length
  cells : ∀ i (h : i < a.out.length), d.outBuf.read? i = some (precSet p.prec a.out[i])

/-- Phase, position and bounds are those before. -/
structure SameControl (d d' : Dec) : Prop where
  phase : d'.phase = d.phase
  fault : d'.fault = d.fault
  q : d'.q = d.q
  rptr : d'.rptr = d.rptr
  pcount : d'.pcount = d.pcount
  expected : d'.expected = d.expected
  inBuf : d'.inBuf = d.inBuf

theorem SameControl.trans {a b c : Dec} (h : SameControl a b) (g : SameControl b c) : SameControl a c :=
  ⟨g.1.trans h.1, g.2.trans h.2, g.3.trans h.3, g.4.trans h.4, g.5.trans h.5, g.6.trans h.6, g.7.trans h.7⟩

/-- `Resolve` follows the replay while the output has room. -/
theorem Shows.resolve {p : Params} {d : Dec} {a a' : Replay} (h : Shows p d a) (hr : a.resolve = some a') (hl : a'.out.length ≤ d.expected.toNat) :
    ∃ d', d.resolve = .ok d' ∧ Shows p d' a' ∧ SameControl d d' := by
  have hacc := h.acc
  have hlt := d.expected.isLt
  unfold Replay.resolve at hr
  by_cases h0 : runLength a.acc = 0
  · rw [if_pos h0] at hr; cases hr
    refine ⟨{ d with acc := [] }, by rw [Dec.resolve, hacc, if_pos h0], ⟨h.1, h.2, h.3, h.4, h.5, rfl, h.7, h.8⟩, ⟨rfl, rfl, rfl, rfl, rfl, rfl, rfl⟩⟩
  · rw [if_neg h0] at hr
    split at hr
    · cases hr
    · rename_i hp
      cases hr
      simp only [List.length_append, List.length_replicate] at hl
      have ho := h.outn
      have hres : d.RunResolves := ⟨fun _ => by rw [h.prev]; exact hp, fun _ => by rw [hacc]; omega⟩
      have hR := Dec.afterRun_resolved (d := d) (by rw [hacc]; omega)
      refine ⟨_, Dec.resolve_of_resolves hres, ⟨hR.sameRun.prec.trans h.1, hR.sameRun.hashShift.trans h.2, hR.sameRun.cfgSel.trans h.3, hR.prev.trans h.4, hR.cache.trans h.5, rfl, ?_, ?_⟩, ⟨by simp [Dec.afterRun], by simp [Dec.afterRun], rfl, rfl, rfl, rfl, hR.sameRun.inBuf⟩⟩
      · rw [hR.outn, hacc, ho]; simp
      · intro i hi
        simp only [List.length_append, List.length_replicate] at hi
        by_cases hh : i < a.out.length
        · rw [hR.otherCells i (.inl (by omega)), h.cells i hh, List.getElem_append_left hh]
        · have := hR.runCells (i - a.out.length) (by rw [hacc]; omega)
          rw [ho, show a.out.length + (i - a.out.length) = i by omega, h.prec, h.prev] at this
          rw [this, List.getElem_append_right (by omega)]; simp

/-- `Emit` follows the replay while the output has room. -/
theorem Shows.emit {p : Params} {d : Dec} {a a' : Replay} {x : Int} (h : Shows p d a) (hr : a.emit p x = some a') (hl : a'.out.length ≤ d.expected.toNat) :
    ∃ d', d.emit x = .ok d' ∧ Shows p d' a' ∧ SameControl d d' := by
  unfold Replay.emit at hr
  split at hr
  · cases hr
  · rename_i hx
    cases hr
    simp only [List.length_append, List.length_singleton] at hl
    have hlt := d.expected.isLt
    have ho := h.outn
    have hne : d.outn ≠ d.expected := fun e => by rw [← e] at hl; omega
    have hp := h.prec
    refine ⟨_, Dec.emit_eq_ok.mpr ⟨by omega, by rw [hp]; omega, hne, rfl⟩, ⟨by simp [hp], by simp [h.hashShift], by simp [h.cfgSel], rfl, by simp [h.cache], h.acc, ?_, ?_⟩, ⟨by simp, by simp, rfl, rfl, rfl, rfl, by simp⟩⟩
    · show (d.outn + 1).toNat = _
      rw [count_toNat_succ (by omega), ho]; simp
    · intro i hi
      simp only [List.length_append, List.length_singleton] at hi
      show (d.outBuf.write d.outn.toNat _).read? i = _
      by_cases hh : i < a.out.length
      · rw [Memory.read?_write_other _ _ (by omega), h.cells i hh, List.getElem_append_left hh]
      · obtain rfl : i = d.outn.toNat := by omega
        rw [Memory.read?_write_same, hp]
        simp [ho]

/-- The list of samples only grows. -/
theorem Replay.length_resolve {a a' : Replay} (h : a.resolve = some a') : a.out.length ≤ a'.out.length := by
  unfold Replay.resolve at h
  split at h
  · cases h; simp
  · split at h
    · cases h
    · cases h; simp

theorem Replay.length_emit {p x} {a a' : Replay} (h : a.emit p x = some a') : a.out.length ≤ a'.out.length := by
  unfold Replay.emit at h; split at h <;> cases h; simp

theorem Replay.length_resolveEmit {p cur} {a a' : Replay} (h : a.resolveEmit p cur = some a') :
    a.out.length ≤ a'.out.length := by
  unfold Replay.resolveEmit at h
  simp only [Option.bind_eq_some_iff] at h
  obtain ⟨a1, h1, x, h2, h3⟩ := h
  exact (Replay.length_resolve h1).trans (Replay.length_emit h3)

theorem Replay.length_symbol {p} {i : Instr} {a a' : Replay} (h : a.symbol p i = some a') :
    a.out.length ≤ a'.out.length := by
  cases i with
  | raw v =>
    simp only [Replay.symbol, Option.map_eq_some_iff] at h
    obtain ⟨b, h1, rfl⟩ := h
    have := Replay.length_resolveEmit h1
    exact this
  | chunk => cases h
  | run => cases h; simp
  | pad => cases h; simp
  | _ => exact Replay.length_resolveEmit h

/-- A symbol that stands for one sample follows the replay. -/
theorem Shows.resolveEmit {p : Params} {d : Dec} {a a' : Replay} {cur : Dec → Except FaultCode Int} {acur : Replay → Option Int}
    (hc : ∀ d a x, Shows p d a → acur a = some x → cur d = .ok x)
    (h : Shows p d a) (hr : a.resolveEmit p acur = some a') (hl : a'.out.length ≤ d.expected.toNat) :
    ∃ d', d.resolveEmit cur = .ok d' ∧ Shows p d' a' ∧ SameControl d d' := by
  unfold Replay.resolveEmit at hr
  simp only [Option.bind_eq_some_iff] at hr
  obtain ⟨a1, h1, x, h2, h3⟩ := hr
  obtain ⟨d1, g1, g2, g3⟩ := Shows.resolve h h1 ((Replay.length_emit h3).trans hl)
  obtain ⟨d2, k1, k2, k3⟩ := Shows.emit g2 h3 (by rw [g3.expected]; exact hl)
  exact ⟨d2, Dec.resolveEmit_eq_ok.mpr ⟨d1, x, g1, hc _ _ _ g2 h2, k1⟩, k2, g3.trans k3⟩

theorem Shows.slot {p : Params} {d : Dec} {a : Replay} (h : Shows p d a) (i) : d.toEngine.slot i = a.slot i := by
  simp [Engine.slot, Replay.slot, h.cache]

theorem Shows.deltaSample_eq {p : Params} (m q : Nat) : ∀ d a x, Shows p d a → Replay.deltaSample m q a = some x →
    deltaSample m q d = .ok x := by
  intro d a x h hx
  unfold Replay.deltaSample at hx
  unfold deltaSample
  rw [h.prev]
  split at hx
  · cases hx
  · cases hx; rw [if_neg ‹_›]

theorem Shows.cacheSample_eq {p : Params} (i) : ∀ d a x, Shows p d a → Replay.cacheSample i a = some x →
    cacheSample i d = .ok x := by
  intro d a x h hx
  unfold Replay.cacheSample at hx
  unfold cacheSample
  rw [Shows.slot h]
  split at hx
  · cases hx
  · cases hx; rw [if_neg ‹_›]

/-- A step on a pending code follows the replay. -/
theorem Shows.code {p : Params} {d : Dec} {a a' : Replay} {c : Code} {q} (h : Shows p d a) (hb : d.phase = .busy) (hq : d.q = c :: q)
    (hr : a.code p c = some a') (hl : a'.out.length ≤ d.expected.toNat) :
    ∃ d', Dec.advance d = d' ∧ Shows p d' a' ∧ SameControl d.popCode d' := by
  have hp : Shows p d.popCode a := ⟨h.1, h.2, h.3, h.4, h.5, h.6, h.7, h.8⟩
  have key : ∀ d', d.runSymbol (decodeCode d.cfgSel c) = .ok d' → Dec.advance d = d' := by
    intro d' h
    simp [Dec.advance, hb, Dec.step, Dec.fetch, hq, decode, h]
  unfold Replay.code at hr
  rw [← h.cfgSel] at hr
  have hrun : ∀ n : Digit, ∀ i, (i = .run n) → decodeCode d.cfgSel c = i → ∃ d', Dec.advance d = d' ∧ Shows p d' a' ∧
      SameControl d.popCode d' := by
    intro n i hi e
    subst hi
    rw [e] at hr; cases hr
    exact ⟨d.popCode.pushDigit n, key _ (by rw [e]; rfl), ⟨h.1, h.2, h.3, h.4, h.5, by show d.acc ++ [n] = _; rw [h.acc], h.7, h.8⟩, ⟨rfl, rfl, rfl, rfl, rfl, rfl, rfl⟩⟩
  have hre : ∀ {cur acur}, (∀ d a x, Shows p d a → acur a = some x → cur d = .ok x) → a.resolveEmit p acur = some a' →
      d.runSymbol (decodeCode d.cfgSel c) = d.popCode.resolveEmit cur → ∃ d', Dec.advance d = d' ∧ Shows p d' a' ∧
          SameControl d.popCode d' := by
    intro cur acur hc hr e
    obtain ⟨d', g1, g2, g3⟩ := Shows.resolveEmit hc hp hr hl
    exact ⟨d', key _ (e.trans g1), g2, g3⟩
  cases e : decodeCode d.cfgSel c with
  | raw v => 
    exfalso
    unfold decodeCode at e
    split at e
    · cases e
    · cases hs : d.cfgSel <;> rw [hs] at e <;> simp only at e <;> split at e <;> cases e
  | chunk x y z => rw [e] at hr; cases hr
  | run n => exact hrun n _ rfl e
  | pad =>
    exfalso
    unfold decodeCode at e
    split at e
    · cases e
    · cases hs : d.cfgSel <;> rw [hs] at e <;> simp only at e <;> split at e <;> cases e
  | cacheA k => rw [e] at hr; exact hre (Shows.cacheSample_eq _) hr (by rw [e]; rfl)
  | cacheB k => rw [e] at hr; exact hre (Shows.cacheSample_eq _) hr (by rw [e]; rfl)
  | deltaA k => rw [e] at hr; exact hre (Shows.deltaSample_eq _ _) hr (by rw [e]; rfl)
  | deltaB k => rw [e] at hr; exact hre (Shows.deltaSample_eq _ _) hr (by rw [e]; rfl)

theorem Shows.hash {p : Params} {d : Dec} {a : Replay} (h : Shows p d a) (v) :
    d.toEngine.hash v = hashSlot p.cfgSel p.hashShift v := by
  simp [Engine.hash, h.hashShift, h.cfgSel]

/-- At most four steps on a word, a Chunk word's codes included, follow the replay. -/
theorem Shows.word {p : Params} {d : Dec} {a a' : Replay} {w : Word} (h : Shows p d a) (hb : d.phase = .busy) (hq : d.q = [])
    (hlt : d.rptr < d.pcount) (hw : memRead .decIn d.inBuf d.rptr.toNat = w)
    (hr : a.word p w = some a') (hl : a'.out.length ≤ d.expected.toNat) :
    ∃ k ≤ 4, ∃ d', Dec.advance^[k] d = d' ∧ Shows p d' a' ∧ SameControl d.nextWord d' := by
  have hn : Shows p d.nextWord a := ⟨h.1, h.2, h.3, h.4, h.5, h.6, h.7, h.8⟩
  have key : Dec.advance d = d.settle (d.runSymbol (decodeWord w)) := by
    simp [Dec.advance, hb, Dec.step, Dec.fetch, hq, decode, hlt, hw]
  unfold Replay.word at hr
  cases e : decodeWord w with
  | chunk x y z =>
    rw [e] at hr key
    simp only [Option.bind_eq_some_iff] at hr
    obtain ⟨a1, h1, a2, h2, h3⟩ := hr
    have key : Dec.advance d = d.nextWord.fillQueue x y z := key
    set d0 := d.nextWord.fillQueue x y z with hd0
    have r0 : Shows p d0 a := ⟨h.1, h.2, h.3, h.4, h.5, h.6, h.7, h.8⟩
    obtain ⟨d1, g1, g2, g3⟩ := Shows.code (q := [y, z]) r0 hb rfl h1 (((Replay.length_symbol h2).trans
        (Replay.length_symbol h3)).trans hl)
    obtain ⟨d2, k1, k2, k3⟩ := Shows.code (q := [z]) g2 (g3.phase.trans hb) (g3.q) h2 (by rw [g3.expected]; exact (Replay.length_symbol h3).trans hl)
    obtain ⟨d3, m1, m2, m3⟩ := Shows.code (q := []) k2 (k3.phase.trans (g3.phase.trans hb)) (k3.q.trans (by rw [Dec.popCode_q, g3.q]; rfl)) h3 (by rw [k3.expected]; show _ ≤ d1.expected.toNat; rw [g3.expected]; exact hl)
    refine ⟨4, le_refl _, d3, ?_, m2, ?_⟩
    · show Dec.advance (Dec.advance (Dec.advance (Dec.advance d))) = d3
      rw [key, g1, k1, m1]
    · constructor
      · exact m3.phase.trans (k3.phase.trans g3.phase)
      · exact m3.fault.trans (k3.fault.trans g3.fault)
      · rw [m3.q, Dec.popCode_q, k3.q, Dec.popCode_q, g3.q]; simp [hd0, hq]
      · exact m3.rptr.trans (k3.rptr.trans g3.rptr)
      · exact m3.pcount.trans (k3.pcount.trans g3.pcount)
      · exact m3.expected.trans (k3.expected.trans g3.expected)
      · exact m3.inBuf.trans (k3.inBuf.trans g3.inBuf)
  | raw v =>
    rw [e] at hr key
    simp only [Replay.symbol, Option.map_eq_some_iff] at hr
    obtain ⟨b, h1, rfl⟩ := hr
    obtain ⟨d', g1, g2, g3⟩ := Shows.resolveEmit (cur := fun _ => .ok (v.toNat : Int)) (fun d a x _ hx => by cases hx; rfl) hn h1 hl
    refine ⟨1, by omega, d'.insert (v.setWidth 16), ?_, ⟨g2.1, g2.2, g2.3, g2.4, ?_, g2.6, g2.7, g2.8⟩, ⟨g3.1, g3.2, g3.3, g3.4, g3.5, g3.6, g3.7⟩⟩
    · show Dec.advance d = _
      rw [key]; simp only [Dec.runSymbol, g1]; rfl
    · show d'.cache.set (d'.toEngine.hash (v.setWidth 16)).toNat (v.setWidth 16) (d'.toEngine.hash
          (v.setWidth 16)).isLt = _
      simp only [Shows.hash g2, g2.cache]; rfl
  | _ =>
    exfalso; unfold decodeWord at e; split at e <;> cases e

/-- What a list of words does. -/
def Replay.words (p : Params) (a : Replay) (ws : List Word) : Option Replay := ws.foldlM (Replay.word p) a

/-- What a list of codes does. -/
def Replay.codes (p : Params) (a : Replay) (cs : List Code) : Option Replay := cs.foldlM (Replay.code p) a

theorem Replay.length_word {p} {w} {a a' : Replay} (h : a.word p w = some a') : a.out.length ≤ a'.out.length := by
  unfold Replay.word at h
  split at h
  · simp only [Option.bind_eq_some_iff] at h
    obtain ⟨a1, h1, a2, h2, h3⟩ := h
    exact ((Replay.length_symbol h1).trans (Replay.length_symbol h2)).trans (Replay.length_symbol h3)
  · exact Replay.length_symbol h

theorem Replay.words_cons {p} {a a' : Replay} {w ws} : Replay.words p a (w :: ws) = some a' ↔ ∃ b,
    a.word p w = some b ∧ b.words p ws = some a' := by
  simp [Replay.words, List.foldlM_cons, Option.bind_eq_some_iff]

theorem Replay.words_append {p} {a a' : Replay} {us ws} : Replay.words p a (us ++ ws) = some a' ↔ ∃ b,
    a.words p us = some b ∧ b.words p ws = some a' := by
  simp [Replay.words, List.foldlM_append, Option.bind_eq_some_iff]

theorem Replay.codes_append {p} {a a' : Replay} {us ws} : Replay.codes p a (us ++ ws) = some a' ↔ ∃ b,
    a.codes p us = some b ∧ b.codes p ws = some a' := by
  simp [Replay.codes, List.foldlM_append, Option.bind_eq_some_iff]

theorem Replay.codes_cons {p} {a a' : Replay} {w ws} : Replay.codes p a (w :: ws) = some a' ↔ ∃ b,
    a.code p w = some b ∧ b.codes p ws = some a' := by
  simp [Replay.codes, List.foldlM_cons, Option.bind_eq_some_iff]

theorem Replay.codes_nil {p} {a a' : Replay} : Replay.codes p a [] = some a' ↔ a = a' := by simp [Replay.codes]

theorem Replay.words_nil {p} {a a' : Replay} : Replay.words p a [] = some a' ↔ a = a' := by simp [Replay.words]

theorem Replay.length_words {p} {ws} {a a' : Replay} (h : a.words p ws = some a') : a.out.length ≤ a'.out.length := by
  induction ws generalizing a with
  | nil => rw [Replay.words_nil] at h; subst h; rfl
  | cons w ws ih => obtain ⟨b, h1, h2⟩ := Replay.words_cons.mp h; exact (Replay.length_word h1).trans (ih h2)

/-- The steps on a list of words follow the replay, at most four a word. -/
theorem Shows.words {p : Params} {ws : List Word} {d : Dec} {a a' : Replay} (h : Shows p d a) (hb : d.phase = .busy) (hq : d.q = [])
    (hlen : d.rptr.toNat + ws.length ≤ d.pcount.toNat)
    (hw : ∀ i (hi : i < ws.length), memRead .decIn d.inBuf (d.rptr.toNat + i) = ws[i])
    (hr : a.words p ws = some a') (hl : a'.out.length ≤ d.expected.toNat) :
    ∃ k ≤ 4 * ws.length, ∃ d', Dec.advance^[k] d = d' ∧ Shows p d' a' ∧ d'.phase = .busy ∧ d'.fault = d.fault ∧
        d'.q = [] ∧ d'.rptr.toNat = d.rptr.toNat + ws.length ∧ d'.pcount = d.pcount ∧ d'.expected = d.expected := by
  induction ws generalizing d a with
  | nil => rw [Replay.words_nil] at hr; subst hr; exact ⟨0, by simp, d, rfl, h, hb, rfl, hq, by simp, rfl, rfl⟩
  | cons w ws ih =>
    obtain ⟨b, h1, h2⟩ := Replay.words_cons.mp hr
    simp only [List.length_cons] at hlen
    have hc := d.pcount.isLt
    have hrp : (d.rptr + 1).toNat = d.rptr.toNat + 1 := count_toNat_succ (by omega)
    obtain ⟨k, hk, d1, g1, g2, g3⟩ := Shows.word h hb hq (by rw [BitVec.lt_def]; omega) (hw 0 (by simp)) h1 ((Replay.length_words h2).trans hl)
    have hr1 : d1.rptr.toNat = d.rptr.toNat + 1 := by rw [g3.rptr]; exact hrp
    have hp1 : d1.pcount = d.pcount := g3.pcount
    obtain ⟨k', hk', d2, m1, m2, m3, m4, m5, m6, m7, m8⟩ := ih g2 (g3.phase.trans hb) (g3.q.trans hq) (by rw [hr1, hp1]; omega) (by
      intro i hi
      have := hw (i + 1) (by simpa using hi)
      rw [show d1.inBuf = d.inBuf from g3.inBuf, hr1]
      rw [show d.rptr.toNat + 1 + i = d.rptr.toNat + (i + 1) by omega, this]; rfl) h2 (by rw [g3.expected]; exact hl)
    refine ⟨k' + k, by simp; omega, d2, ?_, m2, m3, m4.trans g3.fault, m5, ?_, m7.trans hp1, m8.trans g3.expected⟩
    · rw [Function.iterate_add_apply, g1, m1]
    · rw [m6, hr1]; simp; omega

/-- The state before any word. -/
def Replay.start : Replay := ⟨sentinel, Vector.replicate 16 sentinel, [], []⟩

/-- The words of a stream, and then its pending codes, replay to `a`. -/
def Stream.Means (p : Params) (x : Stream) (a : Replay) : Prop :=
  ∃ ws b, ws.length = x.n.toNat ∧ (∀ i (h : i < ws.length), x.out.read? i = some ws[i]) ∧
    Replay.words p Replay.start ws = some b ∧ Replay.codes p b x.pend = some a

/-- A packed word is read as its codes. -/
theorem decodeWord_pack3 (a b c : Code) : decodeWord (pack3 a b c) = .chunk a b c := by
  have := rawIsValid_pack3 a b c
  unfold decodeWord
  rw [this]
  simp only [Bool.false_eq_true, if_false]
  have h : unpack3 (pack3 a b c) = (a, b, c) := by
    simp only [unpack3]
    refine Prod.ext ?_ (Prod.ext ?_ ?_) <;>
    · apply BitVec.eq_of_getLsbD_eq
      intro i hi
      rw [BitVec.getLsbD_extractLsb', pack3_bit]
      have h0 := a.getLsbD_of_ge i
      interval_cases i <;> simp
  rw [h]

theorem Replay.word_pack3 {p} {b a : Replay} {x y z : Code} (h : b.codes p [x, y, z] = some a) : b.word p
    (pack3 x y z) = some a := by
  unfold Replay.word; rw [decodeWord_pack3]
  simpa [Replay.codes, List.foldlM_cons, Option.bind_eq_some_iff] using h

/-- One more word. -/
theorem Stream.Means.append {p} {x : Stream} {a : Replay} {w : Word} {b ws} (hn : x.n.toNat + 1 < 2 ^ 32)
    (h1 : ws.length = x.n.toNat) (h2 : ∀ i (h : i < ws.length), x.out.read? i = some ws[i]) (h3 :
        Replay.words p Replay.start ws = some b)
    (h4 : b.word p w = some a) : Stream.Means p { x.append w with pend := [] } a := by
  refine ⟨ws ++ [w], a, ?_, ?_, ?_, Replay.codes_nil.mpr rfl⟩
  · show _ = (x.n + 1).toNat; rw [count_toNat_succ hn]; simp [h1]
  · intro i hi
    simp only [List.length_append, List.length_singleton] at hi
    show (x.out.write x.n.toNat w).read? i = _
    by_cases hh : i < ws.length
    · rw [Memory.read?_write_other _ _ (by omega), h2 i hh, List.getElem_append_left hh]
    · obtain rfl : i = x.n.toNat := by omega
      rw [Memory.read?_write_same]; simp [← h1]
  · rw [Replay.words_append]; exact ⟨b, h3, Replay.words_cons.mpr ⟨a, h4, Replay.words_nil.mpr rfl⟩⟩

/-- `WriteCode` adds its code to what a stream means. -/
theorem Stream.Means.code {p} {x : Stream} {a a' : Replay} {c : Code} (h : Stream.Means p x a) (hp : x.pend.length ≤ 2) (hn : x.n.toNat + 1 < 2 ^ 32)
    (hc : a.code p c = some a') : Stream.Means p (x.code c) a' := by
  obtain ⟨ws, b, h1, h2, h3, h4⟩ := h
  have h5 : b.codes p (x.pend ++ [c]) = some a' := Replay.codes_append.mpr ⟨a, h4, Replay.codes_cons.mpr ⟨a', hc,
      Replay.codes_nil.mpr rfl⟩⟩
  obtain ⟨pd, m, n⟩ := x
  rcases pd with _ | ⟨u, _ | ⟨v, _ | ⟨_, _⟩⟩⟩
  · exact ⟨ws, b, h1, h2, h3, h5⟩
  · exact ⟨ws, b, h1, h2, h3, h5⟩
  · exact Stream.Means.append (x := ⟨[u, v], m, n⟩) hn h1 h2 h3 (Replay.word_pack3 h5)
  · simp only [List.length_cons] at hp; omega

/-- The same for a list of codes. -/
theorem Stream.Means.codes {p} {cs : List Code} {x : Stream} {a a' : Replay} (h : Stream.Means p x a) (hp : x.pend.length ≤ 2) (hn : x.weight + cs.length < 2 ^ 32)
    (hc : a.codes p cs = some a') : Stream.Means p (cs.foldl Stream.code x) a' := by
  induction cs generalizing x a with
  | nil => rw [Replay.codes_nil] at hc; subst hc; exact h
  | cons c cs ih =>
    obtain ⟨b, h1, h2⟩ := Replay.codes_cons.mp hc
    simp only [List.length_cons] at hn
    have hn' : x.n.toNat + 1 < 2 ^ 32 := by have : x.n.toNat ≤ x.weight := Nat.le_add_right _ _; omega
    have hg := Stream.code_grows c hp hn'
    exact ih (Stream.Means.code h hp hn' h1) hg.pend (by have := hg.weight; omega) h2

/-- The pad appends a zero digit (30_encoding.md R92). -/
theorem Replay.code_pad {p : Params} (a : Replay) : a.code p 0 = some { a with acc := a.acc ++ [0] } := by
  unfold Replay.code
  have : decodeCode p.cfgSel 0 = .run 0 := by cases p.cfgSel <;> decide
  rw [this]; rfl

/-- Packing adds nothing but pads to what a stream means (42_run_length.md R140). -/
theorem Stream.Means.pack {p} {x : Stream} {a : Replay} (h : Stream.Means p x a) (hp : x.pend.length ≤ 2) (hn : x.weight < 2 ^ 32) :
    ∃ k, Stream.Means p x.pack { a with acc := a.acc ++ List.replicate k 0 } := by
  obtain ⟨ws, b, h1, h2, h3, h4⟩ := h
  obtain ⟨pd, m, n⟩ := x
  have hn : n.toNat + pd.length < 2 ^ 32 := hn
  rcases pd with _ | ⟨u, _ | ⟨v, _ | ⟨_, _⟩⟩⟩
  · refine ⟨0, ws, b, h1, h2, h3, ?_⟩
    rw [show ({ pend := [], out := m, n := n } : Stream).pack.pend = [] from rfl]
    rw [Replay.codes_nil] at h4 ⊢; rw [h4]; simp
  · refine ⟨2, ?_⟩
    have h5 : b.codes p ([u] ++ [0, 0]) = some { a with acc := a.acc ++ List.replicate 2 0 } :=
      Replay.codes_append.mpr ⟨a, h4, Replay.codes_cons.mpr ⟨_, Replay.code_pad _, Replay.codes_cons.mpr ⟨_, Replay.code_pad _, by rw [Replay.codes_nil]; simp [List.replicate]⟩⟩⟩
    exact Stream.Means.append (x := ⟨[u], m, n⟩) (by simp only [List.length_cons, List.length_nil] at hn; omega) h1 h2 h3 (Replay.word_pack3 h5)
  · refine ⟨1, ?_⟩
    have h5 : b.codes p ([u, v] ++ [0]) = some { a with acc := a.acc ++ List.replicate 1 0 } :=
      Replay.codes_append.mpr ⟨a, h4, Replay.codes_cons.mpr ⟨_, Replay.code_pad _, by rw [Replay.codes_nil]; simp [List.replicate]⟩⟩
    have hn' : n.toNat + 1 < 2 ^ 32 := by simp only [List.length_cons, List.length_nil] at hn; omega
    exact Stream.Means.append (x := ⟨[u, v], m, n⟩) hn' h1 h2 h3 (Replay.word_pack3 h5)
  · simp only [List.length_cons] at hp; omega

theorem Replay.codes_run {p : Params} (a : Replay) (ds : List Digit) : a.codes p (ds.map
    (runCode p.cfgSel)) = some { a with acc := a.acc ++ ds } := by
  induction ds generalizing a with
  | nil => rw [List.map_nil, Replay.codes_nil]; simp
  | cons n ds ih =>
    rw [List.map_cons, Replay.codes_cons]
    refine ⟨{ a with acc := a.acc ++ [n] }, ?_, by rw [ih]; simp⟩
    unfold Replay.code
    have : decodeCode p.cfgSel (runCode p.cfgSel n) = .run n := by
      revert n; cases p.cfgSel <;> decide
    rw [this]; rfl

end Sys2Proof.Machine
end

