-- ==== Sys2Proof/Tests/Slice0.lean ====
section
/-!
SUPPORT. Tests. Expected results come from spec/ (the formats of 30_encoding.md, the vectors and programs of
95_test_vectors.md), cited by their names V<n> and P<n>. The `witness` theorems show values that meet the hypotheses of a
statement together, at the boundaries of their ranges.
-/

namespace Sys2Proof.Tests

open Sys2Proof Sys2Proof.Machine

/-! ### WellFormed refuses what it must -/

theorem test_cacheA_refused_in_b : (Instr.cacheA 1).wellFormed .b = false := by decide
theorem test_deltaA_refused_in_b : (Instr.deltaA 15).wellFormed .b = false := by decide
theorem test_cacheB_refused_in_a : (Instr.cacheB 9).wellFormed .a = false := by decide
theorem test_deltaB_refused_in_a : (Instr.deltaB 6).wellFormed .a = false := by decide

/-- R7's two records pass. -/
theorem test_records_valid : (tagsOf .a).valid = true ∧ (tagsOf .b).valid = true := by decide

/-- R8, first clause: a mask that is not `2^width - 1`, and a width of 0. -/
theorem test_record_mask_refused :
    TagRecord.valid { tagsOf .a with run := ⟨0x00, 0x05, 3⟩ } = false ∧
    TagRecord.valid { tagsOf .a with run := ⟨0x00, 0x00, 0⟩ } = false := by decide

/-- R8, second clause: a header bit under the mask. -/
theorem test_record_header_refused : TagRecord.valid { tagsOf .a with cache := ⟨0x09, 0x07, 3⟩ } = false := by decide

/-- R8, third clause: a code above 0x1F. -/
theorem test_record_width_refused : TagRecord.valid { tagsOf .a with delta := ⟨0x20, 0x0F, 4⟩ } = false := by decide

/-- R8, fourth clause: two schemes that share codes. -/
theorem test_record_overlap_refused : TagRecord.valid { tagsOf .a with cache := ⟨0x18, 0x07, 3⟩ } = false := by decide

/-! ### Decoding, each word written out from its format -/

theorem test_decode_raw : decode .a (.word 0b1_000100000000000) = .raw 0x0800 := by decide
theorem test_decode_chunk : decode .a (.word 0b0_00000_11111_11110) = .chunk 30 31 0 := by decide
theorem test_decode_run : decode .a (.code 0b00_010) = .run 2 ∧ decode .b (.code 0b00_111) = .run 7 := by decide
theorem test_decode_cacheA : decode .a (.code 0b01_001) = .cacheA 1 := by decide
theorem test_decode_deltaA : decode .a (.code 0b1_0111) = .deltaA 7 := by decide
theorem test_decode_deltaB : decode .b (.code 0b01_110) = .deltaB 6 := by decide
theorem test_decode_cacheB : decode .b (.code 0b1_1001) = .cacheB 9 := by decide

/-- The pad's bits are those of `RUN 0`, and decode as it (30_encoding.md R92). -/
theorem test_decode_pad : encode .pad = .code 0b00000 ∧ decode .a (.code 0b00000) = .run 0 := by decide

/-- Numbers that are no symbol are rejected by name. -/
theorem test_reject :
    decodeNumber .a 16 0x10000 = .error .notAWord ∧ decodeNumber .a 5 0x20 = .error .notACode ∧
    decodeNumber .a 8 0x20 = .error .notACode ∧ decodeNumber .a 7 0 = .error .noSuchWidth ∧
    decodeTableWord 16 0x10000 = none := by decide

/-- Two codes of the table in whole bytes. -/
theorem test_decodeTableWord :
    decodeTableWord 16 0x891A = some (.raw 0x091A) ∧ decodeTableWord 8 0x1F = some (.deltaA 15) := by decide

/-! ### One step of each instruction -/

/-- A decoder in mid-run: `S` = 1, BUSY. -/
def dec (sel : CfgSel) : Dec :=
  { Dec.reset with cfgSel := sel, phase := .busy, pcount := 9, expected := 9 }

/-- The machine with that decoder, whose step is the next move. -/
def pair (d : Dec) : State :=
  { State.reset with dec := d, agenda := [.engine .dec] }

/-- The machine with that encoder, whose step is the next move. -/
def pairE (e : Enc) : State :=
  { State.reset with enc := e, agenda := [.engine .enc] }

/-- The decoder of a next state. -/
def decOf : Host.Outcome State Fault Refusal → Option Dec
  | .next t => some t.dec
  | .fault _ => none
  | .refused _ => none

/-- The encoder of a next state. -/
def encOf : Host.Outcome State Fault Refusal → Option Enc
  | .next t => some t.enc
  | .fault _ => none
  | .refused _ => none

/-- V68: the largest payload for `S` = 2. -/
theorem test_raw :
    (decOf (step (pair { dec .a with prec := 2, inBuf := [(0, 0xBFFF)] }))).map
      (fun d => (d.outBuf, d.prev, d.toEngine.slot 7, d.rptr)) = some ([(0, 0xFFFC)], 0x3FFF, 0x3FFF, 1) := by decide

/-- V67: one more is out of range, and nothing moves. -/
theorem test_raw_range :
    (decOf (step (pair { dec .a with prec := 2, inBuf := [(0, 0xC000)] }))).map
      (fun d => (d.phase, d.fault, d.outn, d.rptr)) = some (.fault, .decSampleRange, 0, 0) := by decide

/-- P2, step 2. -/
theorem test_chunk :
    (decOf (step (pair { dec .a with rptr := 1, inBuf := [(1, 0x03FF)] }))).map (fun d => (d.q, d.rptr, d.outn))
      = some ([0x1F, 0x1F, 0x00], 2, 0) := by decide

/-- P2, step 8. -/
theorem test_run :
    (decOf (step (pair { dec .a with q := [0x02, 0x00, 0x00] }))).map (fun d => (d.acc, d.q)) = some ([2], [0, 0]) := by
  decide

/-- P2, step 9: the pad after the run. -/
theorem test_pad :
    (decOf (exec .pad (pair { dec .a with q := [0x00, 0x00], acc := [2] }))).map (fun d => (d.acc, d.q))
      = some ([2, 0], [0]) := by decide

/-- V40 decoded: `CACHE 1` with 0x0101 in slot 1. -/
theorem test_cacheA :
    (decOf (step (pair { dec .a with
      q := [0x09, 0, 0], prev := 0x0202, cache := Dec.reset.cache.set 1 0x0101, outn := 2 }))).map
      (fun d => (d.outBuf, d.prev, d.outn)) = some ([(2, 0x0202)], 0x0101, 3) := by decide

/-- V77: an empty slot. -/
theorem test_cacheA_empty :
    (decOf (step (pair { dec .a with q := [0x08, 0, 0] }))).map (fun d => (d.phase, d.fault, d.q))
      = some (.fault, .decCacheEmpty, [0x08, 0, 0]) := by decide

/-- P2, step 3: +8. -/
theorem test_deltaA :
    (decOf (step (pair { dec .a with q := [0x1F, 0x1F, 0], prev := 0, outn := 1 }))).map
      (fun d => (d.outBuf, d.prev, d.q)) = some ([(1, 0x0010)], 0x0008, [0x1F, 0]) := by decide

/-- V78: -1 from 0. -/
theorem test_deltaA_range :
    (decOf (step (pair { dec .a with q := [0x17, 0, 0], prev := 0, outn := 1 }))).map (fun d => (d.fault, d.prev))
      = some (.decSampleRange, 0) := by decide

/-- V88: 0x0E is +3 in configuration B. -/
theorem test_deltaB :
    (decOf (step (pair { dec .b with q := [0x0E, 0, 0], prev := 0x64, outn := 1 }))).map
      (fun d => (d.outBuf, d.prev)) = some ([(1, 0x00CE)], 0x0067) := by decide

/-- P3, configuration B, step 10: the run of 2 is emitted before the cached value. -/
theorem test_cacheB :
    (decOf (step (pair { dec .b with
      q := [0x19], acc := [2], prev := 0x0101, outn := 4, cache := Dec.reset.cache.set 9 0x0209 }))).map
      (fun d => (d.outBuf, d.prev, d.acc)) = some ([(4, 0x0202), (5, 0x0202), (6, 0x0412)], 0x0209, []) := by decide

/-- V89: 0x10 is `CACHE 0` in configuration B. -/
theorem test_cacheB_empty :
    (decOf (step (pair { dec .b with q := [0x10, 0, 0], prev := 0x64 }))).map (fun d => d.fault)
      = some .decCacheEmpty := by decide

/-- P2, step 11: the final step resolves the trailing run. -/
theorem test_final :
    (decOf (step (pair { dec .a with rptr := 9, acc := [2, 0, 0], prev := 0x0800, outn := 7 }))).map
      (fun d => (d.phase, d.outn, d.outBuf)) = some (.done, 9, [(7, 0x1000), (8, 0x1000)]) := by decide

/-- V69: too few samples. -/
theorem test_final_truncated :
    (decOf (step (pair { dec .a with rptr := 9, outn := 8 }))).map (fun d => d.fault) = some .decTruncated := by decide

/-! ### The encoder, START and reset -/

/-- An encoder in mid-run: `S` = 1, BUSY. -/
def enc (sel : CfgSel) : Enc :=
  { Enc.reset with cfgSel := sel, phase := .busy, count := 6 }

/-- P1, step 4: the pending codes go out with a pad, then the Raw word. -/
theorem test_encoder_raw :
    (encOf (step (pairE { enc .a with
      idx := 3, inBuf := [(3, 0x1000)], prev := 0x0010, pend := [0x1F, 0x1F], outn := 1, outBuf := [(0, 0x8000)] }))).map
      (fun e => (e.outBuf, e.prev, e.pend, e.toEngine.slot 0))
      = some ([(0, 0x8000), (1, 0x03FF), (2, 0x8800)], 0x0800, [], 0x0800) := by decide

/-- P4, step 8: the run goes out before the delta. -/
theorem test_encoder_delta :
    (encOf (step (pairE { enc .a with
      prec := 2, idx := 3, inBuf := [(3, 0x1238)], prev := 0x048D, run := 1, pend := [0x08] }))).map
      (fun e => (e.outBuf, e.prev, e.run, e.pend)) = some ([(0, 0x6028)], 0x048E, 0, []) := by decide

/-- P3, configuration B, step 7: the run, then a cache hit. -/
theorem test_encoder_cache :
    (encOf (step (pairE { enc .b with
      idx := 3, inBuf := [(3, 0x0412)], prev := 0x0101, run := 2, pend := [0x11]
      cache := Enc.reset.cache.set 9 0x0209 }))).map (fun e => (e.outBuf, e.prev, e.run))
      = some ([(0, 0x6451)], 0x0209, 0) := by decide

/-- P1, step 6. -/
theorem test_encoder_run :
    (encOf (step (pairE { enc .a with idx := 5, inBuf := [(5, 0x1000)], prev := 0x0800, run := 1 }))).map
      (fun e => (e.run, e.idx, e.outn)) = some (2, 6, 0) := by decide

/-- P1, step 7. -/
theorem test_encoder_final :
    (encOf (step (pairE { enc .a with idx := 6, prev := 0x0800, run := 2 }))).map (fun e => (e.outBuf, e.phase, e.run))
      = some ([(0, 0x0002)], .done, 0) := by decide

/-- V66c: the digits of 99. -/
theorem test_run_digits : runCodes .a 99 = [3, 4, 1] := by decide

/-- V70: START with `S` = 0. -/
theorem test_start_precision_zero :
    (encOf (step { State.reset with enc := { Enc.reset with prec := 0 }, agenda := [.writeReg .enc 0 1] })).map
      (fun e => (e.phase, e.fault)) = some (.fault, .cfgPrecisionZero) := by decide

/-- V96: START after hardware reset, then the final step. -/
theorem test_start_empty :
    (encOf (State.run 2 { State.reset with agenda := [.writeReg .enc 0 1, .engine .enc] })).map
      (fun e => (e.phase, e.outn)) = some (.done, 0) := by decide

/-- V94: RESET wins over START. -/
theorem test_reset_wins :
    (decOf (step { pair { dec .a with outn := 3 } with agenda := [.writeReg .dec 0 3] })).map
      (fun d => (d.phase, d.outn, d.pcount)) = some (.idle, 0, 9) := by decide

/-- STATUS of a decoder in FAULT 6: 3 + 6 * 4 (10_state.md R35; 60_exceptions.md R250). -/
theorem test_status : statusWord (dec .a).toEngine = 1 ∧
    statusWord { (dec .a).toEngine with phase := .fault, fault := .decCacheEmpty } = 27 := by decide

/-- A placed symbol is the next step's. -/
theorem test_withFetchWord :
    step (State.reset.withFetchWord 16 0x891A) =
      exec (.raw 0x091A) { State.reset.withFetchWord 16 0x891A with agenda := [] } := rfl

/-! ### Witnesses -/

/-- A decoder with room for exactly the pending run of 1 and one sample, its slots 7 and 15 filled. -/
def tight (sel : CfgSel) : Dec :=
  { dec sel with
    prev := 0x64, acc := [1, 0], outn := 7, q := [0]
    cache := (Dec.reset.cache.set 7 0x0007).set 15 0x7FFF }

theorem tight_room (sel : CfgSel) : (tight sel).HasRoom :=
  ⟨by cases sel <;> decide, by cases sel <;> decide⟩

/-- The run fills the output: it resolves, and no sample more fits. -/
def full (sel : CfgSel) : Dec :=
  { tight sel with expected := 8 }

theorem full_resolves (sel : CfgSel) : (full sel).RunResolves :=
  ⟨by cases sel <;> decide, by cases sel <;> decide⟩

theorem witness_DecodeOfEncodeIsTheCoreInstruction :
    (Instr.raw 0x7FFF).wellFormed .a = true ∧ (Instr.chunk 31 0 31).wellFormed .b = true ∧
    (Instr.run 7).wellFormed .b = true ∧ (Instr.cacheA 7).wellFormed .a = true ∧
    (Instr.deltaA 15).wellFormed .a = true ∧ (Instr.deltaB 7).wellFormed .b = true ∧
    (Instr.cacheB 15).wellFormed .b = true ∧ Instr.pad.wellFormed .a = true := by decide

theorem witness_SetAfterGetClearsTheLowBits :
    ((1 : BitVec 4) ≠ 0 ∧ (0x7FFF : Word).toNat ≤ maxWorking 1) ∧
    ((15 : BitVec 4) ≠ 0 ∧ (1 : Word).toNat ≤ maxWorking 15) := by decide

theorem witness_PackAndUnpackAreInverse : rawIsValid 0x7FFF = false ∧ rawIsValid 0x0000 = false := by decide

theorem witness_DeltaCodesAreABijection :
    deltaIsValid .a (-8) = true ∧ deltaIsValid .a 8 = true ∧ deltaIsValid .b (-4) = true ∧ deltaIsValid .b 4 = true ∧
    (tagsOf .a).delta.isTagOf 0x10 = true ∧ (tagsOf .a).delta.isTagOf 0x1F = true ∧
    (tagsOf .b).delta.isTagOf 0x08 = true ∧ (tagsOf .b).delta.isTagOf 0x0F = true := by decide

theorem witness_SentinelIsFarFromEveryWorkingSample :
    (1 : BitVec 4) ≠ 0 ∧ (0x7FFF : Word).toNat ≤ maxWorking 1 ∧ (0 : Word).toNat ≤ maxWorking 15 := by decide

theorem witness_EmittedDigitsReadBack : 1 ≤ 1 ∧ 1 < 2 ^ 32 ∧ 1 ≤ 2 ^ 32 - 1 ∧ 2 ^ 32 - 1 < 2 ^ 32 := by decide

theorem witness_EmittedDigitsAreTheBase8Digits : 1 ≤ 2 ^ 32 - 1 ∧ 2 ^ 32 - 1 < 2 ^ 32 ∧ (runDigits (2 ^ 32 - 1)).length = 11 := by decide

/-- The largest eleven digits that fit 32 bits, and the smallest that do not. -/
theorem witness_BoundedAccumulatorAgrees :
    (boundedAccOf [7, 7, 7, 7, 7, 7, 7, 7, 7, 7, 3]).ovf = false ∧
    (boundedAccOf [0, 0, 0, 0, 0, 0, 0, 0, 0, 0, 4]).ovf = true := by decide

theorem witness_RawEmitsAndInserts :
    (pair (tight .a)).dec.HasRoom ∧ (0x7FFF : BitVec 15).toNat ≤ maxWorking (pair (tight .a)).dec.prec :=
  ⟨tight_room .a, by decide⟩

/-- The premises on the sample: payload `p` takes the previous sample 0x64 to `w`. -/
abbrev sumA (p : BitVec 4) (w : Word) : Prop :=
  w.toNat ≤ maxWorking (pair (tight .a)).dec.prec ∧
  (w.toNat : Int) = (pair (tight .a)).dec.prev.toNat + (if p.toNat < 8 then (p.toNat : Int) - 8 else (p.toNat : Int) - 7)

/-- Payloads 0, 7, 8 and 15 are -8, -1, +1 and +8. -/
theorem witness_DeltaAEmitsTheSum :
    (pair (tight .a)).dec.HasRoom ∧ (pair (tight .a)).dec.prev ≠ sentinel ∧
    sumA 0 0x5C ∧ sumA 7 0x63 ∧ sumA 8 0x65 ∧ sumA 15 0x6C :=
  ⟨tight_room .a, by decide⟩

/-- The same for configuration B. -/
abbrev sumB (p : BitVec 3) (w : Word) : Prop :=
  w.toNat ≤ maxWorking (pair (tight .b)).dec.prec ∧
  (w.toNat : Int) = (pair (tight .b)).dec.prev.toNat + (if p.toNat < 4 then (p.toNat : Int) - 4 else (p.toNat : Int) - 3)

/-- Payloads 0, 3, 4 and 7 are -4, -1, +1 and +4. -/
theorem witness_DeltaBEmitsTheSum :
    (pair (tight .b)).dec.HasRoom ∧ (pair (tight .b)).dec.prev ≠ sentinel ∧
    sumB 0 0x60 ∧ sumB 3 0x63 ∧ sumB 4 0x65 ∧ sumB 7 0x68 :=
  ⟨tight_room .b, by decide⟩

theorem witness_CacheEmitsTheSlot :
    ((pair (tight .a)).dec.HasRoom ∧ (pair (tight .a)).dec.toEngine.slot ((7 : BitVec 3).setWidth 4) = 7 ∧
      (7 : Word) ≠ sentinel ∧ (7 : Word).toNat ≤ maxWorking (pair (tight .a)).dec.prec) ∧
    ((pair (tight .b)).dec.HasRoom ∧ (pair (tight .b)).dec.toEngine.slot 15 = 0x7FFF ∧
      (0x7FFF : Word) ≠ sentinel ∧ (0x7FFF : Word).toNat ≤ maxWorking (pair (tight .b)).dec.prec) :=
  ⟨⟨tight_room .a, by decide⟩, ⟨tight_room .b, by decide⟩⟩

/-- No previous sample; and one sample too many. -/
theorem witness_RunResolutionFaultsFirst :
    (runLength (pair { tight .a with prev := sentinel }).dec.acc ≠ 0 ∧
      (pair { tight .a with prev := sentinel }).dec.prev = sentinel) ∧
    (runLength (pair { tight .a with expected := 7 }).dec.acc ≠ 0 ∧
      (pair { tight .a with expected := 7 }).dec.prev ≠ sentinel ∧
      (pair { tight .a with expected := 7 }).dec.expected.toNat <
        (pair { tight .a with expected := 7 }).dec.outn.toNat +
          runLength (pair { tight .a with expected := 7 }).dec.acc) := by decide

theorem witness_RawFaultsOnRangeThenRoom :
    (pair { full .a with prec := 2 }).dec.RunResolves ∧
    maxWorking (pair { full .a with prec := 2 }).dec.prec < (0x4000 : BitVec 15).toNat ∧
    (0x3FFF : BitVec 15).toNat ≤ maxWorking (pair { full .a with prec := 2 }).dec.prec ∧
    (pair { full .a with prec := 2 }).dec.outn.toNat + runLength (pair { full .a with prec := 2 }).dec.acc =
      (pair { full .a with prec := 2 }).dec.expected.toNat :=
  ⟨⟨by decide, by decide⟩, by decide, by decide, by decide⟩

/-- No previous sample; -1 from 0 and +1 from the largest sample, both configurations; a full output. -/
theorem witness_DeltaFaultsOnPreviousRangeRoom :
    ((pair { dec .a with q := [0x18] }).dec.RunResolves ∧ (pair { dec .a with q := [0x18] }).dec.prev = sentinel) ∧
    ((pair { full .a with prev := 0 }).dec.RunResolves ∧ (pair { full .a with prev := 0 }).dec.prev ≠ sentinel ∧
      ((pair { full .a with prev := 0 }).dec.prev.toNat : Int) + (((7 : BitVec 4).toNat : Int) - 8) < 0) ∧
    ((pair { full .b with prev := 0x7FFF }).dec.RunResolves ∧
      (maxWorking (pair { full .b with prev := 0x7FFF }).dec.prec : Int) <
        (pair { full .b with prev := 0x7FFF }).dec.prev.toNat + (((4 : BitVec 3).toNat : Int) - 3)) ∧
    ((pair { full .a with prev := 8 }).dec.RunResolves ∧
      0 ≤ ((pair { full .a with prev := 8 }).dec.prev.toNat : Int) + (((0 : BitVec 4).toNat : Int) - 8) ∧
      (pair { full .a with prev := 8 }).dec.outn.toNat + runLength (pair { full .a with prev := 8 }).dec.acc =
        (pair { full .a with prev := 8 }).dec.expected.toNat) :=
  ⟨⟨⟨by decide, by decide⟩, by decide⟩, ⟨⟨by decide, by decide⟩, by decide, by decide⟩,
    ⟨⟨by decide, by decide⟩, by decide⟩, ⟨⟨by decide, by decide⟩, by decide, by decide⟩⟩

theorem witness_CacheFaultsOnEmptyThenRoom :
    ((pair (full .a)).dec.RunResolves ∧ (pair (full .a)).dec.toEngine.slot ((0 : BitVec 3).setWidth 4) = sentinel) ∧
    ((pair (full .b)).dec.RunResolves ∧ (pair (full .b)).dec.toEngine.slot 15 ≠ sentinel ∧
      ((pair (full .b)).dec.toEngine.slot 15).toNat ≤ maxWorking (pair (full .b)).dec.prec ∧
      (pair (full .b)).dec.outn.toNat + runLength (pair (full .b)).dec.acc = (pair (full .b)).dec.expected.toNat) :=
  ⟨⟨full_resolves .a, by decide⟩, ⟨full_resolves .b, by decide⟩⟩

theorem witness_SymbolsChangeOnlyStreamState :
    ∃ t, exec (.deltaA 8) (pair (tight .a)) = .next t ∧ 0 < (pair (tight .a)).dec.outn.toNat :=
  ⟨_, rfl, by decide⟩

theorem witness_OnlyRawWritesTheCache : (∀ v, Instr.cacheB 15 ≠ .raw v) ∧ ∃ t, exec (.cacheB 15) (pair (tight .b)) = .next t :=
  ⟨fun _ h => (by cases h), _, rfl⟩

/-- A decoder step at the head of the agenda that writes a cell, and the final step of a decoder without input; both have
`OUTN <= EXPECTED`. -/
theorem witness_DecodingNeverReadsOutput :
    ((pair (tight .a)).agenda = [.engine .dec] ∧ (tight .a).outn.toNat ≤ (tight .a).expected.toNat ∧
      ∃ t, exec (.deltaA 8) (pair (tight .a)) = .next t ∧ (tight .a).outn.toNat < t.dec.outn.toNat) ∧
    ((pair { dec .a with pcount := 0 }).agenda = [.engine .dec] ∧ ({ dec .a with pcount := 0 } : Dec).fetch = none ∧
      ({ dec .a with pcount := 0 } : Dec).outn.toNat ≤ ({ dec .a with pcount := 0 } : Dec).expected.toNat) :=
  ⟨⟨by decide, by decide, _, rfl, by decide⟩, by decide⟩

/-- A pending code and an input word; the head of the agenda, the turn of either engine. -/
theorem witness_StepRunsTheFetchedInstruction :
    ((tight .a).phase = .busy ∧ (tight .a).q = [0] ∧ (pair (tight .a)).agenda = [.engine .dec]) ∧
    ((dec .a).phase = .busy ∧ (dec .a).q = [] ∧ (dec .a).rptr < (dec .a).pcount) ∧
    ({ dec .a with rptr := 8 } : Dec).rptr < (dec .a).pcount ∧
    ({ State.reset with dec := dec .a }.agenda = [] ∧ { State.reset with dec := dec .a }.turn = .dec) ∧
    ({ State.reset with dec := dec .a, turn := .enc }.turn = .enc ∧
      { State.reset with dec := dec .a, turn := .enc }.enc.phase ≠ .busy) := by decide

theorem witness_PlacedSymbolIsRunNext :
    symbolOf 16 0xFFFF = .ok (.word 0xFFFF) ∧ symbolOf 8 0x1F = .ok (.code 0x1F) ∧ symbolOf 5 0 = .ok (.code 0) := by decide

/-- The four ends: DONE, truncated, no previous sample, one sample too many. -/
theorem witness_DecoderFinalStep :
    (∀ d ∈ [{ full .a with q := [], rptr := 9 }, { tight .a with q := [], rptr := 9 },
        { full .a with q := [], rptr := 9, prev := sentinel }, { full .a with q := [], rptr := 9, expected := 7 }],
      (pair d).dec.phase = .busy ∧ (pair d).agenda = [.engine .dec] ∧ (pair d).dec.q = [] ∧
      (pair d).dec.pcount ≤ (pair d).dec.rptr) ∧
    (Dec.RunResolves { full .a with q := [], rptr := 9 } ∧ 7 + runLength (full .a).acc = (full .a).expected.toNat) ∧
    (Dec.RunResolves { tight .a with q := [], rptr := 9 } ∧ 7 + runLength (tight .a).acc ≠ (tight .a).expected.toNat) ∧
    runLength (full .a).acc ≠ 0 ∧ (7 : Count).toNat < (full .a).outn.toNat + runLength (full .a).acc :=
  ⟨by decide, ⟨⟨by decide, by decide⟩, by decide⟩, ⟨⟨by decide, by decide⟩, by decide⟩, by decide, by decide⟩

theorem witness_StepRunsTheEncoder :
    ((pairE (enc .a)).enc.phase = .busy ∧ (pairE (enc .a)).agenda = [.engine .enc]) ∧
    ({ State.reset with enc := enc .a, turn := .enc }.agenda = [] ∧
      { State.reset with enc := enc .a, turn := .enc }.turn = .enc) ∧
    ({ State.reset with enc := enc .a }.turn = .dec ∧ { State.reset with enc := enc .a }.dec.phase ≠ .busy) := by decide

/-- An encoder at its last sample 0x1000 (working 0x0800), a run of 2 in flight. -/
def last (prev : Word) : Enc :=
  { enc .a with idx := 5, run := 2, pend := [0x1F], prev := prev, inBuf := [(5, 0x1000)], cache := Enc.reset.cache }

/-- The sample equal to `PREV`; and the sentinel. -/
theorem witness_EqualSampleExtendsTheRun :
    ((last 0x0800).idx < (last 0x0800).count ∧
      precGet (last 0x0800).prec (memRead .encIn (last 0x0800).inBuf (last 0x0800).idx.toNat) = (last 0x0800).prev) ∧
    ((last sentinel).idx < (last sentinel).count ∧ (last sentinel).prec ≠ 0 ∧ (last sentinel).prev = sentinel) := by
  decide

/-- The encoder with that value in its slot. -/
def resident (prev : Word) : Enc :=
  { last prev with cache := (last prev).cache.set 0 0x0800 }

/-- The sample 0x0800 breaks the run, and is a valid difference of `PREV` or not. -/
abbrev breaks (e : Enc) (valid : Bool) : Prop :=
  e.idx < e.count ∧ 0x0800 = precGet e.prec (memRead .encIn e.inBuf e.idx.toNat) ∧ 0x0800 ≠ e.prev ∧
  deltaIsValid e.cfgSel (((0x0800 : Word).toNat : Int) - e.prev.toNat) = valid

/-- Differences of +8 and -8; and the sentinel. -/
theorem witness_SmallDifferenceWritesDelta :
    breaks (last 0x07F8) true ∧ breaks (last 0x0808) true ∧
    breaks (last sentinel) false ∧ (last sentinel).prec ≠ 0 ∧ (last sentinel).prev = sentinel := by decide

/-- Differences of +9 and -9, the value in its slot. -/
theorem witness_ResidentValueWritesCache :
    (breaks (resident 0x07F7) false ∧
      (resident 0x07F7).toEngine.slot ((resident 0x07F7).toEngine.hash 0x0800) = 0x0800) ∧
    (breaks (resident 0x0809) false ∧
      (resident 0x0809).toEngine.slot ((resident 0x0809).toEngine.hash 0x0800) = 0x0800) := by decide

/-- The same with an empty slot. -/
theorem witness_OtherValueWritesRaw :
    (breaks (last 0x07F7) false ∧ (last 0x07F7).toEngine.slot ((last 0x07F7).toEngine.hash 0x0800) ≠ 0x0800) ∧
    (breaks (last 0x0809) false ∧ (last 0x0809).toEngine.slot ((last 0x0809).toEngine.hash 0x0800) ≠ 0x0800) := by decide

theorem witness_RunAndPadAppendTheirDigit :
    (tagsOf .a).run.isTagOf 0 = true ∧ (tagsOf .b).run.isTagOf 7 = true := by decide

theorem witness_ChunkQueuesItsThreeCodes : (0x7FFF : Word).getLsbD 15 = false ∧ (0x0000 : Word).getLsbD 15 = false := by
  decide

theorem witness_PendingCodesPackByThree :
    (enc .a).pend = [] ∧ ({ enc .a with pend := [1] } : Enc).pend = [1] ∧
    ({ enc .a with pend := [1, 2] } : Enc).pend = [1, 2] := by decide

/-- A reset engine meets its invariant, and so does one that has just been started. -/
theorem reset_engine_inv : Engine.reset.Inv :=
  ⟨.inl rfl, fun i => .inl (by revert i; decide), by decide, by decide, by decide, fun _ => ⟨rfl, by decide, rfl⟩,
    by decide, by decide⟩

theorem started_engine_inv : (enc .a).toEngine.Inv :=
  ⟨.inl rfl, fun i => .inl (by revert i; decide), by decide, by decide, by decide, nofun, by decide, by decide⟩

theorem reset_enc_inv : Enc.reset.Inv :=
  ⟨reset_engine_inv, by decide, by decide, by decide, fun _ => ⟨⟨rfl, by decide, rfl⟩, rfl, rfl, rfl⟩, nofun, .inl rfl⟩

theorem reset_dec_inv : Dec.reset.Inv :=
  ⟨reset_engine_inv, by decide, by decide, by decide, fun _ => ⟨⟨rfl, by decide, rfl⟩, rfl, rfl, rfl⟩, nofun⟩

theorem witness_SampleStepFrame : (enc .a).idx < (enc .a).count ∧ (enc .a).Inv :=
  ⟨by decide, started_engine_inv, by decide, by decide, by decide, nofun, nofun, .inl rfl⟩

theorem witness_EncoderFinalStep :
    ({ last 0x0800 with idx := 6 } : Enc).idx = (last 0x0800).count ∧
    ({ enc .a with count := 0 } : Enc).idx = 0 ∧ ({ enc .a with count := 0 } : Enc).run = 0 ∧
    ({ enc .a with count := 0 } : Enc).pend = [] := by decide

/-- A started encoder over one sample, 0xFFFF. -/
def oneSample : Enc :=
  { enc .a with count := 1, inBuf := [(0, 0xFFFF)] }

theorem oneSample_started : oneSample.Started :=
  ⟨⟨⟨rfl, by decide, rfl⟩, rfl, rfl, rfl⟩, rfl, rfl, by decide⟩

theorem witness_FirstSampleIsRawCoded :
    oneSample.Started ∧ oneSample.count ≠ 0 ∧ 0x7FFF = precGet oneSample.prec (memRead .encIn oneSample.inBuf 0) :=
  ⟨oneSample_started, by decide, by decide⟩

/-- The three cases of START, for each engine. -/
theorem witness_StartChecksAndRuns :
    (1 : BitVec 32).getLsbD 1 = false ∧ (1 : BitVec 32).getLsbD 0 = true ∧
    (pairE (enc .a)).enc.phase ≠ .idle ∧ (pair (dec .a)).dec.phase ≠ .idle ∧
    State.reset.enc.phase = .idle ∧ State.reset.enc.prec ≠ 0 ∧
    State.reset.dec.phase = .idle ∧ State.reset.dec.prec ≠ 0 ∧
    ({ Enc.reset with prec := 0 } : Enc).phase = .idle ∧ ({ Dec.reset with prec := 0 } : Dec).phase = .idle := by decide

theorem witness_SoftResetKeepsTheConfiguration :
    (2 : BitVec 32).getLsbD 1 = true ∧ (3 : BitVec 32).getLsbD 1 = true ∧ (0xFFFFFFFE : BitVec 32).getLsbD 1 = true ∧
    { State.reset with agenda := [.writeReg .dec 0 0] }.agenda = [.writeReg .dec 0 0] := by decide

theorem witness_HardResetSparesTheBuffers :
    { pair (tight .a) with agenda := [.hardReset] }.agenda = [.hardReset] := by decide

/-- Writes in IDLE and in BUSY, to the first and the last register of each kind. -/
theorem witness_RegisterWritesAreGatedByPhase :
    { State.reset with agenda := [.writeReg .enc 2 0xFFFFFFFF] }.enc.phase = .idle ∧
    { State.reset with agenda := [.writeReg .dec 3 0] }.dec.phase = .idle ∧
    (pairE (enc .b)).enc.phase ≠ .idle ∧ (pair (dec .b)).dec.phase ≠ .idle ∧
    { State.reset with agenda := [.writeReg .dec 6 0] }.agenda = [.writeReg .dec 6 0] := by decide

/-- STATUS and CFG of a decoder in FAULT 7 with all of `CFG` set. -/
theorem witness_RegisterReads :
    (31 : BitVec 32).toNat = (phaseBits .fault).toNat + 4 * (faultBits .decSampleRange).toNat ∧
    (0x1FF : BitVec 32).toNat = (15 : BitVec 4).toNat + 16 * (15 : BitVec 4).toNat + (if CfgSel.b = .b then 256 else 0) := by
  decide

/-- A decoder with an unresolved run whose next word holds RUN codes. -/
def joined : Dec :=
  { dec .a with acc := [2, 0, 0], rptr := 8, inBuf := [(8, 0x0002)] }

/-- A word of RUN codes after an unresolved run, with `PCOUNT` and another count above `RPTR`; a pending code with any count;
a decoder with a previous sample and a slot in use. -/
theorem witness_NothingRestartsBetweenJoinedStreams :
    (joined.phase = .busy ∧ joined.q = [] ∧ joined.rptr < joined.pcount ∧ joined.rptr < 0xFFFFFFFF ∧
      memRead .decIn joined.inBuf joined.rptr.toNat =
        pack3 ((2 : Digit).setWidth 5) ((0 : Digit).setWidth 5) ((0 : Digit).setWidth 5) ∧
      { pair joined with agenda := List.replicate 4 (.engine .dec) }.agenda =
        .engine .dec :: .engine .dec :: .engine .dec :: .engine .dec :: []) ∧
    ((pair (tight .a)).agenda = [.engine .dec] ∧ (tight .a).q ≠ [] ∧ (tight .a).prec ≠ 0 ∧
      (tight .a).prev ≠ sentinel ∧ (tight .a).toEngine.slot 15 ≠ sentinel) := by decide

/-- A written cell and an unwritten one, at the ends of the index range, of either engine. -/
theorem witness_HostReadsOutputCells :
    { pairE { enc .a with outBuf := [(0xFFFFFFFF, 7)] } with agenda := [.readOut .enc 0xFFFFFFFF] }.enc.outBuf.read? 0xFFFFFFFF
      = some 7 ∧
    { State.reset with agenda := [.readOut .enc 0] }.enc.outBuf.read? 0 = none ∧
    { pair { dec .a with outBuf := [(0, 0xFFFF)] } with agenda := [.readOut .dec 0] }.dec.outBuf.read? 0 = some 0xFFFF ∧
    { State.reset with agenda := [.readOut .dec 0xFFFFFFFF] }.dec.outBuf.read? 0xFFFFFFFF = none := by decide

theorem witness_HostPlacesInputBetweenRuns :
    { pair (dec .a) with agenda := [.writeIn .dec 0 0] }.dec.phase = .busy ∧
    { State.reset with agenda := [.writeIn .enc 0xFFFFFFFF 0xFFFF] }.enc.phase ≠ .busy ∧
    { State.reset with agenda := [.writeIn .dec 0 0] }.dec.phase ≠ .busy := by decide

theorem witness_IdleEnginesHoldTheirState :
    { State.reset with agenda := [.engine .enc] }.enc.phase ≠ .busy ∧
    (pair { dec .a with phase := .fault, fault := .decTruncated }).dec.phase ≠ .busy ∧
    State.reset.agenda = [] ∧ State.reset.enc.phase ≠ .busy ∧ State.reset.dec.phase ≠ .busy := by decide

/-- A host read leaves a DONE engine alone; a write of 2 to CTRL resets it. -/
theorem witness_DoneAndFaultAreLeftOnlyByReset :
    (∃ t, step { pair { dec .a with phase := .done } with agenda := [.readReg .dec 4] } = .next t ∧ t.dec.phase = .done) ∧
    (∃ t, step { pair { dec .a with phase := .done } with agenda := [.writeReg .dec 0 2] } = .next t ∧
      t.dec.phase = .idle) :=
  ⟨⟨_, rfl, rfl⟩, ⟨_, rfl, rfl⟩⟩

/-- A started encoder beside a reset decoder. -/
theorem witness_EveryStepKeepsTheInvariant :
    State.Inv (pairE (enc .a)) ∧ ∃ t, step (pairE (enc .a)) = .next t :=
  ⟨⟨witness_SampleStepFrame.2, reset_dec_inv⟩, _, rfl⟩

theorem witness_EveryRunStartsFresh :
    State.Inv { State.reset with agenda := [.writeReg .enc 0 1] } ∧ State.reset.enc.phase = .idle ∧
    State.reset.enc.prec ≠ 0 ∧ State.reset.dec.phase = .idle ∧ State.reset.dec.prec ≠ 0 :=
  ⟨⟨reset_enc_inv, reset_dec_inv⟩, by decide⟩

theorem witness_EncoderRunTakesCountPlusOneSteps :
    (pairE oneSample).enc.Started ∧ 0 ≤ (pairE oneSample).enc.count.toNat ∧ 1 ≤ (pairE oneSample).enc.count.toNat :=
  ⟨oneSample_started, by decide, by decide⟩

theorem witness_EncoderOutputNeverExceedsInput : (pairE oneSample).enc.Started :=
  oneSample_started

/-- A started decoder over the word of `oneSample` (V7). -/
def oneWord : Dec :=
  { dec .a with pcount := 1, expected := 1, inBuf := [(0, 0xFFFF)] }

theorem oneWord_started : oneWord.Started :=
  ⟨⟨⟨rfl, by decide, rfl⟩, rfl, rfl, rfl⟩, rfl, rfl, by decide⟩

theorem witness_DecoderRunEnds : (pair oneWord).dec.Started :=
  oneWord_started

/-- V7: one sample, one word. -/
theorem witness_DecodingAnEncodedStreamRestoresIt :
    (pairE oneSample).enc.Started ∧
    ∃ t, (pairE oneSample).runEngine .enc ((pairE oneSample).enc.count.toNat + 1) = .next t ∧
      (pair oneWord).dec.Started ∧ (pairE oneSample).enc.toEngine.SameParams (pair oneWord).dec.toEngine ∧
      (pair oneWord).dec.pcount = t.enc.outn ∧ (pair oneWord).dec.expected = (pairE oneSample).enc.count ∧
      ∀ i, i < t.enc.outn.toNat →
        memRead .decIn (pair oneWord).dec.inBuf i = memRead .encOut t.enc.outBuf i := by
  refine ⟨oneSample_started, _, rfl, oneWord_started, ⟨rfl, rfl, rfl⟩, by decide, by decide, fun i hi => ?_⟩
  obtain rfl : i = 0 := Nat.lt_one_iff.mp hi
  decide

end Sys2Proof.Tests
end

section
/-!
SUPPORT. The family 10_state.md: every step keeps the invariant of the pair. The invariant of one engine is carried through
each update a BUSY engine performs, then through an encoder step, a decoder step and each move of the host.
-/

namespace Sys2Proof

/-- The symbol is a whole PackedWord (30_encoding.md R81, R82). -/
def Instr.isWord : Instr → Bool
  | .raw _ | .chunk _ _ _ => true
  | _ => false

theorem decodeCode_isWord (sel : CfgSel) (c : Code) : (decodeCode sel c).isWord = false := by
  unfold decodeCode
  cases sel <;> simp only <;> split_ifs <;> rfl

end Sys2Proof

namespace Sys2Proof.Machine

open Sys2Proof

/-! ### The invariant of one engine, update by update -/

/-- A WorkingSample lies in its range (40_precision_reducer.md R110, R111). -/
theorem precGet_le_maxWorking (s : BitVec 4) (x : Word) : (precGet s x).toNat ≤ maxWorking s := by
  have hs : s.toNat ≤ 16 := by omega
  have hpow : 2 ^ s.toNat * 2 ^ (16 - s.toNat) = 2 ^ 16 := by rw [← pow_add, Nat.add_sub_cancel' hs]
  have hlt : x.toNat / 2 ^ s.toNat < 2 ^ (16 - s.toNat) := Nat.div_lt_of_lt_mul (hpow ▸ x.isLt)
  rw [precGet, BitVec.toNat_ushiftRight, Nat.shiftRight_eq_div_pow, maxWorking]
  omega

/-- An idle engine meets the invariant as soon as its working state is fresh: its parameters are free. -/
theorem Engine.inv_of_fresh {g : Engine} (hg : g.Fresh) (hp : g.phase = .idle) (hf : g.fault = .none)
    (hi : g.inBuf.wf) (ho : g.outBuf.wf) : g.Inv where
  prev := .inl hg.prev
  slots i := .inl (hg.slots i)
  prec := by simp [hp]
  fault := by simp [hp, hf]
  noOverlap := by simp [hf]
  idle _ := hg
  inWf := hi
  outWf := ho

theorem Engine.softReset_inv {g : Engine} (h : g.Inv) : g.softReset.Inv :=
  inv_of_fresh g.softReset_fresh rfl rfl h.inWf h.outWf

theorem Engine.hardReset_inv {g : Engine} (h : g.Inv) : g.hardReset.Inv :=
  inv_of_fresh g.hardReset_fresh rfl rfl h.inWf h.outWf

/-- An idle engine has no fault. -/
theorem Engine.Inv.fault_of_idle {g : Engine} (h : g.Inv) (hp : g.phase = .idle) : g.fault = .none :=
  h.fault.mpr (by simp [hp])

theorem Engine.writeCfg_fresh {g : Engine} (v : BitVec 32) (h : g.Fresh) : (g.writeCfg v).Fresh :=
  ⟨h.prev, h.slots, h.outn⟩

theorem Engine.hostPlace_fresh {g : Engine} (i : Count) (v : Word) (h : g.Fresh) : (g.hostPlace i v).Fresh :=
  ⟨h.prev, h.slots, h.outn⟩

theorem Engine.writeCfg_inv {g : Engine} (v : BitVec 32) (h : g.Inv) (hp : g.phase = .idle) : (g.writeCfg v).Inv :=
  inv_of_fresh (writeCfg_fresh v (h.idle hp)) hp (h.fault_of_idle hp) h.inWf h.outWf

theorem Engine.hostPlace_inv {g : Engine} (i : Count) (v : Word) (h : g.Inv) : (g.hostPlace i v).Inv :=
  { h with
    idle := fun hp => hostPlace_fresh i v (h.idle hp)
    inWf := hostPlace_wf i v h.inWf }

theorem Engine.raise_inv {g : Engine} {f : FaultCode} (h : g.Inv) (hn : f ≠ .none) (ho : f ≠ .cfgTagOverlap) :
    (g.raise f).Inv :=
  { h with
    prec := by simp
    fault := by simp [hn]
    noOverlap := ho
    idle := by simp }

/-- START refuses `S` = 0 and finds no overlap, so a BUSY engine has `S` above 0 (70_reset_and_hazards.md R283). -/
theorem Engine.start_inv {g : Engine} (h : g.Inv) : g.start.Inv := by
  rw [start_eq]
  split
  next hp =>
    split
    next => exact raise_inv h (by decide) (by decide)
    next hs =>
      exact { h with
        prec := fun _ => hs
        fault := by simp [h.fault_of_idle hp]
        idle := by simp }
  next => exact h

/-- The end of a run. -/
theorem Engine.finish_inv {g : Engine} (h : g.Inv) (hb : g.phase = .busy) : Engine.Inv { g with phase := .done } :=
  { h with
    prec := fun _ => h.prec (.inl hb)
    fault := by simp [h.fault, hb]
    idle := by simp }

theorem Engine.withOut_inv {g : Engine} {m : Memory} {n : Count} (h : g.Inv) (hb : g.phase = .busy) (hm : m.wf) :
    Engine.Inv { g with outBuf := m, outn := n } :=
  { h with
    idle := by simp [hb]
    outWf := hm }

theorem Engine.outAppend_inv {g : Engine} (v : Word) (h : g.Inv) (hb : g.phase = .busy) : (g.outAppend v).Inv :=
  withOut_inv h hb (outAppend_wf v h.outWf)

theorem Engine.outAppendN_inv {g : Engine} (v : Word) (n : Nat) (h : g.Inv) (hb : g.phase = .busy) :
    (outAppendN v n g).Inv := by
  rw [outAppendN_frame]
  exact withOut_inv h hb (outAppendN_wf v n h.outWf)

theorem Engine.setPrev_inv {g : Engine} {v : Word} (h : g.Inv) (hb : g.phase = .busy) (hv : v.toNat ≤ maxWorking g.prec) :
    (g.setPrev v).Inv :=
  { h with
    prev := .inr hv
    idle := by simp [hb] }

/-- An insertion puts a WorkingSample into the slot of its own hash (43_recent_value_cache.md R155). -/
theorem Engine.insert_inv {g : Engine} {v : Word} (h : g.Inv) (hb : g.phase = .busy) (hv : v.toNat ≤ maxWorking g.prec) :
    (g.insert v).Inv :=
  { h with
    slots := fun i => by
      rw [slot_insert]
      split
      next hi => exact .inr ⟨hv, hi.symm⟩
      next => exact h.slots i
    idle := by simp [hb] }

/-! ### The encoder -/

/-- A sample that breaks the run: whatever coded it wrote at most one unit more than the run's samples pay for
(46_encoder_fsm.md R206), and the cache is the old one or has the sample inserted. -/
theorem Enc.coded_inv {e : Enc} {y : Stream} {c : Vector Word 16} (h : e.Inv) (hb : e.phase = .busy)
    (hi : e.idx < e.count) (hy : Stream.Grows (e.run.toNat + 1) e.stream y)
    (hc : c = e.cache ∨ c = (e.toEngine.insert e.sample).cache) :
    Enc.Inv { e.withStream y with idx := e.idx + 1, run := 0, prev := e.sample, cache := c } := by
  have hv : e.sample.toNat ≤ maxWorking e.prec := precGet_le_maxWorking _ _
  have hlt : e.idx.toNat < e.count.toNat := hi
  have hidx : (e.idx + 1).toNat = e.idx.toNat + 1 := count_toNat_succ (by omega)
  have hcache : Engine.Inv { e.toEngine with cache := c } := by
    rcases hc with rfl | rfl
    · exact h.engine
    · exact Engine.insert_inv h.engine hb hv
  have hout := Engine.withOut_inv (m := y.out) (n := y.n) hcache hb (hy.wf h.engine.outWf)
  have hweight : y.n.toNat + y.pend.length ≤ e.outn.toNat + e.pend.length + (e.run.toNat + 1) := hy.weight
  exact
    { engine := Engine.setPrev_inv hout hb hv
      idx := show (e.idx + 1).toNat ≤ e.count.toNat by omega
      pend := hy.pend
      account := show y.n.toNat + y.pend.length + 0 ≤ (e.idx + 1).toNat by have := h.account; omega
      idle := by simp [hb]
      done := by simp [hb]
      faults := h.faults }

/-- A sample that extends the run: it is taken, and no word is written (46_encoder_fsm.md R197). -/
theorem Enc.extended_inv {e : Enc} (h : e.Inv) (hb : e.phase = .busy) (hi : e.idx < e.count) :
    Enc.Inv { e with idx := e.idx + 1, run := e.run + 1 } := by
  have hlt : e.idx.toNat < e.count.toNat := hi
  have haccount := h.account
  have hidx : (e.idx + 1).toNat = e.idx.toNat + 1 := count_toNat_succ (by omega)
  have hrun : (e.run + 1).toNat = e.run.toNat + 1 := count_toNat_succ (by omega)
  exact
    { h with
      idx := by simp only [hidx]; omega
      account := by simp only [hidx, hrun]; omega
      idle := by simp [hb]
      done := by simp [hb] }

/-- The final step packs what is pending, within what the samples pay for (46_encoder_fsm.md R203, R206). -/
theorem Enc.final_inv {e : Enc} (h : e.Inv) (hb : e.phase = .busy) (hi : ¬ e.idx < e.count)
    (hy : Stream.Grows e.run.toNat e.stream e.flushed.pack) :
    Enc.Inv { e.withStream e.flushed.pack with run := 0, phase := .done } := by
  have hidx : e.idx = e.count := BitVec.eq_of_toNat_eq (le_antisymm h.idx (Nat.le_of_not_lt hi))
  have hout := Engine.withOut_inv (n := e.flushed.pack.n) h.engine hb (hy.wf h.engine.outWf)
  exact
    { engine := Engine.finish_inv hout hb
      idx := h.idx
      pend := hy.pend
      account := hy.weight.trans h.account
      idle := by simp
      done := fun _ => ⟨hidx, rfl, Stream.pack_pend _⟩
      faults := h.faults }

/-- Flushing the run of an encoder that meets its invariant: what has been written stays within the samples taken. -/
theorem Enc.Inv.flushed_grows {e : Enc} (h : e.Inv) :
    Stream.Grows e.run.toNat e.stream e.flushed ∧ e.flushed.weight ≤ e.idx.toNat := by
  have haccount : e.stream.weight + e.run.toNat ≤ e.idx.toNat := h.account
  have hgrows := Enc.flushed_grows h.pend (by omega)
  exact ⟨hgrows, hgrows.weight.trans haccount⟩

/-- Every step of a BUSY encoder keeps its invariant. -/
theorem Enc.step_inv {e : Enc} (h : e.Inv) (hb : e.phase = .busy) : e.step.Inv := by
  obtain ⟨hflush, hweight⟩ := h.flushed_grows
  have hpack := Stream.pack_grows hflush.pend (by omega)
  have code_inv (c : Code) (hi : e.idx < e.count) :
      Enc.Inv { e.withStream (e.flushed.code c) with idx := e.idx + 1, run := 0, prev := e.sample } := by
    have hlt : e.idx.toNat < e.count.toNat := hi
    have hn : e.flushed.n.toNat ≤ e.flushed.weight := Nat.le_add_right _ _
    exact coded_inv h hb hi (hflush.trans (Stream.code_grows c hflush.pend (by omega))) (.inl rfl)
  rcases e.step_cases with ⟨hi, -, hs⟩ | ⟨hi, -, -, hs⟩ | ⟨hi, -, -, -, hs⟩ | ⟨hi, -, -, -, hs⟩ | ⟨hi, hs⟩ <;> rw [hs]
  · exact extended_inv h hb hi
  · exact code_inv _ hi
  · exact code_inv _ hi
  · have hlt : e.idx.toNat < e.count.toNat := hi
    have hn : e.flushed.pack.n.toNat ≤ e.flushed.pack.weight := Nat.le_add_right _ _
    have hw := hpack.weight
    have happend := Stream.append_grows (rawWord e.sample) hpack.pend (by omega)
    exact coded_inv h hb hi (hflush.trans (hpack.trans happend)) (.inr rfl)
  · exact final_inv h hb hi (hflush.trans hpack)

/-! ### The decoder -/

/-- A decoder in the middle of a run, its invariant met. -/
structure Dec.Running (d : Dec) : Prop where
  inv : d.Inv
  busy : d.phase = .busy

/-- In the middle of a run only the engine and the bounds of the registers are to be looked at. -/
theorem Dec.running_of_busy {d : Dec} (hb : d.phase = .busy) (hd : d.toEngine.Inv) (hrptr : d.rptr.toNat ≤ d.pcount.toNat)
    (houtn : d.outn.toNat ≤ d.expected.toNat) (hq : d.q.length ≤ 3) : d.Running where
  inv := ⟨hd, hrptr, houtn, hq, by simp [hb], by simp [hb]⟩
  busy := hb

theorem Dec.Running.popCode {d : Dec} (h : d.Running) : d.popCode.Running :=
  have hq : d.q.tail.length ≤ 3 := by have := h.inv.q; rw [List.length_tail]; omega
  running_of_busy h.busy h.inv.engine h.inv.rptr h.inv.outn hq

theorem Dec.Running.nextWord {d : Dec} (h : d.Running) (hlt : d.rptr < d.pcount) : d.nextWord.Running := by
  have hlt : d.rptr.toNat < d.pcount.toNat := hlt
  have hsucc : (d.rptr + 1).toNat = d.rptr.toNat + 1 := count_toNat_succ (by omega)
  exact running_of_busy h.busy h.inv.engine (hsucc.trans_le hlt) h.inv.outn h.inv.q

theorem Dec.Running.pushDigit {d : Dec} (n : Digit) (h : d.Running) : (d.pushDigit n).Running :=
  running_of_busy h.busy h.inv.engine h.inv.rptr h.inv.outn h.inv.q

theorem Dec.Running.fillQueue {d : Dec} (a b c : Code) (h : d.Running) : (d.fillQueue a b c).Running :=
  running_of_busy h.busy h.inv.engine h.inv.rptr h.inv.outn (le_refl 3)

theorem Dec.Running.insert {d : Dec} {v : Word} (h : d.Running) (hv : v.toNat ≤ maxWorking d.prec) :
    (d.insert v).Running :=
  running_of_busy h.busy (Engine.insert_inv h.inv.engine h.busy hv) h.inv.rptr h.inv.outn h.inv.q

/-- A resolution stays within `EXPECTED` (60_exceptions.md R254). -/
theorem Dec.Running.resolve {d d' : Dec} (h : d.Running) (hr : d.resolve = .ok d') : d'.Running := by
  obtain ⟨hres, rfl⟩ := resolve_eq_ok.mp hr
  have hroom : d.outn.toNat + runLength d.acc ≤ d.expected.toNat := by
    have := h.inv.outn
    by_cases h0 : runLength d.acc = 0
    · omega
    · exact (hres h0).2
  have houtn := (afterRun_resolved (d := d) (by omega)).outn
  have hengine := Engine.outAppendN_inv (precSet d.prec d.prev) (runLength d.acc) h.inv.engine h.busy
  exact running_of_busy (by simp [h.busy]) hengine h.inv.rptr (houtn.trans_le hroom) h.inv.q

/-- An emitted sample is within its range and within `EXPECTED` (60_exceptions.md R254, R258). -/
theorem Dec.Running.emit {d d' : Dec} {x : Int} (h : d.Running) (he : d.emit x = .ok d') : d'.Running := by
  obtain ⟨hx, hmax, hne, rfl⟩ := emit_eq_ok.mp he
  have hv : (BitVec.ofInt 16 x).toNat ≤ maxWorking d.prec := by
    lift x to ℕ using hx
    rw [BitVec.ofInt_natCast, BitVec.toNat_ofNat]
    exact (Nat.mod_le _ _).trans (Int.ofNat_le.mp hmax)
  have houtn : d.outn.toNat < d.expected.toNat :=
    lt_of_le_of_ne h.inv.outn fun heq => hne (BitVec.eq_of_toNat_eq heq)
  have hsucc : (d.outn + 1).toNat = d.outn.toNat + 1 := count_toNat_succ (by omega)
  have hengine := Engine.outAppend_inv (precSet d.prec (BitVec.ofInt 16 x)) h.inv.engine h.busy
  exact running_of_busy h.busy (Engine.setPrev_inv hengine h.busy hv) h.inv.rptr (hsucc.trans_le houtn) h.inv.q

theorem Dec.Running.resolveEmit {d d' : Dec} {cur : Dec → Except FaultCode Int} (h : d.Running)
    (hr : d.resolveEmit cur = .ok d') : d'.Running := by
  obtain ⟨d1, x, hres, -, hemit⟩ := resolveEmit_eq_ok.mp hr
  exact (h.resolve hres).emit hemit

/-- A Raw payload that was emitted is a WorkingSample of the parameters in force. -/
theorem Dec.le_maxWorking_of_resolveEmit {d d' : Dec} {n : Nat} (hr : d.resolveEmit (fun _ => .ok n) = .ok d') :
    n ≤ maxWorking d'.prec := by
  obtain ⟨d1, x, -, hcur, hemit⟩ := resolveEmit_eq_ok.mp hr
  obtain ⟨-, hmax, -, rfl⟩ := emit_eq_ok.mp hemit
  cases hcur
  exact Int.ofNat_le.mp hmax

/-- Only a word that is left in the input is read as one (47_decoder_fsm.md R221). -/
theorem Dec.rptr_lt_of_fetch_isWord {d : Dec} {y : Symbol} (hf : d.fetch = some y)
    (hw : (decode d.cfgSel y).isWord = true) : d.rptr < d.pcount := by
  unfold fetch at hf
  split at hf
  next c q hq =>
    cases hf
    simp [decode, decodeCode_isWord] at hw
  next hq =>
    split at hf
    next hlt => exact hlt
    next => cases hf

/-- A symbol that runs leaves the decoder in the middle of its run. -/
theorem Dec.Running.runSymbol {d d' : Dec} {i : Instr} (h : d.Running) (hw : i.isWord = true → d.rptr < d.pcount)
    (hr : d.runSymbol i = .ok d') : d'.Running := by
  cases i with
  | raw v =>
    simp only [Dec.runSymbol] at hr
    split at hr
    next => cases hr
    next d1 hd1 =>
      cases hr
      refine ((h.nextWord (hw rfl)).resolveEmit hd1).insert ?_
      rw [BitVec.toNat_setWidth_of_le (by decide)]
      exact le_maxWorking_of_resolveEmit hd1
  | chunk a b c =>
    cases hr
    exact (h.nextWord (hw rfl)).fillQueue a b c
  | run n =>
    cases hr
    exact h.popCode.pushDigit n
  | pad =>
    cases hr
    exact h.popCode.pushDigit 0
  | cacheA _ => exact h.popCode.resolveEmit hr
  | cacheB _ => exact h.popCode.resolveEmit hr
  | deltaA _ => exact h.popCode.resolveEmit hr
  | deltaB _ => exact h.popCode.resolveEmit hr

/-! ### The decoder's faults -/

/-- The faults of a stream, codes 3 to 7: the others belong to START (60_exceptions.md R250). -/
def FaultCode.ofStream : FaultCode → Bool
  | .none | .cfgPrecisionZero | .cfgTagOverlap => false
  | _ => true

theorem Dec.resolve_error_ofStream {d : Dec} {f : FaultCode} (h : d.resolve = .error f) : f.ofStream = true := by
  obtain ⟨-, ⟨-, rfl⟩ | ⟨-, -, rfl⟩⟩ := resolve_eq_error.mp h <;> rfl

theorem Dec.emit_error_ofStream {d : Dec} {x : Int} {f : FaultCode} (h : d.emit x = .error f) : f.ofStream = true := by
  obtain ⟨-, rfl⟩ | ⟨-, -, rfl⟩ := emit_eq_error.mp h <;> rfl

theorem deltaSample_error_ofStream {m p : Nat} {d : Dec} {f : FaultCode} (h : deltaSample m p d = .error f) :
    f.ofStream = true := by
  unfold deltaSample at h
  split at h <;> cases h
  rfl

theorem cacheSample_error_ofStream {s : BitVec 4} {d : Dec} {f : FaultCode} (h : cacheSample s d = .error f) :
    f.ofStream = true := by
  unfold cacheSample at h
  split at h <;> cases h
  rfl

theorem Dec.resolveEmit_error_ofStream {cur : Dec → Except FaultCode Int} {d : Dec} {f : FaultCode}
    (hc : ∀ d, cur d = .error f → f.ofStream = true) (h : d.resolveEmit cur = .error f) : f.ofStream = true := by
  obtain hr | ⟨d1, -, hs | ⟨x, -, he⟩⟩ := resolveEmit_eq_error.mp h
  · exact resolve_error_ofStream hr
  · exact hc d1 hs
  · exact emit_error_ofStream he

/-- No symbol raises a fault of START. -/
theorem Dec.runSymbol_error_ofStream {d : Dec} {i : Instr} {f : FaultCode} (h : d.runSymbol i = .error f) :
    f.ofStream = true := by
  cases i with
  | raw v =>
    simp only [runSymbol] at h
    split at h <;> cases h
    next hd => exact resolveEmit_error_ofStream (fun _ hc => by cases hc) hd
  | chunk a b c => cases h
  | run n => cases h
  | pad => cases h
  | cacheA _ => exact resolveEmit_error_ofStream (fun _ => cacheSample_error_ofStream) h
  | cacheB _ => exact resolveEmit_error_ofStream (fun _ => cacheSample_error_ofStream) h
  | deltaA _ => exact resolveEmit_error_ofStream (fun _ => deltaSample_error_ofStream) h
  | deltaB _ => exact resolveEmit_error_ofStream (fun _ => deltaSample_error_ofStream) h

theorem Dec.final_error_ofStream {d : Dec} {f : FaultCode} (h : d.final = .error f) : f.ofStream = true := by
  unfold final at h
  split at h
  next hr =>
    cases h
    exact resolve_error_ofStream hr
  next =>
    split at h <;> cases h
    rfl

/-- A fault discards the step, so nothing but `PHASE` and `FAULT` is to be looked at (60_exceptions.md R256). -/
theorem Dec.settle_error_inv {d : Dec} {f : FaultCode} (h : d.Running) (hf : f.ofStream = true) :
    (d.settle (.error f)).Inv :=
  { h.inv with
    engine := Engine.raise_inv h.inv.engine (by rintro rfl; cases hf) (by rintro rfl; cases hf)
    idle := by simp
    done := by simp }

/-! ### A decoder step -/

/-- The final step is taken with the queue empty and the input used up (47_decoder_fsm.md R220). -/
theorem Dec.fetch_eq_none {d : Dec} (h : d.fetch = none) : d.q = [] ∧ ¬ d.rptr < d.pcount := by
  unfold fetch at h
  split at h
  next => cases h
  next hq =>
    split at h
    next => cases h
    next hlt => exact ⟨hq, hlt⟩

/-- A final step that succeeds leaves nothing to be done (47_decoder_fsm.md R230). -/
theorem Dec.final_inv {d d' : Dec} (h : d.Running) (hf : d.fetch = none) (hr : d.final = .ok d') : d'.Inv := by
  obtain ⟨hq, hlt⟩ := fetch_eq_none hf
  have hrptr : d.rptr = d.pcount :=
    BitVec.eq_of_toNat_eq (le_antisymm h.inv.rptr (Nat.le_of_not_lt hlt))
  unfold final at hr
  split at hr
  next => cases hr
  next d1 hd1 =>
    have hrun := h.resolve hd1
    obtain ⟨-, rfl⟩ := resolve_eq_ok.mp hd1
    split at hr
    next hfull =>
      cases hr
      exact { hrun.inv with
        engine := Engine.finish_inv hrun.inv.engine hrun.busy
        idle := by simp
        done := fun _ => ⟨hrptr, hq, rfl, hfull⟩ }
    next => cases hr

/-- Every step of a BUSY decoder keeps its invariant. -/
theorem Dec.step_inv {d : Dec} (h : d.Running) : d.step.Inv := by
  unfold step
  split
  next y hy =>
    cases hr : d.runSymbol (decode d.cfgSel y) with
    | ok d' => exact (h.runSymbol (rptr_lt_of_fetch_isWord hy) hr).inv
    | error f => exact settle_error_inv h (runSymbol_error_ofStream hr)
  next hy =>
    cases hr : d.final with
    | ok d' => exact final_inv h hy hr
    | error f => exact settle_error_inv h (final_error_ofStream hr)

/-! ### The moves -/

theorem Enc.advance_inv {e : Enc} (h : e.Inv) : e.advance.Inv := by
  unfold advance
  split
  next hb => exact step_inv h hb
  next => exact h

theorem Dec.advance_inv {d : Dec} (h : d.Inv) : d.advance.Inv := by
  unfold advance
  split
  next hb => exact step_inv ⟨h, hb⟩
  next => exact h

/-- An idle encoder meets its invariant as soon as its working state is fresh: `COUNT` is free. -/
theorem Enc.inv_of_fresh {e : Enc} (he : e.toEngine.Inv) (hp : e.phase = .idle) (hf : e.Fresh) : e.Inv where
  engine := he
  idx := by simp [hf.idx]
  pend := by simp [hf.pend]
  account := by simp [hf.engine.outn, hf.pend, hf.run, hf.idx]
  idle _ := hf
  done := by simp [hp]
  faults := .inl (he.fault_of_idle hp)

/-- An idle decoder meets its invariant as soon as its working state is fresh: `PCOUNT` and `EXPECTED` are free. -/
theorem Dec.inv_of_fresh {d : Dec} (hd : d.toEngine.Inv) (hp : d.phase = .idle) (hf : d.Fresh) : d.Inv where
  engine := hd
  rptr := by simp [hf.rptr]
  outn := by simp [hf.engine.outn]
  q := by simp [hf.q]
  idle _ := hf
  done := by simp [hp]

theorem Enc.hardReset_inv {e : Enc} (h : e.Inv) : e.hardReset.Inv :=
  inv_of_fresh (Engine.hardReset_inv h.engine) rfl ⟨Engine.hardReset_fresh _, rfl, rfl, rfl⟩

theorem Enc.softReset_inv {e : Enc} (h : e.Inv) : e.softReset.Inv :=
  inv_of_fresh (Engine.softReset_inv h.engine) rfl ⟨Engine.softReset_fresh _, rfl, rfl, rfl⟩

theorem Dec.hardReset_inv {d : Dec} (h : d.Inv) : d.hardReset.Inv :=
  inv_of_fresh (Engine.hardReset_inv h.engine) rfl ⟨Engine.hardReset_fresh _, rfl, rfl, rfl⟩

theorem Dec.softReset_inv {d : Dec} (h : d.Inv) : d.softReset.Inv :=
  inv_of_fresh (Engine.softReset_inv h.engine) rfl ⟨Engine.softReset_fresh _, rfl, rfl, rfl⟩

/-- START of the encoder. -/
theorem Enc.start_inv {e : Enc} (h : e.Inv) : Enc.Inv { e with toEngine := e.toEngine.start } := by
  have hengine := Engine.start_inv h.engine
  rw [Engine.start_eq] at hengine ⊢
  split_ifs at hengine ⊢
  · exact { h with engine := hengine, idle := by simp, done := by simp, faults := .inr rfl }
  · exact { h with engine := hengine, idle := by simp, done := by simp }
  · exact h

/-- START of the decoder. -/
theorem Dec.start_inv {d : Dec} (h : d.Inv) : Dec.Inv { d with toEngine := d.toEngine.start } := by
  have hengine := Engine.start_inv h.engine
  rw [Engine.start_eq] at hengine ⊢
  split_ifs at hengine ⊢
  · exact { h with engine := hengine, idle := by simp, done := by simp }
  · exact { h with engine := hengine, idle := by simp, done := by simp }
  · exact h

/-- A write of the host reaches the registers of an idle encoder alone, or resets or starts it. -/
theorem Enc.writeReg_inv {e : Enc} (r : EncReg) (v : BitVec 32) (h : e.Inv) : (e.writeReg r v).Inv := by
  cases r with
  | ctrl =>
    simp only [writeReg]
    split_ifs
    · exact softReset_inv h
    · exact start_inv h
    · exact h
  | cfg =>
    simp only [writeReg]
    split_ifs with hp
    · obtain ⟨hfresh, hidx, hrun, hpend⟩ := h.idle hp
      exact inv_of_fresh (Engine.writeCfg_inv v h.engine hp) hp ⟨Engine.writeCfg_fresh v hfresh, hidx, hrun, hpend⟩
    · exact h
  | count =>
    simp only [writeReg]
    split_ifs with hp
    · obtain ⟨hfresh, hidx, hrun, hpend⟩ := h.idle hp
      exact inv_of_fresh h.engine hp ⟨hfresh, hidx, hrun, hpend⟩
    · exact h
  | status => exact h
  | outn => exact h
  | idx => exact h

/-- The same for the decoder. -/
theorem Dec.writeReg_inv {d : Dec} (r : DecReg) (v : BitVec 32) (h : d.Inv) : (d.writeReg r v).Inv := by
  cases r with
  | ctrl =>
    simp only [writeReg]
    split_ifs
    · exact softReset_inv h
    · exact start_inv h
    · exact h
  | cfg =>
    simp only [writeReg]
    split_ifs with hp
    · obtain ⟨hfresh, hrptr, hq, hacc⟩ := h.idle hp
      exact inv_of_fresh (Engine.writeCfg_inv v h.engine hp) hp ⟨Engine.writeCfg_fresh v hfresh, hrptr, hq, hacc⟩
    · exact h
  | pcount =>
    simp only [writeReg]
    split_ifs with hp
    · obtain ⟨hfresh, hrptr, hq, hacc⟩ := h.idle hp
      exact inv_of_fresh h.engine hp ⟨hfresh, hrptr, hq, hacc⟩
    · exact h
  | expected =>
    simp only [writeReg]
    split_ifs with hp
    · obtain ⟨hfresh, hrptr, hq, hacc⟩ := h.idle hp
      exact inv_of_fresh h.engine hp ⟨hfresh, hrptr, hq, hacc⟩
    · exact h
  | status => exact h
  | outn => exact h
  | rptr => exact h

theorem Enc.hostPlace_inv {e : Enc} (i : Count) (v : Word) (h : e.Inv) :
    Enc.Inv { e with toEngine := e.toEngine.hostPlace i v } :=
  { h with
    engine := Engine.hostPlace_inv i v h.engine
    idle := fun hp =>
      have hf := h.idle hp
      ⟨Engine.hostPlace_fresh i v hf.engine, hf.idx, hf.run, hf.pend⟩ }

theorem Dec.hostPlace_inv {d : Dec} (i : Count) (v : Word) (h : d.Inv) :
    Dec.Inv { d with toEngine := d.toEngine.hostPlace i v } :=
  { h with
    engine := Engine.hostPlace_inv i v h.engine
    idle := fun hp =>
      have hf := h.idle hp
      ⟨Engine.hostPlace_fresh i v hf.engine, hf.rptr, hf.q, hf.acc⟩ }

/-! ### The pair -/

theorem stepEngine_inv {e : Side} {s t : State} (h : s.Inv) (ht : stepEngine e s = .next t) : t.Inv := by
  cases e with
  | enc =>
    rw [stepEngine_enc] at ht
    cases ht
    exact ⟨Enc.advance_inv h.enc, h.dec⟩
  | dec =>
    rw [stepEngine_dec] at ht
    cases ht
    exact ⟨h.enc, Dec.advance_inv h.dec⟩

theorem hostWriteReg_inv {e : Side} {no : Nat} {v : BitVec 32} {s t : State} (h : s.Inv)
    (ht : hostWriteReg e no v s = .next t) : t.Inv := by
  cases e with
  | enc =>
    simp only [hostWriteReg] at ht
    split at ht <;> cases ht
    exact ⟨Enc.writeReg_inv _ v h.enc, h.dec⟩
  | dec =>
    simp only [hostWriteReg] at ht
    split at ht <;> cases ht
    exact ⟨h.enc, Dec.writeReg_inv _ v h.dec⟩

/-- A read of a register changes nothing but what it delivers. -/
theorem hostReadReg_inv {e : Side} {no : Nat} {s t : State} (h : s.Inv) (ht : hostReadReg e no s = .next t) : t.Inv := by
  cases e with
  | enc =>
    simp only [hostReadReg] at ht
    split at ht <;> cases ht
    exact ⟨h.enc, h.dec⟩
  | dec =>
    simp only [hostReadReg] at ht
    split at ht <;> cases ht
    exact ⟨h.enc, h.dec⟩

theorem hostWriteIn_inv {e : Side} {i : Count} {v : Word} {s t : State} (h : s.Inv)
    (ht : hostWriteIn e i v s = .next t) : t.Inv := by
  cases e with
  | enc =>
    simp only [hostWriteIn] at ht
    split at ht <;> cases ht
    exact ⟨Enc.hostPlace_inv i v h.enc, h.dec⟩
  | dec =>
    simp only [hostWriteIn] at ht
    split at ht <;> cases ht
    exact ⟨h.enc, Dec.hostPlace_inv i v h.dec⟩

theorem hostReadOut_inv {e : Side} {i : Count} {s t : State} (h : s.Inv) (ht : hostReadOut e i s = .next t) : t.Inv := by
  cases e <;> cases ht <;> exact ⟨h.enc, h.dec⟩

/-- Every move keeps the invariant. -/
theorem stepMove_inv {m : Move} {s t : State} (h : s.Inv) (ht : stepMove m s = .next t) : t.Inv := by
  cases m with
  | engine e => exact stepEngine_inv h ht
  | hardReset =>
    cases ht
    exact ⟨Enc.hardReset_inv h.enc, Dec.hardReset_inv h.dec⟩
  | writeReg e no v => exact hostWriteReg_inv h ht
  | readReg e no => exact hostReadReg_inv h ht
  | writeIn e i v => exact hostWriteIn_inv h ht
  | readOut e i => exact hostReadOut_inv h ht

theorem stepTurn_inv {s t : State} (h : s.Inv) (ht : stepTurn s = .next t) : t.Inv := by
  unfold stepTurn at ht
  split at ht
  · exact stepEngine_inv (s := { s with turn := s.turn.other }) ⟨h.enc, h.dec⟩ ht
  · exact stepEngine_inv h ht

/-- Settles O51: the invariant speaks of the two engines alone, so a step keeps it because each move of an engine or of the
host does. -/
theorem everyStepKeepsTheInvariant : Obligations.EveryStepKeepsTheInvariant := by
  unfold Obligations.EveryStepKeepsTheInvariant
  intro s t h ht
  unfold step at ht
  split at ht
  next m rest hm => exact stepMove_inv (s := { s with agenda := rest }) ⟨h.enc, h.dec⟩ ht
  next => exact stepTurn_inv h ht

end Sys2Proof.Machine
end

section
/-!
SUPPORT. The family 10_state.md: the bounded form of the run accumulator (10_state.md R27).
-/

namespace Sys2Proof.Machine

open Sys2Proof

theorem runLength_lt (acc : List Digit) : runLength acc < 8 ^ acc.length := by
  induction acc with
  | nil => simp
  | cons p ps ih =>
    rw [runLength_cons, List.length_cons, pow_succ]
    omega

theorem runLength_concat (acc : List Digit) (p : Digit) :
    runLength (acc ++ [p]) = runLength acc + 8 ^ acc.length * p.toNat := by
  rw [runLength_append, runLength_cons, runLength_nil, Nat.mul_zero, Nat.add_zero]

theorem boundedAccOf_concat (acc : List Digit) (p : Digit) :
    boundedAccOf (acc ++ [p]) = boundedAccPush (boundedAccOf acc) p := by
  simp [boundedAccOf]

/-- The bounded accumulator `b` stands for the list `acc`. -/
structure BoundedAcc.Agrees (b : BoundedAcc) (acc : List Digit) : Prop where
  n : b.n = min acc.length 11
  value : b.ovf = false → b.val.toNat = runLength acc
  above : b.ovf = true → 2 ^ 32 ≤ runLength acc

/-- A digit that is added in its place keeps the length below `2^32`: `2^32` is a multiple of the digit's weight. -/
theorem runLength_concat_lt {acc : List Digit} {p : Digit} (hl : acc.length ≤ 10)
    (hp : 8 ^ acc.length * p.toNat < 2 ^ 32) : runLength (acc ++ [p]) < 2 ^ 32 := by
  have hweight : (2 : ℕ) ^ 32 = 8 ^ acc.length * 2 ^ (32 - 3 * acc.length) := by
    rw [show (8 : ℕ) = 2 ^ 3 from rfl, ← pow_mul, ← pow_add, Nat.add_sub_cancel' (by omega)]
  have hdigit : p.toNat + 1 ≤ 2 ^ (32 - 3 * acc.length) := Nat.lt_of_mul_lt_mul_left (hweight ▸ hp)
  calc runLength (acc ++ [p]) = runLength acc + 8 ^ acc.length * p.toNat := runLength_concat acc p
    _ < 8 ^ acc.length + 8 ^ acc.length * p.toNat := Nat.add_lt_add_right (runLength_lt acc) _
    _ = 8 ^ acc.length * (p.toNat + 1) := by ring
    _ ≤ 8 ^ acc.length * 2 ^ (32 - 3 * acc.length) := Nat.mul_le_mul_left _ hdigit
    _ = 2 ^ 32 := hweight.symm

/-- A digit that is not 0 and not added is worth `2^32` or more in its place. -/
theorem le_runLength_concat {acc : List Digit} {p : Digit} (hp : p ≠ 0)
    (h : 11 ≤ acc.length ∨ 2 ^ 32 ≤ 8 ^ acc.length * p.toNat) : 2 ^ 32 ≤ runLength (acc ++ [p]) := by
  rw [runLength_concat]
  rcases h with hl | hl
  · have hpos : 1 ≤ p.toNat := Nat.one_le_iff_ne_zero.mpr fun h0 => hp (BitVec.eq_of_toNat_eq h0)
    calc 2 ^ 32 ≤ 8 ^ 11 * 1 := by norm_num
      _ ≤ 8 ^ acc.length * p.toNat := Nat.mul_le_mul (Nat.pow_le_pow_right (by norm_num) hl) hpos
      _ ≤ runLength acc + 8 ^ acc.length * p.toNat := Nat.le_add_left _ _
  · omega

/-- The empty bounded accumulator stands for the empty list. -/
theorem boundedAccEmpty_agrees : boundedAccEmpty.Agrees [] :=
  ⟨rfl, fun _ => rfl, fun h => by cases h⟩

/-- Appending a payload keeps the agreement: a payload that is added is worth what it is in the list, and one that is not is
0 or takes the length above every 32-bit bound. -/
theorem boundedAccPush_agrees {b : BoundedAcc} {acc : List Digit} (p : Digit) (h : b.Agrees acc) :
    (boundedAccPush b p).Agrees (acc ++ [p]) := by
  have hn := h.n
  have hnext : min (b.n + 1) 11 = min (acc ++ [p]).length 11 := by
    rw [List.length_append, List.length_singleton]
    omega
  have habove : b.ovf = true → 2 ^ 32 ≤ runLength (acc ++ [p]) := fun ho => by
    rw [runLength_concat]
    exact Nat.le_add_right_of_le (h.above ho)
  have hworth (hlt : b.n < 11) : p.toNat <<< (runW * b.n) = 8 ^ acc.length * p.toNat := by
    rw [show b.n = acc.length by omega, Nat.shiftLeft_eq, pow_mul, Nat.mul_comm]
    rfl
  unfold boundedAccPush
  split
  next hin =>
    obtain ⟨hlt, hfits⟩ := hin
    refine ⟨hnext, fun ho => ?_, habove⟩
    rw [hworth hlt] at hfits ⊢
    have hsum := runLength_concat_lt (by omega) hfits
    rw [runLength_concat] at hsum ⊢
    rw [BitVec.toNat_add, BitVec.toNat_ofNat, h.value ho, Nat.mod_eq_of_lt hfits, Nat.mod_eq_of_lt hsum]
  next hout =>
    refine ⟨hnext, fun ho => ?_, fun ho => ?_⟩
    · obtain ⟨hb, hp⟩ := Bool.or_eq_false_iff.mp ho
      obtain rfl : p = 0 := by simpa using hp
      rw [h.value hb, runLength_concat]
      simp
    · rcases Bool.or_eq_true_iff.mp ho with hb | hp
      · exact habove hb
      · refine le_runLength_concat (by simpa using hp) ?_
        by_cases hlt : b.n < 11
        · exact .inr (hworth hlt ▸ Nat.le_of_not_lt fun hfits => hout ⟨hlt, hfits⟩)
        · exact .inl (by omega)

theorem boundedAccOf_agrees (acc : List Digit) : (boundedAccOf acc).Agrees acc := by
  induction acc using List.reverseRecOn with
  | nil => exact boundedAccEmpty_agrees
  | append_singleton acc p ih =>
    rw [boundedAccOf_concat]
    exact boundedAccPush_agrees p ih

/-- Settles O13, by induction on the payloads in arrival order. -/
theorem boundedAccumulatorAgrees : Obligations.BoundedAccumulatorAgrees := by
  unfold Obligations.BoundedAccumulatorAgrees
  intro acc
  obtain ⟨hn, hvalue, habove⟩ := boundedAccOf_agrees acc
  exact ⟨hn, hvalue, habove⟩

end Sys2Proof.Machine
end

section
/-!
SUPPORT. The family 20_memory.md, first part: what a symbol does to the decoder when it runs, and what it leaves alone
(47_decoder_fsm.md R239).
-/

namespace Sys2Proof.Machine

open Sys2Proof

/-! ### What every symbol leaves alone -/

theorem Dec.SameRun.trans {d d' d'' : Dec} (h : d.SameRun d') (h' : d'.SameRun d'') : d.SameRun d'' :=
  ⟨h'.prec.trans h.prec, h'.hashShift.trans h.hashShift, h'.cfgSel.trans h.cfgSel, h'.pcount.trans h.pcount,
    h'.expected.trans h.expected, h'.inBuf.trans h.inBuf⟩

/-- The decoder with the symbol taken from its input: a word at `RPTR` or the head of `Q` (47_decoder_fsm.md R221). -/
def Dec.consume (i : Instr) (d : Dec) : Dec :=
  if i.isWord then d.nextWord else d.popCode

@[simp] theorem Dec.consume_toEngine (i : Instr) (d : Dec) : (d.consume i).toEngine = d.toEngine := by
  unfold consume
  split <;> rfl

@[simp] theorem Dec.consume_pcount (i : Instr) (d : Dec) : (d.consume i).pcount = d.pcount := by
  unfold consume
  split <;> rfl

@[simp] theorem Dec.consume_expected (i : Instr) (d : Dec) : (d.consume i).expected = d.expected := by
  unfold consume
  split <;> rfl

@[simp] theorem Dec.consume_acc (i : Instr) (d : Dec) : (d.consume i).acc = d.acc := by
  unfold consume
  split <;> rfl

theorem Dec.consume_sameRun (i : Instr) (d : Dec) : d.SameRun (d.consume i) := by
  constructor <;> simp

/-- What a symbol that runs has done: either it emitted nothing and left the engine, `PCOUNT` and `EXPECTED` as they were
(CHUNK, RUN, PAD), or it was consumed, resolved the run and emitted one sample (CACHE, DELTA), which RAW then inserts in the
cache (47_decoder_fsm.md R222 to R226). -/
theorem Dec.runSymbol_cases {d d' : Dec} {i : Instr} (h : d.runSymbol i = .ok d') :
    (d'.toEngine = d.toEngine ∧ d'.pcount = d.pcount ∧ d'.expected = d.expected) ∨
      ∃ cur d1, (d.consume i).resolveEmit cur = .ok d1 ∧ (d' = d1 ∨ ∃ v, d' = d1.insert v) := by
  cases i with
  | raw v =>
    simp only [runSymbol] at h
    split at h <;> cases h
    next d1 hd1 => exact .inr ⟨_, d1, hd1, .inr ⟨_, rfl⟩⟩
  | chunk a b c =>
    cases h
    exact .inl ⟨rfl, rfl, rfl⟩
  | run n =>
    cases h
    exact .inl ⟨rfl, rfl, rfl⟩
  | pad =>
    cases h
    exact .inl ⟨rfl, rfl, rfl⟩
  | cacheA _ => exact .inr ⟨_, d', h, .inl rfl⟩
  | cacheB _ => exact .inr ⟨_, d', h, .inl rfl⟩
  | deltaA _ => exact .inr ⟨_, d', h, .inl rfl⟩
  | deltaB _ => exact .inr ⟨_, d', h, .inl rfl⟩

/-- A symbol that runs keeps the parameters, the counts, the input, and every cell of `OUT` below the old `OUTN`. -/
theorem Dec.runSymbol_frame {d d' : Dec} {i : Instr} (h : d.runSymbol i = .ok d') :
    d.SameRun d' ∧ ∀ a, a < d.outn.toNat → d'.outBuf.read? a = d.outBuf.read? a := by
  rcases runSymbol_cases h with ⟨he, hp, hx⟩ | ⟨cur, d1, hd1, hins⟩
  · exact ⟨by constructor <;> simp [he, hp, hx], fun a _ => by rw [he]⟩
  · obtain ⟨hsame, -, -, -, hcells⟩ := resolveEmit_frame hd1
    have hsame := (d.consume_sameRun i).trans hsame
    rw [consume_toEngine] at hcells
    rcases hins with rfl | ⟨v, rfl⟩
    · exact ⟨hsame, hcells⟩
    · exact ⟨hsame.trans ⟨rfl, rfl, rfl, rfl, rfl, rfl⟩, hcells⟩

/-- Settles O25: a symbol sees the decoder alone, and there it runs within the frame of `Dec.runSymbol_frame` or faults,
which touches `PHASE` and `FAULT` only. -/
theorem symbolsChangeOnlyStreamState : Obligations.SymbolsChangeOnlyStreamState := by
  unfold Obligations.SymbolsChangeOnlyStreamState
  intro i s t ht
  obtain rfl := exec_eq_next.mp ht
  refine ⟨⟨rfl, rfl, rfl, rfl⟩, ?_⟩
  cases hr : s.dec.runSymbol i with
  | ok d' => exact Dec.runSymbol_frame hr
  | error f => exact ⟨⟨rfl, rfl, rfl, rfl, rfl, rfl⟩, fun _ _ => rfl⟩

end Sys2Proof.Machine
end

section
/-!
SUPPORT. The family 20_memory.md, second part: the decoder never reads `OUT` (20_memory.md R63). A step on another `OUT`
differs in `OUT` alone (`Dec.advance_withOut`), and the cells it writes are a function of the rest of the decoder
(`Dec.Fills`).
-/

namespace Sys2Proof.Machine

open Sys2Proof

/-! ### The same decoder over another `OUT` -/

/-- The decoder with `m` in `OUT`. -/
def Dec.withOut (m : Memory) (d : Dec) : Dec :=
  { d with outBuf := m }

@[simp] theorem Dec.withOut_outn (m : Memory) (d : Dec) : (d.withOut m).outn = d.outn := rfl
@[simp] theorem Dec.withOut_expected (m : Memory) (d : Dec) : (d.withOut m).expected = d.expected := rfl
@[simp] theorem Dec.withOut_phase (m : Memory) (d : Dec) : (d.withOut m).phase = d.phase := rfl
@[simp] theorem Dec.withOut_fetch (m : Memory) (d : Dec) : (d.withOut m).fetch = d.fetch := rfl
@[simp] theorem Dec.withOut_nextWord (m : Memory) (d : Dec) : (d.withOut m).nextWord = d.nextWord.withOut m := rfl

/-- An operation of the decoder does not see `OUT`: over another `OUT` it ends the same way, in a state that differs in
`OUT` alone. -/
def Dec.IgnoresOut (op : Dec → Except FaultCode Dec) : Prop :=
  ∀ (d : Dec) (m : Memory), ∃ m', op (d.withOut m) = (op d).map (Dec.withOut m')

theorem Engine.outAppendN_withOut (v : Word) (n : Nat) (g : Engine) (m : Memory) :
    ∃ m', outAppendN v n { g with outBuf := m } = { outAppendN v n g with outBuf := m' } := by
  rw [outAppendN_frame, outAppendN_frame v n g, outAppendN_outn, outAppendN_outn]
  exact ⟨_, rfl⟩

theorem Dec.resolve_ignoresOut : IgnoresOut resolve := by
  intro d m
  cases hr : d.resolve with
  | error f =>
    have hf := resolve_eq_error.mp hr
    exact ⟨m, resolve_eq_error.mpr hf⟩
  | ok d1 =>
    obtain ⟨hres, rfl⟩ := resolve_eq_ok.mp hr
    obtain ⟨m', hm'⟩ := Engine.outAppendN_withOut (precSet d.prec d.prev) (runLength d.acc) d.toEngine m
    exact ⟨m', resolve_eq_ok.mpr ⟨hres, congrArg (fun g => { d with acc := [], toEngine := g }) hm'.symm⟩⟩

theorem Dec.emit_ignoresOut (x : Int) : IgnoresOut (emit x) := by
  intro d m
  cases he : d.emit x with
  | error f =>
    have hf := emit_eq_error.mp he
    exact ⟨m, emit_eq_error.mpr hf⟩
  | ok d1 =>
    obtain ⟨h0, hmax, hne, rfl⟩ := emit_eq_ok.mp he
    exact ⟨_, emit_eq_ok.mpr ⟨h0, hmax, hne, rfl⟩⟩

theorem Dec.resolveEmit_ignoresOut {cur : Dec → Except FaultCode Int} (hcur : ∀ d m, cur (d.withOut m) = cur d) :
    IgnoresOut (resolveEmit cur) := by
  intro d m
  obtain ⟨m1, hm1⟩ := resolve_ignoresOut d m
  unfold resolveEmit
  rw [hm1]
  cases d.resolve with
  | error f => exact ⟨m, rfl⟩
  | ok d1 =>
    simp only [Except.map, hcur]
    cases cur d1 with
    | error f => exact ⟨m, rfl⟩
    | ok x => exact emit_ignoresOut x d1 m1

/-- No symbol sees `OUT`: what it takes its sample from is the payload, `PREV` or the cache. -/
theorem Dec.runSymbol_ignoresOut (i : Instr) : IgnoresOut (runSymbol i) := by
  intro d m
  cases i with
  | raw v =>
    obtain ⟨m', hm'⟩ := resolveEmit_ignoresOut (cur := fun _ => .ok v.toNat) (fun _ _ => rfl) d.nextWord m
    refine ⟨m', ?_⟩
    simp only [runSymbol, withOut_nextWord, hm']
    cases d.nextWord.resolveEmit fun _ => .ok v.toNat <;> rfl
  | chunk a b c => exact ⟨m, rfl⟩
  | run n => exact ⟨m, rfl⟩
  | pad => exact ⟨m, rfl⟩
  | cacheA _ => exact resolveEmit_ignoresOut (fun _ _ => rfl) d.popCode m
  | cacheB _ => exact resolveEmit_ignoresOut (fun _ _ => rfl) d.popCode m
  | deltaA _ => exact resolveEmit_ignoresOut (fun _ _ => rfl) d.popCode m
  | deltaB _ => exact resolveEmit_ignoresOut (fun _ _ => rfl) d.popCode m

theorem Dec.final_of_resolve_error {d : Dec} {f : FaultCode} (h : d.resolve = .error f) : d.final = .error f := by
  rw [final, h]

theorem Dec.final_of_full {d d1 : Dec} (h : d.resolve = .ok d1) (hfull : d1.outn = d1.expected) :
    d.final = .ok { d1 with phase := .done } := by
  rw [final, h]
  exact if_pos hfull

theorem Dec.final_of_not_full {d d1 : Dec} (h : d.resolve = .ok d1) (hne : d1.outn ≠ d1.expected) :
    d.final = .error .decTruncated := by
  rw [final, h]
  exact if_neg hne

theorem Dec.final_ignoresOut : IgnoresOut final := by
  intro d m
  obtain ⟨m', hm'⟩ := resolve_ignoresOut d m
  refine ⟨m', ?_⟩
  cases hr : d.resolve with
  | error f =>
    rw [hr] at hm'
    rw [final_of_resolve_error hm', final_of_resolve_error hr]
    rfl
  | ok d1 =>
    rw [hr] at hm'
    by_cases hfull : d1.outn = d1.expected
    · rw [final_of_full hm' hfull, final_of_full hr hfull]
      rfl
    · rw [final_of_not_full hm' hfull, final_of_not_full hr hfull]
      rfl

/-- A step that ended in a fault leaves `OUT` as it was, any other as its operation left it. -/
theorem Dec.IgnoresOut.settle {op : Dec → Except FaultCode Dec} (h : IgnoresOut op) (d : Dec) (m : Memory) :
    ∃ m', (d.withOut m).settle (op (d.withOut m)) = (d.settle (op d)).withOut m' := by
  obtain ⟨m', hm'⟩ := h d m
  rw [hm']
  cases op d with
  | ok d' => exact ⟨m', rfl⟩
  | error f => exact ⟨m, rfl⟩

theorem Dec.step_withOut (d : Dec) (m : Memory) : ∃ m', (d.withOut m).step = d.step.withOut m' := by
  unfold step
  rw [withOut_fetch]
  cases d.fetch with
  | some y => exact (runSymbol_ignoresOut (decode d.cfgSel y)).settle d m
  | none => exact final_ignoresOut.settle d m

/-- A move of the decoder over another `OUT` ends in a state that differs in `OUT` alone. -/
theorem Dec.advance_withOut (d : Dec) (m : Memory) : ∃ m', (d.withOut m).advance = d.advance.withOut m' := by
  unfold advance
  rw [withOut_phase]
  split
  · exact d.step_withOut m
  · exact ⟨m, rfl⟩

/-! ### The cells a step writes -/

/-- Every cell of `OUT` after a step, from what was in `OUT` and the rest of the decoder: the cells from the old `OUTN` up to
the new one hold the run's copies of the old `PREV` and then the new `PREV`, every other cell is as before
(47_decoder_fsm.md R228, R229). -/
def Dec.Fills (d d' : Dec) : Prop :=
  ∀ a, d'.outBuf.read? a =
    if a < d.outn.toNat ∨ d'.outn.toNat ≤ a then d.outBuf.read? a
    else some (precSet d.prec (if a < d.outn.toNat + runLength d.acc then d.prev else d'.prev))

/-- Where nothing is written, nothing changes. -/
theorem Dec.fills_of_toEngine_eq {d d' : Dec} (h : d'.toEngine = d.toEngine) : d.Fills d' := by
  intro a
  rw [h, if_pos (by omega)]

theorem Dec.resolve_fills {d d' : Dec} (h : d.resolve = .ok d') : d.Fills d' := by
  obtain ⟨hres, rfl⟩ := resolve_eq_ok.mp h
  have hlt : d.outn.toNat + runLength d.acc < 2 ^ 32 := by
    by_cases hn : runLength d.acc = 0
    · omega
    · have := (hres hn).2
      omega
  have hout : d.afterRun.outn.toNat = d.outn.toNat + runLength d.acc := (afterRun_resolved hlt).outn
  show d.Fills d.afterRun
  intro a
  rw [hout]
  split
  next ha => exact (afterRun_resolved hlt).otherCells a ha
  next ha =>
    rw [if_pos (by omega)]
    obtain ⟨k, rfl⟩ := Nat.exists_eq_add_of_le (show d.outn.toNat ≤ a by omega)
    exact (afterRun_resolved hlt).runCells k (by omega)

theorem Dec.resolveEmit_fills {d d' : Dec} {cur : Dec → Except FaultCode Int} (hle : d.outn.toNat ≤ d.expected.toNat)
    (h : d.resolveEmit cur = .ok d') : d.Fills d' := by
  obtain ⟨hout, hcells⟩ := resolveEmit_cells h hle
  intro a
  rw [hcells, hout]
  split_ifs <;> rfl

theorem Dec.runSymbol_fills {d d' : Dec} {i : Instr} (hle : d.outn.toNat ≤ d.expected.toNat)
    (h : d.runSymbol i = .ok d') : d.Fills d' := by
  rcases runSymbol_cases h with ⟨he, -, -⟩ | ⟨cur, d1, hd1, hins⟩
  · exact fills_of_toEngine_eq he
  · have hfills := resolveEmit_fills (by simpa using hle) hd1
    simp only [Fills, consume_toEngine, consume_acc] at hfills
    rcases hins with rfl | ⟨v, rfl⟩ <;> exact hfills

theorem Dec.final_fills {d d' : Dec} (h : d.final = .ok d') : d.Fills d' := by
  unfold final at h
  split at h
  next => cases h
  next d1 hd1 =>
    have hfills := resolve_fills hd1
    split at h <;> cases h
    exact hfills

theorem Dec.settle_fills {d : Dec} {r : Except FaultCode Dec} (h : ∀ d', r = .ok d' → d.Fills d') :
    d.Fills (d.settle r) := by
  cases r with
  | ok d' => exact h d' rfl
  | error f =>
    intro a
    exact (if_pos (Nat.lt_or_ge a d.outn.toNat)).symm

theorem Dec.step_fills {d : Dec} (hle : d.outn.toNat ≤ d.expected.toNat) : d.Fills d.step := by
  unfold step
  split
  next => exact settle_fills fun _ => runSymbol_fills hle
  next => exact settle_fills fun _ => final_fills

theorem Dec.advance_fills {d : Dec} (hle : d.outn.toNat ≤ d.expected.toNat) : d.Fills d.advance := by
  unfold advance
  split
  · exact step_fills hle
  · exact fills_of_toEngine_eq rfl

/-! ### The pair -/

/-- Two ends that differ in `OUT` alone and fill it by the same rule: neither says what was in `OUT` before. -/
theorem State.blindToOut_of_fills {s t t' : State} {m m' : Memory} (ht : t' = { t with dec := t.dec.withOut m' })
    (hf : s.dec.outn.toNat ≤ s.dec.expected.toNat → s.dec.Fills t.dec)
    (hf' : s.dec.outn.toNat ≤ s.dec.expected.toNat → (s.dec.withOut m).Fills t'.dec) : s.BlindToOut m t t' := by
  subst ht
  refine ⟨rfl, fun hle a h1 h2 => ?_, fun hle a ha => ⟨?_, ?_⟩⟩
  · have hwritten : ¬ (a < s.dec.outn.toNat ∨ t.dec.outn.toNat ≤ a) := by omega
    calc t.dec.outBuf.read? a = _ := (hf hle a).trans (if_neg hwritten)
      _ = m'.read? a := ((hf' hle a).trans (if_neg hwritten)).symm
  · exact (hf hle a).trans (if_pos ha)
  · exact (hf' hle a).trans (if_pos ha)

/-- A decoder step at the head of the agenda is a move of the decoder alone. -/
theorem step_engine_dec {s : State} {rest : List Move} (h : s.agenda = .engine .dec :: rest) :
    step s = .next { s with agenda := rest, dec := s.dec.advance } := by
  unfold step
  rw [h]
  exact stepEngine_dec _

/-- Settles O27: a symbol, and any move of the decoder, over another `OUT` ends in a state that differs in `OUT` alone, and
both ends fill `OUT` by the rule `Dec.Fills`. -/
theorem decodingNeverReadsOutput : Obligations.DecodingNeverReadsOutput := by
  unfold Obligations.DecodingNeverReadsOutput
  refine ⟨fun i s m => ?_, fun s m rest hs => ?_⟩
  · obtain ⟨m', hm'⟩ := (Dec.runSymbol_ignoresOut i).settle s.dec m
    refine ⟨_, _, exec_eq_settle i s, exec_eq_settle i _, State.blindToOut_of_fills (m' := m') ?_ ?_ ?_⟩
    · exact congrArg (fun d => { s with dec := d }) hm'
    · exact fun hle => Dec.settle_fills fun _ => Dec.runSymbol_fills hle
    · exact fun hle => Dec.settle_fills fun _ => Dec.runSymbol_fills (d := s.dec.withOut m) hle
  · obtain ⟨m', hm'⟩ := s.dec.advance_withOut m
    refine ⟨_, _, step_engine_dec hs, step_engine_dec hs, State.blindToOut_of_fills (m' := m') ?_ ?_ ?_⟩
    · exact congrArg (fun d => { s with agenda := rest, dec := d }) hm'
    · exact Dec.advance_fills
    · exact Dec.advance_fills (d := s.dec.withOut m)

end Sys2Proof.Machine
end

section
/-!
SUPPORT. The family 30_encoding.md. A code of a valid scheme carries the scheme's tag and its payload
(`Scheme.isTagOf_codeOf`, `Scheme.payload_codeOf`), the three schemes partition the codes, and so decoding undoes encoding.
-/

namespace Sys2Proof

/-! ### A scheme's codes -/

/-- The first three clauses of R8 bit by bit: the mask is the low bits, the header lies between the mask and bit 5
(00_scope.md R8). -/
structure Scheme.Layout (x : Scheme) : Prop where
  width : x.width ≤ 5
  mask : ∀ i, x.mask.getLsbD i = decide (i < x.width)
  header : ∀ i, x.header.getLsbD i = true → x.width ≤ i ∧ i < 5

theorem Scheme.layout_of_valid {x : Scheme} (h : x.valid = true) : x.Layout := by
  simp only [valid, maskIsWidth, headerClear, fitsCode, Bool.and_eq_true, decide_eq_true_eq, beq_iff_eq] at h
  obtain ⟨⟨⟨-, hmask⟩, hclear⟩, hfits⟩ := h
  have mask (i : Nat) : x.mask.getLsbD i = decide (i < x.width) := by
    rw [← BitVec.testBit_toNat, hmask, Nat.testBit_two_pow_sub_one]
  have low {i : Nat} (hi : (x.header ||| x.mask).getLsbD i = true) : i < 5 := by
    have hle : 2 ^ i ≤ (x.header ||| x.mask).toNat := Nat.ge_two_pow_of_testBit hi
    exact (Nat.pow_lt_pow_iff_right one_lt_two).mp (lt_of_le_of_lt (hle.trans hfits) (by decide : 0x1F < 2 ^ 5))
  refine ⟨?_, mask, fun i hi => ⟨?_, low (by simp [hi])⟩⟩
  · by_contra hw
    have := low (i := x.width - 1) (by simp [mask, show x.width - 1 < x.width by omega])
    omega
  · have hbit := congrArg (BitVec.getLsbD · i) hclear
    simpa [hi, mask] using hbit

/-- The bits of a code that carries an operand of the scheme's width (30_encoding.md R84). -/
theorem Scheme.codeOf_bit {x : Scheme} (p : BitVec x.width) (i : Nat) :
    (x.codeOf (p.setWidth 8)).getLsbD i =
      (decide (i < 5) && (x.header.getLsbD i || p.getLsbD i)) := by
  unfold codeOf
  by_cases hi : i < 5
  · simp [hi, show i < 8 by omega]
  · simp [hi]

theorem Scheme.Layout.isTagOf_codeOf {x : Scheme} (h : x.Layout) (p : BitVec x.width) :
    x.isTagOf (x.codeOf (p.setWidth 8)) = true := by
  have hcode : ∀ i < 8, (0x1F : BitVec 8).getLsbD i = decide (i < 5) := by decide
  rw [isTagOf, beq_iff_eq]
  apply BitVec.eq_of_getLsbD_eq
  intro i hi
  simp only [BitVec.getLsbD_and, BitVec.getLsbD_not, BitVec.getLsbD_setWidth, codeOf_bit, hcode i hi, h.mask]
  cases hx : x.header.getLsbD i with
  | true =>
    obtain ⟨hw, h5⟩ := h.header i hx
    simp [hi, h5, hw]
  | false =>
    simpa using fun _ _ (hp : p.getLsbD i = true) _ _ => BitVec.lt_of_getLsbD hp

theorem Scheme.Layout.payload_codeOf {x : Scheme} (h : x.Layout) (p : BitVec x.width) :
    (x.payload (x.codeOf (p.setWidth 8))).setWidth x.width = p := by
  apply BitVec.eq_of_getLsbD_eq
  intro i hi
  have hw := h.width
  have hheader : x.header.getLsbD i = false := by
    by_contra hx
    have := (h.header i (by simpa using hx)).1
    omega
  simp only [payload, BitVec.getLsbD_setWidth, BitVec.getLsbD_and, codeOf_bit, h.mask, hheader]
  simp [hi, show i < 5 by omega, show i < 8 by omega]

/-! ### The three schemes -/

theorem runScheme_layout (sel : CfgSel) : (tagsOf sel).run.Layout := by
  cases sel <;> exact Scheme.layout_of_valid rfl

theorem cacheScheme_layout (sel : CfgSel) : (tagsOf sel).cache.Layout := by
  cases sel <;> exact Scheme.layout_of_valid rfl

theorem deltaScheme_layout (sel : CfgSel) : (tagsOf sel).delta.Layout := by
  cases sel <;> exact Scheme.layout_of_valid rfl

/-- The tag tests of configuration A in the high bits of the code (30_encoding.md R85). -/
theorem isTagOf_a (c : Code) :
    (tagsOf .a).run.isTagOf c = (!c.getLsbD 4 && !c.getLsbD 3) ∧
    (tagsOf .a).cache.isTagOf c = (!c.getLsbD 4 && c.getLsbD 3) ∧
    (tagsOf .a).delta.isTagOf c = c.getLsbD 4 := by
  revert c
  decide

/-- The tag tests of configuration B in the high bits of the code (30_encoding.md R86). -/
theorem isTagOf_b (c : Code) :
    (tagsOf .b).run.isTagOf c = (!c.getLsbD 4 && !c.getLsbD 3) ∧
    (tagsOf .b).cache.isTagOf c = c.getLsbD 4 ∧
    (tagsOf .b).delta.isTagOf c = (!c.getLsbD 4 && c.getLsbD 3) := by
  revert c
  decide

/-- Settles O3: the high bits of a code, 00, 01 or 1x, name its scheme. -/
theorem schemesPartitionTheCodes : Obligations.SchemesPartitionTheCodes := by
  unfold Obligations.SchemesPartitionTheCodes
  intro sel c
  cases sel with
  | a =>
    obtain ⟨hrun, hcache, hdelta⟩ := isTagOf_a c
    rw [hrun, hcache, hdelta]
    cases c.getLsbD 4 <;> cases c.getLsbD 3 <;> simp
  | b =>
    obtain ⟨hrun, hcache, hdelta⟩ := isTagOf_b c
    rw [hrun, hcache, hdelta]
    cases c.getLsbD 4 <;> cases c.getLsbD 3 <;> simp

theorem not_isRun_of_isDelta {sel : CfgSel} {c : Code} (h : (tagsOf sel).delta.isTagOf c = true) :
    ¬ (tagsOf sel).run.isTagOf c = true := by
  rcases schemesPartitionTheCodes sel c with hs | hs | hs <;> simp_all

theorem not_isRun_of_isCache {sel : CfgSel} {c : Code} (h : (tagsOf sel).cache.isTagOf c = true) :
    ¬ (tagsOf sel).run.isTagOf c = true := by
  rcases schemesPartitionTheCodes sel c with hs | hs | hs <;> simp_all

theorem not_isDelta_of_isCache {sel : CfgSel} {c : Code} (h : (tagsOf sel).cache.isTagOf c = true) :
    ¬ (tagsOf sel).delta.isTagOf c = true := by
  rcases schemesPartitionTheCodes sel c with hs | hs | hs <;> simp_all

/-! ### Decoding by scheme -/

/-- Both configurations have the same RUN codes (30_encoding.md R85, R86). -/
theorem runScheme_eq (sel : CfgSel) : (tagsOf sel).run = (tagsOf .a).run := by
  cases sel <;> rfl

theorem decodeCode_of_isRun (sel : CfgSel) {c : Code} (h : (tagsOf .a).run.isTagOf c = true) :
    decodeCode sel c = .run (((tagsOf .a).run.payload c).setWidth 3) := by
  rw [← runScheme_eq sel] at h ⊢
  exact if_pos h

theorem decodeCode_a_of_isDelta {c : Code} (h : (tagsOf .a).delta.isTagOf c = true) :
    decodeCode .a c = .deltaA (((tagsOf .a).delta.payload c).setWidth 4) :=
  (if_neg (not_isRun_of_isDelta h)).trans (if_pos h)

theorem decodeCode_a_of_isCache {c : Code} (h : (tagsOf .a).cache.isTagOf c = true) :
    decodeCode .a c = .cacheA (((tagsOf .a).cache.payload c).setWidth 3) :=
  (if_neg (not_isRun_of_isCache h)).trans (if_neg (not_isDelta_of_isCache h))

theorem decodeCode_b_of_isDelta {c : Code} (h : (tagsOf .b).delta.isTagOf c = true) :
    decodeCode .b c = .deltaB (((tagsOf .b).delta.payload c).setWidth 3) :=
  (if_neg (not_isRun_of_isDelta h)).trans (if_pos h)

theorem decodeCode_b_of_isCache {c : Code} (h : (tagsOf .b).cache.isTagOf c = true) :
    decodeCode .b c = .cacheB (((tagsOf .b).cache.payload c).setWidth 4) :=
  (if_neg (not_isRun_of_isCache h)).trans (if_neg (not_isDelta_of_isCache h))

/-! ### Decode of encode, symbol by symbol -/

theorem decodeWord_rawWord (v : BitVec 15) : decodeWord (rawWord (v.setWidth 16)) = .raw v := by
  have hpayload : (rawWord (v.setWidth 16)).extractLsb' 0 15 = v := by
    apply BitVec.eq_of_getLsbD_eq
    intro i hi
    rw [BitVec.getLsbD_extractLsb', Nat.zero_add, rawWord_bit]
    simp [hi, show i ≠ 15 by omega]
  rw [decodeWord, if_pos (rawIsValid_rawWord v), hpayload]

theorem decode_encode_run (sel : CfgSel) (n : Digit) : decode sel (encode (.run n)) = .run n :=
  (decodeCode_of_isRun sel ((runScheme_layout .a).isTagOf_codeOf n)).trans
    (congrArg Instr.run ((runScheme_layout .a).payload_codeOf n))

theorem decode_encode_cacheA (h : BitVec 3) : decode .a (encode (.cacheA h)) = .cacheA h :=
  (decodeCode_a_of_isCache ((cacheScheme_layout .a).isTagOf_codeOf h)).trans
    (congrArg Instr.cacheA ((cacheScheme_layout .a).payload_codeOf h))

theorem decode_encode_deltaA (p : BitVec 4) : decode .a (encode (.deltaA p)) = .deltaA p :=
  (decodeCode_a_of_isDelta ((deltaScheme_layout .a).isTagOf_codeOf p)).trans
    (congrArg Instr.deltaA ((deltaScheme_layout .a).payload_codeOf p))

theorem decode_encode_cacheB (h : BitVec 4) : decode .b (encode (.cacheB h)) = .cacheB h :=
  (decodeCode_b_of_isCache ((cacheScheme_layout .b).isTagOf_codeOf h)).trans
    (congrArg Instr.cacheB ((cacheScheme_layout .b).payload_codeOf h))

theorem decode_encode_deltaB (p : BitVec 3) : decode .b (encode (.deltaB p)) = .deltaB p :=
  (decodeCode_b_of_isDelta ((deltaScheme_layout .b).isTagOf_codeOf p)).trans
    (congrArg Instr.deltaB ((deltaScheme_layout .b).payload_codeOf p))

/-- Settles O1: a word is told by bit 15 and a code by its scheme's tag; the bits below are the operands. -/
theorem decodeOfEncodeIsTheCoreInstruction : Obligations.DecodeOfEncodeIsTheCoreInstruction := by
  unfold Obligations.DecodeOfEncodeIsTheCoreInstruction
  intro sel i hi
  cases i with
  | raw v => exact decodeWord_rawWord v
  | chunk a b c => exact Machine.decodeWord_pack3 a b c
  | run n => exact decode_encode_run sel n
  | pad => exact decode_encode_run sel 0
  | cacheA h =>
    obtain rfl : sel = .a := eq_of_beq hi
    exact decode_encode_cacheA h
  | deltaA p =>
    obtain rfl : sel = .a := eq_of_beq hi
    exact decode_encode_deltaA p
  | deltaB p =>
    obtain rfl : sel = .b := eq_of_beq hi
    exact decode_encode_deltaB p
  | cacheB h =>
    obtain rfl : sel = .b := eq_of_beq hi
    exact decode_encode_cacheB h

/-- Settles O4, word by word. -/
theorem wordsOfTheFormatsDecode : Obligations.WordsOfTheFormatsDecode := by
  unfold Obligations.WordsOfTheFormatsDecode
  decide

end Sys2Proof
end

section
/-!
SUPPORT. The family 40_precision_reducer.md: the composition of `Get` and `Set` (R113), and the range of a WorkingSample
(R111), which keeps it away from the sentinel.
-/

namespace Sys2Proof.Machine

open Sys2Proof

/-! ### The range of a WorkingSample -/

theorem le_maxWorking_iff {s : BitVec 4} {n : Nat} : n ≤ maxWorking s ↔ n < 2 ^ (16 - s.toNat) :=
  Nat.le_sub_one_iff_lt (Nat.two_pow_pos _)

/-- For every legal `S`, bit 15 of a WorkingSample is 0 (40_precision_reducer.md R111). -/
theorem maxWorking_le {s : BitVec 4} (hs : s ≠ 0) : maxWorking s ≤ 0x7FFF := by
  have hpos : 0 < s.toNat := Nat.pos_of_ne_zero fun h => hs (BitVec.eq_of_toNat_eq h)
  exact Nat.sub_le_sub_right (Nat.pow_le_pow_right two_pos (by omega : 16 - s.toNat ≤ 15)) 1

/-! ### The composition of `Get` and `Set` -/

theorem precSet_precGet (s : BitVec 4) (x : Word) :
    precSet s (precGet s x) = x &&& ~~~(BitVec.ofNat 16 (2 ^ s.toNat - 1)) := by
  apply BitVec.eq_of_getLsbD_eq
  intro i hi
  have hmask : (BitVec.ofNat 16 (2 ^ s.toNat - 1)).getLsbD i = decide (i < s.toNat) := by
    rw [BitVec.getLsbD_ofNat, Nat.testBit_two_pow_sub_one, decide_eq_true hi, Bool.true_and]
  simp only [precSet, precGet, BitVec.getLsbD_shiftLeft, BitVec.getLsbD_ushiftRight, BitVec.getLsbD_and,
    BitVec.getLsbD_not, hmask]
  by_cases hlow : i < s.toNat
  · simp [hlow]
  · simp [hi, hlow, Nat.add_sub_cancel' (Nat.le_of_not_lt hlow)]

/-- A WorkingSample loses no high bit when `Set` shifts it up (40_precision_reducer.md R113). -/
theorem precGet_precSet {s : BitVec 4} {w : Word} (hw : w.toNat ≤ maxWorking s) : precGet s (precSet s w) = w := by
  have hfits : w.toNat * 2 ^ s.toNat < 2 ^ 16 := by
    calc w.toNat * 2 ^ s.toNat < 2 ^ (16 - s.toNat) * 2 ^ s.toNat :=
          Nat.mul_lt_mul_of_pos_right (le_maxWorking_iff.mp hw) (Nat.two_pow_pos _)
      _ = 2 ^ 16 := by rw [← pow_add, Nat.sub_add_cancel (by omega)]
  apply BitVec.eq_of_toNat_eq
  rw [precGet, precSet, BitVec.toNat_ushiftRight, BitVec.toNat_shiftLeft, Nat.shiftLeft_eq, Nat.mod_eq_of_lt hfits,
    Nat.shiftRight_eq_div_pow, Nat.mul_div_cancel _ (Nat.two_pow_pos _)]

/-- Settles O6: `Get` clears by shifting down what `Set` shifts back up, and a WorkingSample has room for the shift. -/
theorem setAfterGetClearsTheLowBits : Obligations.SetAfterGetClearsTheLowBits := by
  unfold Obligations.SetAfterGetClearsTheLowBits
  exact fun s _ => ⟨fun x => ⟨precGet_le_maxWorking s x, precSet_precGet s x⟩, fun _ => precGet_precSet⟩

/-! ### The distance to the sentinel -/

/-- A valid difference is at most 8 in size: `MAXV` is 8 in configuration A and 4 in B (41_bias_delta.md R120, R122). -/
theorem neg_eight_le_of_deltaIsValid {sel : CfgSel} {d : Int} (h : deltaIsValid sel d = true) : -8 ≤ d := by
  have hmaxv : maxv sel ≤ 8 := by cases sel <;> decide
  simp only [deltaIsValid, Bool.and_eq_true, decide_eq_true_eq] at h
  omega

/-- The sentinel is 0xFFFF and a WorkingSample at most 0x7FFF (41_bias_delta.md R121). -/
theorem deltaDiff_sentinel_le {s : BitVec 4} {w : Word} (hs : s ≠ 0) (hw : w.toNat ≤ maxWorking s) :
    deltaDiff w sentinel ≤ -32768 := by
  have hrange : w.toNat ≤ 0x7FFF := hw.trans (maxWorking_le hs)
  have hsentinel : sentinel.toNat = 0xFFFF := rfl
  rw [deltaDiff, hsentinel]
  omega

/-- Settles O9: the difference lies 32768 or more below 0, so the values differ and no delta code reaches so far. -/
theorem sentinelIsFarFromEveryWorkingSample : Obligations.SentinelIsFarFromEveryWorkingSample := by
  unfold Obligations.SentinelIsFarFromEveryWorkingSample
  intro sel s w hs hw
  have hfar : deltaDiff w sentinel ≤ -32768 := deltaDiff_sentinel_le hs hw
  refine ⟨?_, hfar, ?_⟩
  · rintro rfl
    exact absurd hfar (by decide)
  · rw [Bool.eq_false_iff]
    intro hvalid
    have := neg_eight_le_of_deltaIsValid hvalid
    omega

end Sys2Proof.Machine
end

section
/-!
SUPPORT. The family 41_bias_delta.md. The valid differences are the differences of the payloads (`deltaIsValid_deltaUnbias`,
`exists_deltaUnbias_eq`), and the tagged codes are the codes of the payloads (`Scheme.Layout.codeOf_payload`): both halves of
the bijection R125 go through the payload.
-/

namespace Sys2Proof

/-! ### Codes of a scheme and their payloads -/

/-- A code is its header plus its payload: they share no bit (00_scope.md R8; 30_encoding.md R84). -/
theorem Scheme.Layout.toNat_codeOf {x : Scheme} (h : x.Layout) (p : BitVec x.width) :
    (x.codeOf (p.setWidth 8)).toNat = x.header.toNat + p.toNat := by
  have hw := h.width
  have hp : (p.setWidth 8).toNat = p.toNat := BitVec.toNat_setWidth_of_le (by omega)
  have hdisjoint : x.header &&& p.setWidth 8 = 0#8 := by
    apply BitVec.eq_of_getLsbD_eq
    intro i hi
    cases hx : x.header.getLsbD i with
    | false => simp [hx]
    | true => simp [hx, BitVec.getLsbD_of_ge p i (h.header i hx).1]
  have hfits : x.header.toNat ||| p.toNat < 2 ^ 5 := by
    refine Nat.or_lt_two_pow (Nat.lt_pow_two_of_testBit _ fun i hi => ?_)
      (p.isLt.trans_le (Nat.pow_le_pow_right two_pos hw))
    rw [BitVec.testBit_toNat, Bool.eq_false_iff]
    exact fun hx => absurd (h.header i hx).2 (Nat.not_lt.mpr hi)
  rw [← hp, ← BitVec.toNat_add_of_and_eq_zero hdisjoint, BitVec.add_eq_or_of_and_eq_zero _ _ hdisjoint, codeOf,
    BitVec.toNat_setWidth, BitVec.toNat_or, hp, Nat.mod_eq_of_lt hfits]

theorem Scheme.Layout.payload_lt {x : Scheme} (h : x.Layout) (c : Code) : (x.payload c).toNat < 2 ^ x.width := by
  refine Nat.lt_pow_two_of_testBit _ fun i hi => ?_
  rw [BitVec.testBit_toNat, payload, BitVec.getLsbD_and, h.mask, decide_eq_false (Nat.not_lt.mpr hi), Bool.and_false]

theorem Scheme.Layout.toNat_payload_codeOf {x : Scheme} (h : x.Layout) (p : BitVec x.width) :
    (x.payload (x.codeOf (p.setWidth 8))).toNat = p.toNat := by
  have htrunc := congrArg BitVec.toNat (h.payload_codeOf p)
  rwa [BitVec.toNat_setWidth, Nat.mod_eq_of_lt (h.payload_lt _)] at htrunc

/-- A tagged code has the header's bits above the payload (30_encoding.md R84, R86). -/
theorem Scheme.Layout.codeOf_payload {x : Scheme} (h : x.Layout) {c : Code} (hc : x.isTagOf c = true) :
    x.codeOf (((x.payload c).setWidth x.width).setWidth 8) = c := by
  have hlow : ∀ i < 5, (0x1F : BitVec 8).getLsbD i = true := by decide
  apply BitVec.eq_of_getLsbD_eq
  intro i hi
  have hheader := congrArg (BitVec.getLsbD · i) (beq_iff_eq.mp hc)
  simp only [BitVec.getLsbD_and, BitVec.getLsbD_not, BitVec.getLsbD_setWidth, h.mask, hlow i hi] at hheader
  simp only [codeOf_bit, ← hheader, payload, BitVec.getLsbD_setWidth, BitVec.getLsbD_and, h.mask]
  by_cases hw : i < x.width
  · simp [hi, hw, show i < 8 by omega]
  · simp [hi, hw, show i < 8 by omega]

end Sys2Proof

namespace Sys2Proof.Machine

open Sys2Proof

/-! ### Valid differences and their payloads -/

theorem deltaIsValid_iff {sel : CfgSel} {d : Int} :
    deltaIsValid sel d = true ↔ d ≠ 0 ∧ -(maxv sel : Int) ≤ d ∧ d ≤ maxv sel := by
  simp only [deltaIsValid, Bool.and_eq_true, decide_eq_true_eq, and_assoc]

theorem maxv_pos (sel : CfgSel) : 0 < maxv sel :=
  Nat.two_pow_pos _

/-- The payloads of the delta scheme are the numbers below `2 * MAXV` (41_bias_delta.md R120). -/
theorem two_pow_deltaWidth (sel : CfgSel) : 2 ^ (tagsOf sel).delta.width = 2 * maxv sel := by
  cases sel <;> rfl

theorem deltaIsValid_deltaUnbias {sel : CfgSel} {p : Nat} (hp : p < 2 * maxv sel) :
    deltaIsValid sel (deltaUnbias (maxv sel) p) = true := by
  have hpos := maxv_pos sel
  rw [deltaIsValid_iff, deltaUnbias]
  split <;> omega

/-- The sign of a payload's difference tells which of the two biases it was read with (41_bias_delta.md R123, R124). -/
theorem deltaBias_deltaUnbias (m p : Nat) : deltaBias m (deltaUnbias m p) = p := by
  unfold deltaUnbias
  split
  next hneg => rw [deltaBias, if_pos (by omega), sub_add_cancel]
  next hpos => rw [deltaBias, if_neg (by omega), sub_add_cancel]

/-- Negative differences are those of the payloads below `MAXV`, positive ones those from `MAXV` on
(41_bias_delta.md R123). -/
theorem exists_deltaUnbias_eq {sel : CfgSel} {d : Int} (h : deltaIsValid sel d = true) :
    ∃ p : BitVec (tagsOf sel).delta.width, deltaUnbias (maxv sel) p.toNat = d := by
  obtain ⟨hne, hlow, hhigh⟩ := deltaIsValid_iff.mp h
  have hpayload : ∃ q < 2 * maxv sel, deltaUnbias (maxv sel) q = d := by
    rcases lt_or_gt_of_ne hne with hneg | hpos
    · refine ⟨(d + maxv sel).toNat, by omega, ?_⟩
      rw [deltaUnbias, if_pos (by omega)]
      omega
    · refine ⟨(d + maxv sel - 1).toNat, by omega, ?_⟩
      rw [deltaUnbias, if_neg (by omega)]
      omega
  obtain ⟨q, hq, rfl⟩ := hpayload
  exact ⟨BitVec.ofNatLT q (two_pow_deltaWidth sel ▸ hq), rfl⟩

/-- The code of a payload's difference carries that payload (41_bias_delta.md R125). -/
theorem deltaEncode_deltaUnbias {sel : CfgSel} (p : BitVec (tagsOf sel).delta.width) :
    deltaEncode sel (deltaUnbias (maxv sel) p.toNat) = (tagsOf sel).delta.codeOf (p.setWidth 8) := by
  rw [deltaEncode, deltaBias_deltaUnbias, BitVec.ofInt_natCast, BitVec.ofNat_toNat]

/-! ### Codes of differences -/

theorem toNat_deltaEncode {sel : CfgSel} {d : Int} (h : deltaIsValid sel d = true) :
    ((deltaEncode sel d).toNat : Int) = (tagsOf sel).delta.header.toNat + deltaBias (maxv sel) d := by
  obtain ⟨p, rfl⟩ := exists_deltaUnbias_eq h
  rw [deltaEncode_deltaUnbias, (deltaScheme_layout sel).toNat_codeOf, deltaBias_deltaUnbias, Nat.cast_add]

theorem isTagOf_deltaEncode {sel : CfgSel} {d : Int} (h : deltaIsValid sel d = true) :
    (tagsOf sel).delta.isTagOf (deltaEncode sel d) = true := by
  obtain ⟨p, rfl⟩ := exists_deltaUnbias_eq h
  rw [deltaEncode_deltaUnbias]
  exact (deltaScheme_layout sel).isTagOf_codeOf p

/-- The payload of a difference's code stands for that difference (41_bias_delta.md R125). -/
theorem deltaUnbias_deltaEncode {sel : CfgSel} {d : Int} (h : deltaIsValid sel d = true) :
    deltaUnbias (maxv sel) ((tagsOf sel).delta.payload (deltaEncode sel d)).toNat = d := by
  obtain ⟨p, rfl⟩ := exists_deltaUnbias_eq h
  rw [deltaEncode_deltaUnbias, (deltaScheme_layout sel).toNat_payload_codeOf]

/-- Every DELTA code is the code of the difference its payload stands for (41_bias_delta.md R125). -/
theorem deltaEncode_deltaUnbias_payload {sel : CfgSel} {c : Code} (hc : (tagsOf sel).delta.isTagOf c = true) :
    deltaEncode sel (deltaUnbias (maxv sel) ((tagsOf sel).delta.payload c).toNat) = c := by
  have hlayout := deltaScheme_layout sel
  have hcode := deltaEncode_deltaUnbias (((tagsOf sel).delta.payload c).setWidth (tagsOf sel).delta.width)
  rwa [hlayout.codeOf_payload hc, BitVec.toNat_setWidth, Nat.mod_eq_of_lt (hlayout.payload_lt c)] at hcode

theorem existsUnique_deltaEncode_eq {sel : CfgSel} {c : Code} (hc : (tagsOf sel).delta.isTagOf c = true) :
    ∃! d : Int, deltaIsValid sel d = true ∧ deltaEncode sel d = c := by
  have hp : ((tagsOf sel).delta.payload c).toNat < 2 * maxv sel :=
    two_pow_deltaWidth sel ▸ (deltaScheme_layout sel).payload_lt c
  refine ⟨_, ⟨deltaIsValid_deltaUnbias hp, deltaEncode_deltaUnbias_payload hc⟩, ?_⟩
  rintro d ⟨hvalid, rfl⟩
  exact (deltaUnbias_deltaEncode hvalid).symm

/-- Settles O8: a valid difference and its code determine each other through the payload. The code in numbers is
`toNat_deltaEncode`, where the headers and `MAXV` are numerals. -/
theorem deltaCodesAreABijection : Obligations.DeltaCodesAreABijection := by
  unfold Obligations.DeltaCodesAreABijection
  refine ⟨fun d => ⟨toNat_deltaEncode, toNat_deltaEncode⟩, fun sel => ⟨fun d prev hvalid => ?_, fun c => ?_⟩⟩
  · exact ⟨isTagOf_deltaEncode hvalid, congrArg _ (deltaUnbias_deltaEncode hvalid)⟩
  · exact existsUnique_deltaEncode_eq

/-- Settles O7: `MAXV` is 8 in configuration A and 4 in B (41_bias_delta.md R120). -/
theorem validDifferencesAreBounded : Obligations.ValidDifferencesAreBounded := by
  unfold Obligations.ValidDifferencesAreBounded
  exact fun d => ⟨deltaIsValid_iff, deltaIsValid_iff⟩

end Sys2Proof.Machine
end

section
/-!
SUPPORT. The family 42_run_length.md. The digits of a length are Mathlib's `Nat.digits 8` of it (`runDigits_eq_digits`):
their number, their values and the last one's not being 0 are facts about `Nat.digits`.
-/

namespace Sys2Proof.Machine

open Sys2Proof

/-! ### Reading: the digit sum -/

/-- The Horner step of the sum over positions: the first digit has weight 1, and one position more shifts by three bits. -/
theorem sum_shiftLeft_cons (p : Digit) (ps : List Digit) :
    ∑ i : Fin (p :: ps).length, ((p :: ps)[i]).toNat <<< (3 * i.val) =
      p.toNat + 8 * ∑ i : Fin ps.length, (ps[i]).toNat <<< (3 * i.val) := by
  have hshift (x i : ℕ) : x <<< (3 * (i + 1)) = 8 * x <<< (3 * i) := by
    rw [Nat.shiftLeft_eq, Nat.shiftLeft_eq, Nat.mul_add, pow_add]
    ring
  rw [Finset.mul_sum]
  refine (Fin.sum_univ_succ _).trans (congrArg₂ _ ?_ (Finset.sum_congr rfl fun i _ => ?_))
  · rfl
  · exact hshift (ps[i]).toNat i

/-- Settles O10, by induction on the payloads: both sides are in Horner form. -/
theorem runLengthIsTheDigitSum : Obligations.RunLengthIsTheDigitSum := by
  unfold Obligations.RunLengthIsTheDigitSum
  intro acc
  induction acc with
  | nil => rfl
  | cons p ps ih => rw [runLength_cons, sum_shiftLeft_cons, ih]

/-- Settles O11: the zeros add nothing, and the digits of a 32-bit length read back as it. -/
theorem emittedDigitsReadBack : Obligations.EmittedDigitsReadBack := by
  unfold Obligations.EmittedDigitsReadBack
  intro n k _ hn
  rw [runLength_append_zeros, runLength_runDigits hn]

/-! ### Writing: the base-8 digits -/

theorem runDigitsFuel_succ (fuel n : ℕ) :
    runDigitsFuel (fuel + 1) n = BitVec.ofNat 3 n :: if n / 8 = 0 then [] else runDigitsFuel fuel (n / 8) := by
  have hdiv : n >>> runW = n / 8 := Nat.shiftRight_eq_div_pow n 3
  rw [runDigitsFuel, hdiv]

theorem ofNat_three_mod_eight (n : ℕ) : BitVec.ofNat 3 (n % 8) = BitVec.ofNat 3 n :=
  BitVec.eq_of_toNat_eq (Nat.mod_mod n 8)

theorem runDigitsFuel_eq_digits {fuel n : ℕ} (h0 : n ≠ 0) (hfuel : n < 8 ^ fuel) :
    runDigitsFuel fuel n = (Nat.digits 8 n).map (BitVec.ofNat 3) := by
  induction fuel generalizing n with
  | zero => exact absurd (Nat.lt_one_iff.mp hfuel) h0
  | succ fuel ih =>
    rw [runDigitsFuel_succ, Nat.digits_eq_cons_digits_div (by norm_num) h0, List.map_cons, ofNat_three_mod_eight]
    split
    case isTrue hdiv => rw [hdiv, Nat.digits_zero, List.map_nil]
    case isFalse hdiv => rw [ih hdiv (Nat.div_lt_of_lt_mul (pow_succ' 8 fuel ▸ hfuel))]

theorem lt_eight_pow_eleven {n : ℕ} (hn : n < 2 ^ 32) : n < 8 ^ 11 :=
  lt_trans hn (by norm_num)

/-- `RL.Emit`'s digits are the base-8 digits of the length (42_run_length.md R136). -/
theorem runDigits_eq_digits {n : ℕ} (h0 : n ≠ 0) (hn : n < 2 ^ 32) :
    runDigits n = (Nat.digits 8 n).map (BitVec.ofNat 3) :=
  runDigitsFuel_eq_digits h0 (lt_eight_pow_eleven hn)

theorem length_runDigits {n : ℕ} (h0 : n ≠ 0) (hn : n < 2 ^ 32) : (runDigits n).length = Nat.log 8 n + 1 := by
  rw [runDigits_eq_digits h0 hn, List.length_map, Nat.length_digits 8 n (by norm_num) h0]

theorem length_runDigits_le {n : ℕ} (h0 : n ≠ 0) (hn : n < 2 ^ 32) : (runDigits n).length ≤ 11 := by
  rw [length_runDigits h0 hn, Nat.succ_le_iff]
  exact Nat.log_lt_of_lt_pow h0 (lt_eight_pow_eleven hn)

theorem getElem?_runDigits {n i : ℕ} (h0 : n ≠ 0) (hn : n < 2 ^ 32) (hi : i < (runDigits n).length) :
    (runDigits n)[i]? = some (BitVec.ofNat 3 (n / 8 ^ i)) := by
  rw [runDigits_eq_digits h0 hn, List.length_map] at hi
  have hdigit : (Nat.digits 8 n)[i] = n / 8 ^ i % 8 := by
    rw [← Nat.getD_digits n i (by norm_num), List.getD_eq_getElem _ _ hi]
  rw [runDigits_eq_digits h0 hn, List.getElem?_map, List.getElem?_eq_getElem hi, hdigit, Option.map_some,
    ofNat_three_mod_eight]

/-- The last digit is the last of `Nat.digits 8`: it is below 8, so three bits hold it, and not 0. -/
theorem getLast?_runDigits_ne_zero {n : ℕ} (h0 : n ≠ 0) (hn : n < 2 ^ 32) : (runDigits n).getLast? ≠ some 0 := by
  have hnil := Nat.digits_ne_nil_iff_ne_zero (b := 8).mpr h0
  have hlast : (Nat.digits 8 n).getLast hnil < 8 := Nat.digits_lt_base (by norm_num) (List.getLast_mem hnil)
  rw [runDigits_eq_digits h0 hn, List.getLast?_map, List.getLast?_eq_some_getLast hnil, Option.map_some]
  intro hzero
  have hmod : (Nat.digits 8 n).getLast hnil % 8 = 0 := congrArg BitVec.toNat (Option.some.inj hzero)
  exact Nat.getLast_digit_ne_zero 8 h0 (Nat.mod_eq_of_lt hlast ▸ hmod)

/-! ### Writing: the codes -/

/-- `RUN_H` is 0 in both configurations, so a digit's code is the digit (30_encoding.md R85). -/
theorem runCode_eq_setWidth (sel : CfgSel) (p : Digit) : runCode sel p = p.setWidth 5 := by
  have hheader : (tagsOf sel).run.header = 0#8 := by cases sel <;> rfl
  rw [runCode, Scheme.codeOf, hheader, BitVec.zero_or, BitVec.setWidth_setWidth_of_le _ (by norm_num)]

theorem runCodes_eq_map_setWidth (sel : CfgSel) (n : ℕ) : runCodes sel n = (runDigits n).map (fun p => p.setWidth 5) :=
  congrArg (List.map · (runDigits n)) (funext (runCode_eq_setWidth sel))

/-- Settles O12: `RL.Emit`'s digits are the base-8 digits of the length, and each one is its own code. -/
theorem emittedDigitsAreTheBase8Digits : Obligations.EmittedDigitsAreTheBase8Digits := by
  unfold Obligations.EmittedDigitsAreTheBase8Digits
  intro n h1 hn
  have h0 : n ≠ 0 := Nat.one_le_iff_ne_zero.mp h1
  exact ⟨length_runDigits h0 hn, length_runDigits_le h0 hn, getLast?_runDigits_ne_zero h0 hn,
    fun _ => getElem?_runDigits h0 hn, fun sel => runCodes_eq_map_setWidth sel n, Enc.rlEmit_eq n⟩

end Sys2Proof.Machine
end

section
/-!
SUPPORT. The family 43_recent_value_cache.md: the slot of a value and the code of a hit in numbers (R150, R152), and which
symbols leave the cache alone (R154).
-/

namespace Sys2Proof

/-- A code is its header or its operand, cut to five bits (30_encoding.md R84). -/
theorem Scheme.codeOf_setWidth {n : ℕ} (x : Scheme) (p : BitVec n) :
    x.codeOf (p.setWidth 8) = x.header.setWidth 5 ||| p.setWidth 5 := by
  rw [codeOf, BitVec.setWidth_or, BitVec.setWidth_setWidth_of_le _ (by decide)]

end Sys2Proof

namespace Sys2Proof.Machine

open Sys2Proof

/-! ### The slot of a value -/

theorem cacheMask_toNat (sel : CfgSel) : (tagsOf sel).cache.mask.toNat = 2 ^ (tagsOf sel).cache.width - 1 := by
  cases sel <;> rfl

theorem cacheWidth_le (sel : CfgSel) : (tagsOf sel).cache.width ≤ 4 := by
  cases sel <;> decide

/-- The mask keeps the low bits of the shifted value, as many as the payload is wide (43_recent_value_cache.md R150). -/
theorem hashSlot_toNat (sel : CfgSel) (shift : BitVec 4) (v : Word) :
    (hashSlot sel shift v).toNat = (v.toNat >>> shift.toNat) % 2 ^ (tagsOf sel).cache.width := by
  have hslots : 2 ^ (tagsOf sel).cache.width ≤ 2 ^ 4 := Nat.pow_le_pow_right two_pos (cacheWidth_le sel)
  have hmask : ((tagsOf sel).cache.mask.setWidth 16).toNat = 2 ^ (tagsOf sel).cache.width - 1 :=
    (BitVec.toNat_setWidth_of_le (by decide)).trans (cacheMask_toNat sel)
  rw [hashSlot, BitVec.toNat_setWidth, BitVec.toNat_and, BitVec.toNat_ushiftRight, hmask,
    Nat.and_two_pow_sub_one_eq_mod]
  exact Nat.mod_eq_of_lt ((Nat.mod_lt _ (Nat.two_pow_pos _)).trans_le hslots)

theorem Engine.hits_iff {g : Engine} {v : Word} : g.hits v = true ↔ g.slot (g.hash v) = v :=
  beq_iff_eq

/-! ### The code of a hit -/

theorem encode_cacheA (h : BitVec 3) : encode (.cacheA h) = .code (cacheCode .a (h.setWidth 4)) := by
  rw [cacheCode, BitVec.setWidth_setWidth (by decide), encode]

theorem encode_cacheB (h : BitVec 4) : encode (.cacheB h) = .code (cacheCode .b h) := rfl

theorem cacheCode_eq_or (sel : CfgSel) (h : BitVec 4) :
    cacheCode sel h = (tagsOf sel).cache.header.setWidth 5 ||| h.setWidth 5 :=
  Scheme.codeOf_setWidth _ h

/-- The decoder reads the code of a hit as `CACHE` of the slot: it is that symbol's encoding (30_encoding.md R85). -/
theorem decodeCode_cacheCode_a (h : BitVec 3) : decodeCode .a (cacheCode .a (h.setWidth 4)) = .cacheA h := by
  have hdecode := decode_encode_cacheA h
  rwa [encode_cacheA] at hdecode

theorem decodeCode_cacheCode_b (h : BitVec 4) : decodeCode .b (cacheCode .b h) = .cacheB h :=
  decode_encode_cacheB h

/-- Settles O57: the slot by `hashSlot_toNat`, the code by `cacheCode_eq_or`, its reading by `decode_encode_cacheA` and
`decode_encode_cacheB`. -/
theorem hashAndCacheCodeAreShiftAndMask : Obligations.HashAndCacheCodeAreShiftAndMask := by
  unfold Obligations.HashAndCacheCodeAreShiftAndMask
  refine ⟨fun shift v => ⟨hashSlot_toNat .a shift v, hashSlot_toNat .b shift v⟩, fun g v => ⟨rfl, Engine.hits_iff⟩,
    fun h => ⟨?_, decodeCode_cacheCode_a h⟩, fun h => ⟨cacheCode_eq_or .b h, decodeCode_cacheCode_b h⟩⟩
  rw [cacheCode_eq_or, BitVec.setWidth_setWidth (by decide)]
  rfl

/-! ### What leaves the cache alone -/

theorem Dec.cache_resolveEmit {d d' : Dec} {cur : Dec → Except FaultCode Int} (h : d.resolveEmit cur = .ok d') :
    d'.cache = d.cache := by
  obtain ⟨-, hcache, -⟩ := resolveEmit_frame h
  exact hcache

/-- CHUNK, RUN and PAD only take their symbol and store its digits or codes; CACHE and DELTA resolve the run and emit
(47_decoder_fsm.md R222 to R226). -/
theorem Dec.cache_runSymbol {d d' : Dec} {i : Instr} (hraw : ∀ v, i ≠ .raw v) (h : d.runSymbol i = .ok d') :
    d'.cache = d.cache := by
  cases i with
  | raw v => exact absurd rfl (hraw v)
  | chunk a b c =>
    cases h
    rfl
  | run n =>
    cases h
    rfl
  | pad =>
    cases h
    rfl
  | cacheA _ => exact cache_resolveEmit (d := d.popCode) h
  | cacheB _ => exact cache_resolveEmit (d := d.popCode) h
  | deltaA _ => exact cache_resolveEmit (d := d.popCode) h
  | deltaB _ => exact cache_resolveEmit (d := d.popCode) h

/-- Settles O26: a symbol other than RAW that runs keeps the cache by `Dec.cache_runSymbol`; one that faults touches `PHASE`
and `FAULT` only. -/
theorem onlyRawWritesTheCache : Obligations.OnlyRawWritesTheCache := by
  unfold Obligations.OnlyRawWritesTheCache
  intro i s t hraw ht
  obtain rfl := exec_eq_next.mp ht
  cases hr : s.dec.runSymbol i with
  | ok d' => exact Dec.cache_runSymbol hraw hr
  | error f => rfl

end Sys2Proof.Machine
end

section
/-!
SUPPORT. The family 45_packed_stream.md: `Pack3` in numbers and its inverse (R176, R181), the writing operations for each
length of the pending list (R177 to R180), and the encoder's final step, which flushes the stream (46_encoder_fsm.md R203).
-/

namespace Sys2Proof

/-! ### Pack3 and Unpack3 -/

/-- Each field lies below the next one's lowest bit, so the disjunction is a sum and fits the word. -/
theorem toNat_pack3 (a b c : Code) : (pack3 a b c).toNat = a.toNat + b.toNat <<< 5 + c.toNat <<< 10 := by
  have hfields : (pack3 a b c).toNat = a.toNat ||| b.toNat <<< 5 ||| c.toNat <<< 10 := by
    have ha := a.isLt
    have hb := Nat.shiftLeft_lt (m := 5) b.isLt
    have hc := Nat.shiftLeft_lt (m := 10) c.isLt
    simp only [pack3, BitVec.toNat_or, BitVec.toNat_shiftLeft, BitVec.toNat_setWidth_of_le (show 5 ≤ 16 by decide)]
    rw [Nat.mod_eq_of_lt (hb.trans (by decide)), Nat.mod_eq_of_lt (hc.trans (by decide))]
  have hlow : a.toNat ||| b.toNat <<< 5 = a.toNat + b.toNat <<< 5 := by
    rw [Nat.or_comm, ← Nat.shiftLeft_add_eq_or_of_lt a.isLt, Nat.add_comm]
  have hlt : a.toNat + b.toNat <<< 5 < 2 ^ 10 := by
    rw [Nat.shiftLeft_eq]
    omega
  rw [hfields, hlow, Nat.or_comm, ← Nat.shiftLeft_add_eq_or_of_lt hlt, Nat.add_comm]

theorem decodeWord_of_not_rawIsValid {w : Word} (h : rawIsValid w = false) :
    decodeWord w = .chunk (unpack3 w).1 (unpack3 w).2.1 (unpack3 w).2.2 :=
  if_neg (Bool.eq_false_iff.mp h)

/-- The decoder takes a Chunk word's codes by `Unpack3`, and it reads a packed word as its codes (R182). -/
theorem unpack3_pack3 (a b c : Code) : unpack3 (pack3 a b c) = (a, b, c) := by
  have hchunk := (decodeWord_of_not_rawIsValid (rawIsValid_pack3 a b c)).symm.trans (Machine.decodeWord_pack3 a b c)
  injection hchunk with ha hb hc
  exact Prod.ext ha (Prod.ext hb hc)

/-- The three fields cover every bit but bit 15, and that one is clear in both words. -/
theorem pack3_unpack3 {w : Word} (h : rawIsValid w = false) :
    pack3 (unpack3 w).1 (unpack3 w).2.1 (unpack3 w).2.2 = w := by
  apply BitVec.eq_of_getLsbD_eq
  intro i hi
  rw [pack3_bit]
  simp only [unpack3, BitVec.getLsbD_extractLsb']
  rcases Nat.lt_succ_iff_lt_or_eq.mp hi with hlt | rfl
  · by_cases h5 : i < 5
    · simp [h5]
    · by_cases h10 : i < 10
      · simp [h5, h10, show i - 5 < 5 by omega, show 5 + (i - 5) = i by omega]
      · simp [h5, h10, show i - 10 < 5 by omega, show 10 + (i - 10) = i by omega]
  · rw [← rawIsValid_eq_bit w, h]
    simp

/-- Settles O5: the numbers by `toNat_pack3`, the two inverses by `unpack3_pack3` and `pack3_unpack3`. -/
theorem packAndUnpackAreInverse : Obligations.PackAndUnpackAreInverse := by
  unfold Obligations.PackAndUnpackAreInverse
  exact ⟨fun a b c => ⟨toNat_pack3 a b c, rawIsValid_pack3 a b c, unpack3_pack3 a b c⟩, fun _ => rfl,
    fun _ => pack3_unpack3⟩

end Sys2Proof

namespace Sys2Proof.Machine

open Sys2Proof

/-! ### Writing, for each length of the pending list -/

/-- A word joins `OUT` and the pending list is emptied: what packing does (45_packed_stream.md R177, R178). -/
def Enc.packed (w : Word) (e : Enc) : Enc :=
  { e with pend := [], outBuf := e.outBuf.write e.outn.toNat w, outn := e.outn + 1 }

theorem Enc.writeCode_of_nil {e : Enc} (h : e.pend = []) (c : Code) : e.writeCode c = { e with pend := [c] } := by
  rw [writeCode, h]
  rfl

theorem Enc.writeCode_of_one {e : Enc} {x : Code} (h : e.pend = [x]) (c : Code) :
    e.writeCode c = { e with pend := [x, c] } := by
  rw [writeCode, h]
  rfl

theorem Enc.writeCode_of_two {e : Enc} {x y : Code} (h : e.pend = [x, y]) (c : Code) :
    e.writeCode c = e.packed (pack3 x y c) := by
  rw [writeCode, h]
  rfl

theorem Enc.packPending_of_nil {e : Enc} (h : e.pend = []) : e.packPending = e := by
  rw [packPending, h]

theorem Enc.packPending_of_one {e : Enc} {x : Code} (h : e.pend = [x]) : e.packPending = e.packed (pack3 x 0 0) := by
  rw [packPending, h]
  rfl

theorem Enc.packPending_of_two {e : Enc} {x y : Code} (h : e.pend = [x, y]) :
    e.packPending = e.packed (pack3 x y 0) := by
  rw [packPending, h]
  rfl

/-- Settles O36: one equation per length of the pending list; `WriteRaw` and `Flush` are `PackPending` and what follows. -/
theorem pendingCodesPackByThree : Obligations.PendingCodesPackByThree := by
  unfold Obligations.PendingCodesPackByThree
  refine ⟨fun e x y c => ⟨?empty, ?one, ?two⟩, ?raw⟩
  case empty => exact fun h => ⟨Enc.writeCode_of_nil h c, Enc.packPending_of_nil h⟩
  case one => exact fun h => ⟨Enc.writeCode_of_one h c, Enc.packPending_of_one h⟩
  case two => exact fun h => ⟨Enc.writeCode_of_two h c, Enc.packPending_of_two h⟩
  case raw =>
    rintro e e' w rfl
    exact ⟨rfl, rfl⟩

/-! ### The final step -/

/-- With no run in flight and nothing pending, the final step only ends the run (46_encoder_fsm.md R204). -/
theorem Enc.step_final_of_empty {e : Enc} (hi : ¬ e.idx < e.count) (hrun : e.run = 0) (hpend : e.pend = []) :
    e.step = { e with phase := .done } := by
  rw [step, if_neg hi, finalStep, flushRun, if_pos hrun, flush, packPending_of_nil hpend]

/-- Settles O38: the codes and the padded chunk by `Enc.step_final`; packing leaves nothing pending. -/
theorem encoderFinalStep : Obligations.EncoderFinalStep := by
  unfold Obligations.EncoderFinalStep
  intro e he
  have hi : ¬ e.idx < e.count := he ▸ BitVec.lt_irrefl _
  have hstep := Enc.step_final hi
  refine ⟨?_, ?_, ?_, Enc.step_final_of_empty hi⟩
  · rw [hstep, Enc.writeCodes_eq, Enc.packPending_eq]
    rfl
  · rw [hstep]
    exact Stream.pack_pend _
  · rw [hstep]

end Sys2Proof.Machine
end

section
/-!
SUPPORT. The family 46_encoder_fsm.md: a step of the machine that is the encoder's (R196), the arms of the sample step
as writes of codes and words (R197 to R201), and the number of steps of a run (70_reset_and_hazards.md R294).
-/

namespace Sys2Proof.Machine

open Sys2Proof

/-! ### A step of the machine -/

theorem Enc.advance_of_busy {e : Enc} (h : e.phase = .busy) : e.advance = e.step :=
  if_pos h

theorem stepEngine_enc_of_busy {s : State} (h : s.enc.phase = .busy) :
    stepEngine .enc s = .next { s with enc := s.enc.step } := by
  rw [stepEngine_enc, Enc.advance_of_busy h]

theorem step_of_agenda_cons {s : State} {m : Move} {rest : List Move} (h : s.agenda = m :: rest) :
    step s = stepMove m { s with agenda := rest } := by
  rw [step, h]

theorem step_of_agenda_nil {s : State} (h : s.agenda = []) : step s = stepTurn s := by
  rw [step, h]

theorem State.isBusy_enc_iff {s : State} : s.isBusy .enc = true ↔ s.enc.phase = .busy :=
  beq_iff_eq

theorem State.isBusy_dec_iff {s : State} : s.isBusy .dec = true ↔ s.dec.phase = .busy :=
  beq_iff_eq

/-- A BUSY encoder takes its turn and passes it on. -/
theorem stepTurn_enc_of_busy {s : State} (ht : s.turn = .enc) (hb : s.enc.phase = .busy) :
    stepTurn s = .next { s with turn := .dec, enc := s.enc.step } := by
  rw [stepTurn, ht, if_pos (State.isBusy_enc_iff.mpr hb)]
  exact stepEngine_enc_of_busy (s := { s with turn := .dec }) hb

/-- A BUSY encoder takes the turn of a decoder that is not BUSY; the turn stays. -/
theorem stepTurn_dec_of_not_busy {s : State} (ht : s.turn = .dec) (hd : s.dec.phase ≠ .busy)
    (hb : s.enc.phase = .busy) : stepTurn s = .next { s with enc := s.enc.step } := by
  have hother : stepTurn s = stepEngine .enc s := by
    rw [stepTurn, ht, if_neg fun h => hd (State.isBusy_dec_iff.mp h)]
    rfl
  rw [hother, stepEngine_enc_of_busy hb]

/-- Settles O31: the encoder's move at the head of the agenda, in its own turn, and in the turn of a decoder that is
not BUSY. -/
theorem stepRunsTheEncoder : Obligations.StepRunsTheEncoder := by
  unfold Obligations.StepRunsTheEncoder
  intro s hb
  refine ⟨fun rest hs => ?agenda, fun hs ht => ?turn, fun hs ht hd => ?otherTurn⟩
  case agenda =>
    rw [step_of_agenda_cons hs]
    exact stepEngine_enc_of_busy (s := { s with agenda := rest }) hb
  case turn => rw [step_of_agenda_nil hs, stepTurn_enc_of_busy ht hb]
  case otherTurn => rw [step_of_agenda_nil hs, stepTurn_dec_of_not_busy ht hd hb]

/-! ### The arms of the sample step -/

/-- While `PREV` is the sentinel, the next sample is neither equal to it nor a valid difference from it
(40_precision_reducer.md R111; 41_bias_delta.md R121). -/
theorem Enc.sample_of_prev_sentinel {e : Enc} (hs : e.prec ≠ 0) (hp : e.prev = sentinel) :
    e.sample ≠ e.prev ∧ deltaIsValid e.cfgSel (deltaDiff e.sample e.prev) = false := by
  obtain ⟨hne, -, hinvalid⟩ :=
    sentinelIsFarFromEveryWorkingSample e.cfgSel e.prec e.sample hs (precGet_le_maxWorking _ _)
  rw [hp]
  exact ⟨hne, hinvalid⟩

/-- Settles O32: arm 1 by `Enc.step_run`, the sentinel by `Enc.sample_of_prev_sentinel`. -/
theorem equalSampleExtendsTheRun : Obligations.EqualSampleExtendsTheRun := by
  unfold Obligations.EqualSampleExtendsTheRun
  exact fun e hi => ⟨Enc.step_run hi, fun hs hp => (Enc.sample_of_prev_sentinel hs hp).1⟩

/-- The codes of the run in flight, and then one code, written to the encoder that has taken the sample `v`: neither
`IDX`, `RUN` nor `PREV` has a part in the writing, so it may come before their updates or after them. -/
theorem Enc.writeCodes_runInFlight_concat (e : Enc) (v : Word) (c : Code) :
    Enc.writeCodes (e.runInFlight ++ [c]) { e with idx := e.idx + 1, run := 0, prev := v } =
      { e.withStream (e.flushed.code c) with idx := e.idx + 1, run := 0, prev := v } := by
  rw [writeCodes_eq, List.foldl_append]
  rfl

/-- The codes of the run in flight, written and packed, on the encoder that has taken the sample `v`. -/
theorem Enc.packPending_writeCodes_runInFlight (e : Enc) (v : Word) :
    (Enc.writeCodes e.runInFlight { e with idx := e.idx + 1, run := 0, prev := v }).packPending =
      { e.withStream e.flushed.pack with idx := e.idx + 1, run := 0, prev := v } := by
  rw [writeCodes_eq, packPending_eq]
  rfl

/-- Settles O33: arm 3 by `Enc.step_delta`, whose premises do not mention the cache. -/
theorem smallDifferenceWritesDelta : Obligations.SmallDifferenceWritesDelta := by
  unfold Obligations.SmallDifferenceWritesDelta
  rintro e cur hi rfl
  refine ⟨fun hne hvalid => ?_, fun hs hp => (Enc.sample_of_prev_sentinel hs hp).2⟩
  rw [Enc.writeCodes_runInFlight_concat]
  exact Enc.step_delta hi hne hvalid

/-- Settles O34: arm 4 by `Enc.step_cache`. -/
theorem residentValueWritesCache : Obligations.ResidentValueWritesCache := by
  unfold Obligations.ResidentValueWritesCache
  rintro e cur hi rfl hne hinvalid hhit
  rw [Enc.writeCodes_runInFlight_concat]
  exact Enc.step_cache hi hne hinvalid hhit

/-- Settles O35: arm 5 by `Enc.step_raw`; the Raw word goes to the cell after the packed codes. -/
theorem otherValueWritesRaw : Obligations.OtherValueWritesRaw := by
  unfold Obligations.OtherValueWritesRaw
  rintro e e' cur hi rfl hne hinvalid hmiss rfl
  rw [Enc.packPending_writeCodes_runInFlight]
  exact Enc.step_raw hi hne hinvalid hmiss

/-! ### The length of a run -/

theorem Enc.SameRun.refl (e : Enc) : e.SameRun e :=
  ⟨rfl, rfl, rfl, rfl, rfl, rfl⟩

theorem Enc.SameRun.trans {e e' e'' : Enc} (h : e.SameRun e') (h' : e'.SameRun e'') : e.SameRun e'' :=
  ⟨h'.prec.trans h.prec, h'.hashShift.trans h.hashShift, h'.cfgSel.trans h.cfgSel, h'.count.trans h.count,
    h'.inBuf.trans h.inBuf, h'.fault.trans h.fault⟩

/-- As long as samples are left, each step of a BUSY encoder takes one of them (46_encoder_fsm.md R196). -/
theorem Enc.advance_iterate_of_le {e : Enc} (hb : e.phase = .busy) {k : Nat} (hk : e.idx.toNat + k ≤ e.count.toNat) :
    (Enc.advance^[k] e).phase = .busy ∧ (Enc.advance^[k] e).idx.toNat = e.idx.toNat + k ∧
      e.SameRun (Enc.advance^[k] e) := by
  induction k with
  | zero => exact ⟨hb, rfl, .refl e⟩
  | succ k ih =>
    obtain ⟨hphase, hidx, hsame⟩ := ih (by omega)
    have hlt : (Enc.advance^[k] e).idx.toNat < (Enc.advance^[k] e).count.toNat := by
      rw [hidx, hsame.count]
      omega
    obtain ⟨hphase', hidx'⟩ := (Enc.advance^[k] e).step_control.1 hlt
    rw [Function.iterate_succ_apply', advance_of_busy hphase, hphase', hidx', count_toNat_succ (by omega), hidx]
    exact ⟨hphase, Nat.add_assoc _ _ _, hsame.trans (step_sameRun _)⟩

/-- The step after the last sample is the final step (46_encoder_fsm.md R203). -/
theorem Enc.advance_iterate_last {e : Enc} (hb : e.phase = .busy) {k : Nat} (hk : e.idx.toNat + k = e.count.toNat) :
    (Enc.advance^[k + 1] e).phase = .done ∧ e.SameRun (Enc.advance^[k + 1] e) := by
  obtain ⟨hphase, hidx, hsame⟩ := advance_iterate_of_le hb hk.le
  have hlast : ¬ (Enc.advance^[k] e).idx < (Enc.advance^[k] e).count := by
    rw [BitVec.lt_def, hidx, hsame.count, hk]
    exact Nat.lt_irrefl _
  obtain ⟨hdone, -⟩ := (Enc.advance^[k] e).step_control.2 hlast
  rw [Function.iterate_succ_apply', advance_of_busy hphase]
  exact ⟨hdone, hsame.trans (step_sameRun _)⟩

/-- Settles O53: `COUNT` sample steps by `Enc.advance_iterate_of_le`, the final step by `Enc.advance_iterate_last`. -/
theorem encoderRunTakesCountPlusOneSteps : Obligations.EncoderRunTakesCountPlusOneSteps := by
  unfold Obligations.EncoderRunTakesCountPlusOneSteps
  intro s hs
  have hstart (k : Nat) : s.enc.idx.toNat + k = k := by simp [hs.fresh.idx]
  refine ⟨fun k hk => ?_, ?_⟩
  · obtain ⟨hphase, hidx, -⟩ := Enc.advance_iterate_of_le hs.phase ((hstart k).trans_le hk)
    exact ⟨_, s.runEngine_enc k, hphase, hidx.trans (hstart k)⟩
  · obtain ⟨hdone, hsame⟩ := Enc.advance_iterate_last hs.phase (hstart s.enc.count.toNat)
    exact ⟨_, s.runEngine_enc _, hdone, hsame.fault.trans hs.fault⟩

end Sys2Proof.Machine
end

section
/-!
SUPPORT. The family 47_decoder_fsm.md, first part: the round trip (R236). Before every step of the encoder, what it has
written replays to the samples before the run in flight (`Enc.Tracks`); with the run's codes written, the replay resolves to
all samples taken (`Enc.restored`). The decoder follows the replay (`Shows.words`), so its final step ends in DONE.
-/

namespace Sys2Proof.Machine

open Sys2Proof

/-! ### The replay of the codes the encoder writes -/

/-- Pads at the end of a run do not change what it resolves to (42_run_length.md R140). -/
theorem Replay.resolve_append_zeros (a : Replay) (k : Nat) :
    Replay.resolve { a with acc := a.acc ++ List.replicate k 0 } = a.resolve := by
  simp only [resolve, runLength_append_zeros]

/-- A WorkingSample is emitted once the run is resolved (47_decoder_fsm.md R228). -/
theorem Replay.resolveEmit_eq_some {p : Params} {a b : Replay} {cur : Replay → Option Int} {w : Word}
    (hb : a.resolve = some b) (hcur : cur b = some (w.toNat : Int)) (hw : w.toNat ≤ maxWorking p.prec) :
    a.resolveEmit p cur = some { b with prev := w, out := b.out ++ [w] } := by
  have hrange : ¬ ((w.toNat : Int) < 0 ∨ (maxWorking p.prec : Int) < w.toNat) := by omega
  rw [resolveEmit, hb, Option.bind_some, hcur, Option.bind_some, emit, if_neg hrange, ofInt_toNat_word]

theorem Replay.code_of_isDelta {p : Params} (a : Replay) {c : Code} (hc : (tagsOf p.cfgSel).delta.isTagOf c = true) :
    a.code p c =
      a.resolveEmit p (Replay.deltaSample (maxv p.cfgSel) ((tagsOf p.cfgSel).delta.payload c).toNat) := by
  have hlt := (deltaScheme_layout p.cfgSel).payload_lt c
  rw [code]
  cases hsel : p.cfgSel with
  | a =>
    rw [hsel] at hc hlt
    rw [decodeCode_a_of_isDelta hc, symbol, BitVec.toNat_setWidth]
    exact congrArg (fun q => a.resolveEmit p (Replay.deltaSample (maxv .a) q)) (Nat.mod_eq_of_lt hlt)
  | b =>
    rw [hsel] at hc hlt
    rw [decodeCode_b_of_isDelta hc, symbol, BitVec.toNat_setWidth]
    exact congrArg (fun q => a.resolveEmit p (Replay.deltaSample (maxv .b) q)) (Nat.mod_eq_of_lt hlt)

/-- The code of a valid difference restores the sample it was taken from (41_bias_delta.md R125). -/
theorem Replay.code_deltaEncode {p : Params} {a b : Replay} {w : Word} (hb : a.resolve = some b)
    (hvalid : deltaIsValid p.cfgSel (deltaDiff w b.prev) = true) (hprev : b.prev ≠ sentinel)
    (hw : w.toNat ≤ maxWorking p.prec) :
    a.code p (deltaEncode p.cfgSel (deltaDiff w b.prev)) = some { b with prev := w, out := b.out ++ [w] } := by
  rw [code_of_isDelta a (isTagOf_deltaEncode hvalid)]
  refine resolveEmit_eq_some hb ?_ hw
  rw [deltaSample, if_neg hprev, deltaDecode, deltaUnbias_deltaEncode hvalid, deltaDiff, add_sub_cancel]

theorem Replay.code_cacheCode_hashSlot (p : Params) (a : Replay) (v : Word) :
    a.code p (cacheCode p.cfgSel (hashSlot p.cfgSel p.hashShift v)) =
      a.resolveEmit p (Replay.cacheSample (hashSlot p.cfgSel p.hashShift v)) := by
  rw [code]
  cases hsel : p.cfgSel with
  | a =>
    have hlow : hashSlot .a p.hashShift v = ((hashSlot .a p.hashShift v).setWidth 3).setWidth 4 := by
      apply BitVec.eq_of_toNat_eq
      have hlt : (hashSlot .a p.hashShift v).toNat < 8 := by
        rw [hashSlot_toNat]
        exact Nat.mod_lt _ (by decide)
      rw [BitVec.toNat_setWidth, BitVec.toNat_setWidth]
      omega
    rw [hlow, decodeCode_cacheCode_a]
    rfl
  | b =>
    rw [decodeCode_cacheCode_b]
    rfl

/-- The code of a hit restores the sample that hit (43_recent_value_cache.md R152, R153). -/
theorem Replay.code_cacheCode {p : Params} {a b : Replay} {w : Word} (hb : a.resolve = some b)
    (hslot : b.slot (hashSlot p.cfgSel p.hashShift w) = w) (hne : w ≠ sentinel) (hw : w.toNat ≤ maxWorking p.prec) :
    a.code p (cacheCode p.cfgSel (hashSlot p.cfgSel p.hashShift w)) =
      some { b with prev := w, out := b.out ++ [w] } := by
  rw [code_cacheCode_hashSlot]
  refine resolveEmit_eq_some hb ?_ hw
  rw [cacheSample, hslot, if_neg hne]

/-- The Raw word of a WorkingSample restores it and inserts it in the cache (44_raw_escape.md R166, R167). -/
theorem Replay.word_rawWord {p : Params} {a b : Replay} {w : Word} (hb : a.resolve = some b) (hs : p.prec ≠ 0)
    (hw : w.toNat ≤ maxWorking p.prec) :
    a.word p (rawWord w) = some (Replay.insert p w { b with prev := w, out := b.out ++ [w] }) := by
  have hbit : w.toNat < 2 ^ 15 := Nat.lt_succ_of_le (hw.trans (maxWorking_le hs))
  have hpayload : (w.setWidth 15).toNat = w.toNat := by rw [BitVec.toNat_setWidth, Nat.mod_eq_of_lt hbit]
  have hwide : (w.setWidth 15).setWidth 16 = w :=
    BitVec.eq_of_toNat_eq ((BitVec.toNat_setWidth_of_le (by decide)).trans hpayload)
  have hdecode := decodeWord_rawWord (w.setWidth 15)
  rw [hwide] at hdecode
  rw [word, hdecode]
  simp only [symbol]
  rw [resolveEmit_eq_some hb (congrArg (fun n : Nat => some (n : Int)) hpayload) hw, hwide, Option.map_some]

/-! ### What the encoder has written -/

/-- The parameters of the encoder's run. -/
def Enc.params (e : Enc) : Params :=
  ⟨e.prec, e.hashShift, e.cfgSel⟩

/-- The WorkingSample of cell `i` of `IN` (46_encoder_fsm.md R196). -/
def Enc.sampleAt (e : Enc) (i : Nat) : Word :=
  precGet e.prec (memRead .encIn e.inBuf i)

/-- The WorkingSamples the encoder has taken so far. -/
def Enc.taken (e : Enc) : List Word :=
  (List.range e.idx.toNat).map e.sampleAt

/-- Where a decoder stands that has restored every sample the encoder has taken. -/
def Enc.restored (e : Enc) : Replay :=
  ⟨e.prev, e.cache, [], e.taken⟩

/-- What the encoder has written replays to `out`, the samples it has taken but for the run in flight, and `PREV` and the
cache are the replay's; a run in flight repeats a sample (46_encoder_fsm.md R197). -/
structure Enc.Tracks (e : Enc) (out : List Word) : Prop where
  means : e.stream.Means e.params ⟨e.prev, e.cache, [], out⟩
  taken : e.taken = out ++ List.replicate e.run.toNat e.prev
  prev : e.run ≠ 0 → e.prev ≠ sentinel
  pend : e.pend.length ≤ 2
  account : e.stream.weight + e.run.toNat ≤ e.idx.toNat

/-- The samples are a matter of the parameters and the input. -/
theorem Enc.SameRun.sampleAt {e e' : Enc} (h : e.SameRun e') : e'.sampleAt = e.sampleAt :=
  funext fun i => by rw [Enc.sampleAt, h.prec, h.inBuf, Enc.sampleAt]

theorem Enc.length_taken (e : Enc) : e.taken.length = e.idx.toNat := by
  rw [taken, List.length_map, List.length_range]

/-- With no code pending, the words of a stream alone replay to what it means. -/
theorem Stream.Means.exists_words {p : Params} {x : Stream} {a : Replay} (h : x.Means p a) (hp : x.pend = []) :
    ∃ ws, ws.length = x.n.toNat ∧ (∀ i (hi : i < ws.length), x.out.read? i = some ws[i]) ∧
      Replay.start.words p ws = some a := by
  obtain ⟨ws, b, hlen, hcells, hwords, hcodes⟩ := h
  rw [hp, Replay.codes_nil] at hcodes
  exact ⟨ws, hlen, hcells, hcodes ▸ hwords⟩

/-- After reset every slot of the cache holds the sentinel (10_state.md R45). -/
theorem Engine.Fresh.cache_eq {g : Engine} (h : g.Fresh) : g.cache = Vector.replicate 16 sentinel :=
  (cache_eq_iff_slot g Engine.reset).mpr fun i => by rw [h.slots i, Engine.slot_replicate rfl i]

theorem Enc.Started.tracks {e : Enc} (h : e.Started) : e.Tracks [] := by
  obtain ⟨⟨hengine, hidx, hrun, hpend⟩, -, -, -⟩ := h
  have houtn := hengine.outn
  refine ⟨⟨[], Replay.start, ?_, fun i hi => absurd hi (Nat.not_lt_zero i), Replay.words_nil.mpr rfl, ?_⟩,
    ?_, ?_, ?_, ?_⟩
  · simp [stream, houtn]
  · rw [hengine.prev, hengine.cache_eq, show e.stream.pend = [] from hpend, Replay.codes_nil, Replay.start]
  · simp [taken, hidx, hrun]
  · exact fun hne => absurd hrun hne
  · simp [hpend]
  · simp [stream, Stream.weight, houtn, hpend, hrun]

/-- The codes of the run in flight are paid for by its samples (46_encoder_fsm.md R206). -/
theorem Enc.Tracks.flushed_grows {e : Enc} {out : List Word} (h : e.Tracks out) :
    Stream.Grows e.run.toNat e.stream e.flushed ∧ e.flushed.weight ≤ e.idx.toNat := by
  have haccount := h.account
  have hgrows := Enc.flushed_grows h.pend (by omega)
  exact ⟨hgrows, hgrows.weight.trans haccount⟩

/-- Packed, they are still paid for. -/
theorem Enc.Tracks.packed_grows {e : Enc} {out : List Word} (h : e.Tracks out) :
    Stream.Grows e.run.toNat e.stream e.flushed.pack ∧ e.flushed.pack.weight ≤ e.idx.toNat := by
  obtain ⟨hgrows, hweight⟩ := h.flushed_grows
  have hpack := Stream.pack_grows hgrows.pend (by omega)
  exact ⟨hgrows.trans hpack, hpack.weight.trans hweight⟩

/-- The codes of the run in flight complete what has been written: the replay resolves to every sample taken. -/
theorem Enc.Tracks.flushed_means {e : Enc} {out : List Word} (h : e.Tracks out) :
    ∃ a, e.flushed.Means e.params a ∧ a.resolve = some e.restored := by
  by_cases hrun : e.run = 0
  · have hflushed : e.flushed = e.stream := by rw [flushed, runInFlight, if_pos hrun]; rfl
    have htaken := h.taken
    rw [show e.run.toNat = 0 from congrArg BitVec.toNat hrun, List.replicate_zero, List.append_nil] at htaken
    refine ⟨_, hflushed ▸ h.means, ?_⟩
    rw [Replay.resolve, if_pos runLength_nil, restored, htaken]
  · have hlength : runLength (runDigits e.run.toNat) = e.run.toNat := runLength_runDigits e.run.isLt
    have hcodes : e.runInFlight = (runDigits e.run.toNat).map (runCode e.params.cfgSel) := if_neg hrun
    have hbound := e.length_runInFlight_le
    have haccount := h.account
    refine ⟨_, h.means.codes h.pend (by omega) (hcodes ▸ Replay.codes_run _ _), ?_⟩
    have hne : e.run.toNat ≠ 0 := fun h0 => hrun (BitVec.eq_of_toNat_eq h0)
    simp only [Replay.resolve, List.nil_append, hlength, if_neg hne, if_neg (h.prev hrun), restored, h.taken]

/-- What has been written, packed: the pads do not count. -/
theorem Enc.Tracks.packed_means {e : Enc} {out : List Word} (h : e.Tracks out) :
    ∃ a, e.flushed.pack.Means e.params a ∧ a.resolve = some e.restored := by
  obtain ⟨a, hmeans, ha⟩ := h.flushed_means
  obtain ⟨hgrows, hweight⟩ := h.flushed_grows
  obtain ⟨k, hpack⟩ := hmeans.pack hgrows.pend (by omega)
  exact ⟨_, hpack, (a.resolve_append_zeros k).trans ha⟩

/-! ### The encoder's steps -/

theorem Enc.sample_le_maxWorking (e : Enc) : e.sample.toNat ≤ maxWorking e.prec :=
  precGet_le_maxWorking _ _

theorem Enc.sample_ne_sentinel {e : Enc} (hs : e.prec ≠ 0) : e.sample ≠ sentinel :=
  (sentinelIsFarFromEveryWorkingSample e.cfgSel e.prec e.sample hs e.sample_le_maxWorking).1

theorem Enc.taken_step {e : Enc} (hi : e.idx < e.count) : e.step.taken = e.taken ++ [e.sample] := by
  have hlt : e.idx.toNat < e.count.toNat := hi
  obtain ⟨-, hidx⟩ := e.step_control.1 hi
  rw [taken, hidx, count_toNat_succ (by omega), List.range_succ, List.map_append, e.step_sameRun.sampleAt, taken]
  rfl

/-- A sample that breaks the run: what was written for it restores it, and no run is in flight. -/
theorem Enc.Tracks.coded {e : Enc} {out : List Word} {y : Stream} {c : Vector Word 16} (h : e.Tracks out)
    (hi : e.idx < e.count)
    (hstep : e.step = { e.withStream y with idx := e.idx + 1, run := 0, prev := e.sample, cache := c })
    (hy : Stream.Grows (e.run.toNat + 1) e.stream y)
    (hmeans : y.Means e.params ⟨e.sample, c, [], e.taken ++ [e.sample]⟩) : e.step.Tracks (e.taken ++ [e.sample]) := by
  have hlt : e.idx.toNat < e.count.toNat := hi
  have hidx : (e.idx + 1).toNat = e.idx.toNat + 1 := count_toNat_succ (by omega)
  have hweight := hy.weight
  have haccount := h.account
  have htaken := taken_step hi
  rw [hstep] at htaken ⊢
  exact
    { means := hmeans
      taken := htaken.trans (List.append_nil _).symm
      prev := fun hne => absurd rfl hne
      pend := hy.pend
      account := show y.weight + 0 ≤ (e.idx + 1).toNat by omega }

/-- A sample that extends the run: nothing is written, and the run is one longer (46_encoder_fsm.md R197). -/
theorem Enc.Tracks.extended {e : Enc} {out : List Word} (h : e.Tracks out) (hs : e.prec ≠ 0) (hi : e.idx < e.count)
    (hp : e.sample = e.prev) : e.step.Tracks out := by
  have hlt : e.idx.toNat < e.count.toNat := hi
  have haccount := h.account
  have hidx : (e.idx + 1).toNat = e.idx.toNat + 1 := count_toNat_succ (by omega)
  have hrun : (e.run + 1).toNat = e.run.toNat + 1 := count_toNat_succ (by omega)
  have htaken : e.step.taken = out ++ List.replicate (e.run + 1).toNat e.prev := by
    rw [taken_step hi, h.taken, hp, hrun, List.replicate_succ', List.append_assoc]
  rw [Enc.step_run hi hp] at htaken ⊢
  exact
    { means := h.means
      taken := htaken
      prev := fun _ => hp ▸ e.sample_ne_sentinel hs
      pend := h.pend
      account := show e.stream.weight + (e.run + 1).toNat ≤ (e.idx + 1).toNat by omega }

/-- A code that restores the sample after the run in flight: written, it keeps the replay (46_encoder_fsm.md R199, R200). -/
theorem Enc.Tracks.code {e : Enc} {out : List Word} {c : Code} (h : e.Tracks out) (hi : e.idx < e.count)
    (hstep : e.step = { e.withStream (e.flushed.code c) with idx := e.idx + 1, run := 0, prev := e.sample })
    (hc : ∀ a : Replay, a.resolve = some e.restored →
      a.code e.params c = some ⟨e.sample, e.cache, [], e.taken ++ [e.sample]⟩) :
    e.step.Tracks (e.taken ++ [e.sample]) := by
  obtain ⟨a, hmeans, ha⟩ := h.flushed_means
  obtain ⟨hgrows, hweight⟩ := h.flushed_grows
  have hlt : e.idx.toNat < e.count.toNat := hi
  have hn : e.flushed.n.toNat + 1 < 2 ^ 32 := by
    have : e.flushed.n.toNat ≤ e.flushed.weight := Nat.le_add_right _ _
    omega
  exact h.coded hi hstep (hgrows.trans (Stream.code_grows c hgrows.pend hn)) (hmeans.code hgrows.pend hn (hc a ha))

/-- The Raw word restores the sample after the run in flight, padded to a whole word (46_encoder_fsm.md R201). -/
theorem Enc.Tracks.raw {e : Enc} {out : List Word} (h : e.Tracks out) (hs : e.prec ≠ 0) (hi : e.idx < e.count)
    (hstep : e.step = { e.withStream (e.flushed.pack.append (rawWord e.sample)) with
      idx := e.idx + 1, run := 0, prev := e.sample, cache := (e.toEngine.insert e.sample).cache }) :
    e.step.Tracks (e.taken ++ [e.sample]) := by
  obtain ⟨a, hmeans, ha⟩ := h.packed_means
  obtain ⟨ws, hlen, hcells, hwords⟩ := hmeans.exists_words (Stream.pack_pend _)
  obtain ⟨hgrows, hweight⟩ := h.packed_grows
  have hlt : e.idx.toNat < e.count.toNat := hi
  have hn : e.flushed.pack.n.toNat + 1 < 2 ^ 32 := by
    have : e.flushed.pack.n.toNat ≤ e.flushed.pack.weight := Nat.le_add_right _ _
    omega
  have hmeans := Stream.Means.append hn hlen hcells hwords (Replay.word_rawWord ha hs e.sample_le_maxWorking)
  rw [← Stream.pack_pend e.flushed] at hmeans
  exact h.coded hi hstep (hgrows.trans (Stream.append_grows (rawWord e.sample) hgrows.pend hn)) hmeans

/-- A sample step keeps the replay (46_encoder_fsm.md R208). -/
theorem Enc.Tracks.step {e : Enc} {out : List Word} (h : e.Tracks out) (hs : e.prec ≠ 0) (hi : e.idx < e.count) :
    ∃ out', e.step.Tracks out' := by
  rcases e.step_cases with ⟨-, hp, -⟩ | ⟨-, -, hd, hstep⟩ | ⟨-, -, -, hc, hstep⟩ | ⟨-, -, -, -, hstep⟩ |
    ⟨hn, -⟩
  · exact ⟨_, h.extended hs hi hp⟩
  · have hprev : e.prev ≠ sentinel := fun hp' => by
      rw [(Enc.sample_of_prev_sentinel hs hp').2] at hd
      cases hd
    exact ⟨_, h.code hi hstep fun a ha =>
      Replay.code_deltaEncode (p := e.params) (b := e.restored) ha hd hprev e.sample_le_maxWorking⟩
  · exact ⟨_, h.code hi hstep fun a ha =>
      Replay.code_cacheCode ha hc (e.sample_ne_sentinel hs) e.sample_le_maxWorking⟩
  · exact ⟨_, h.raw hs hi hstep⟩
  · exact absurd hi hn

/-- Every sample step of a started encoder keeps the replay. -/
theorem Enc.Started.tracks_iterate {e : Enc} (h : e.Started) {k : Nat} (hk : k ≤ e.count.toNat) :
    ∃ out, (Enc.advance^[k] e).Tracks out := by
  induction k with
  | zero => exact ⟨[], h.tracks⟩
  | succ k ih =>
    obtain ⟨out, hout⟩ := ih (by omega)
    have hstart : e.idx.toNat + k = k := by simp [h.fresh.idx]
    obtain ⟨hbusy, hidx, hsame⟩ := advance_iterate_of_le h.phase (k := k) (by omega)
    rw [Function.iterate_succ_apply', advance_of_busy hbusy]
    refine hout.step (hsame.prec ▸ h.prec) ?_
    rw [BitVec.lt_def, hidx, hsame.count, hstart]
    exact hk

/-- An encoder at the end of its run has the words `ws` in `OUT`, and they replay, the last run resolved, to every sample
it has taken. -/
structure Enc.Finished (e : Enc) (ws : List Word) : Prop where
  phase : e.phase = .done
  length : ws.length = e.outn.toNat
  cells : ∀ i (hi : i < ws.length), e.outBuf.read? i = some ws[i]
  words : ∃ a, Replay.start.words e.params ws = some a ∧ a.resolve = some e.restored

/-- The final step writes the run in flight and leaves nothing pending (46_encoder_fsm.md R203). -/
theorem Enc.Tracks.final {e : Enc} {out : List Word} (h : e.Tracks out) (hi : ¬ e.idx < e.count) :
    ∃ ws, e.step.Finished ws := by
  obtain ⟨a, hmeans, ha⟩ := h.packed_means
  obtain ⟨ws, hlen, hcells, hwords⟩ := hmeans.exists_words (Stream.pack_pend _)
  rw [Enc.step_final hi]
  exact ⟨ws, rfl, hlen, hcells, a, hwords, ha⟩

/-- A started encoder runs to DONE and has then taken its whole input (46_encoder_fsm.md R203). -/
theorem Enc.Started.finished {e : Enc} (h : e.Started) :
    (∃ ws, (Enc.advance^[e.count.toNat + 1] e).Finished ws) ∧ (Enc.advance^[e.count.toNat + 1] e).idx = e.count ∧
      e.SameRun (Enc.advance^[e.count.toNat + 1] e) := by
  have hstart : e.idx.toNat + e.count.toNat = e.count.toNat := by simp [h.fresh.idx]
  obtain ⟨out, htracks⟩ := h.tracks_iterate le_rfl
  obtain ⟨hbusy, hidx, hsame⟩ := advance_iterate_of_le h.phase hstart.le
  obtain ⟨-, hsame'⟩ := advance_iterate_last h.phase hstart
  have hlast : ¬ (Enc.advance^[e.count.toNat] e).idx < (Enc.advance^[e.count.toNat] e).count := by
    rw [BitVec.lt_def, hidx, hsame.count, hstart]
    exact Nat.lt_irrefl _
  obtain ⟨-, hidx'⟩ := (step_control _).2 hlast
  rw [Function.iterate_succ_apply', advance_of_busy hbusy] at hsame' ⊢
  exact ⟨htracks.final hlast, hidx'.trans (BitVec.eq_of_toNat_eq (hidx.trans hstart)), hsame'⟩

/-! ### The decoder follows -/

theorem memRead_of_read?_eq_some {sp : Space} {m : Memory} {i : Nat} {v : Word} (h : m.read? i = some v) :
    memRead sp m i = v := by
  rw [memRead, h]

/-- A started decoder stands where the replay starts. -/
theorem Dec.Started.shows {d : Dec} {p : Params} (h : d.Started) (hprec : d.prec = p.prec)
    (hshift : d.hashShift = p.hashShift) (hsel : d.cfgSel = p.cfgSel) : Shows p d Replay.start := by
  obtain ⟨⟨hengine, -, -, hacc⟩, -, -, -⟩ := h
  exact ⟨hprec, hshift, hsel, hengine.prev, hengine.cache_eq, hacc, by simp [hengine.outn, Replay.start],
    fun i hi => absurd hi (Nat.not_lt_zero i)⟩

/-- The final step of a decoder whose trailing run completes the samples expected (47_decoder_fsm.md R230). -/
theorem Shows.final {p : Params} {d : Dec} {a b : Replay} (h : Shows p d a) (hb : d.phase = .busy) (hq : d.q = [])
    (hend : ¬ d.rptr < d.pcount) (ha : a.resolve = some b) (hfull : b.out.length = d.expected.toNat) :
    d.advance.phase = .done ∧ Shows p d.advance b := by
  obtain ⟨d1, hres, hshows, hsame⟩ := h.resolve ha hfull.le
  have hcount : d1.outn = d1.expected := BitVec.eq_of_toNat_eq (by rw [hshows.outn, hfull, hsame.expected])
  have hfetch : d.fetch = none := by simp only [Dec.fetch, hq, if_neg hend]
  have hstep : d.advance = { d1 with phase := .done } := by
    rw [Dec.advance, if_pos hb, Dec.step, hfetch]
    simp only [Dec.final_of_full hres hcount, Dec.settle_ok]
  rw [hstep]
  exact ⟨rfl, hshows.1, hshows.2, hshows.3, hshows.4, hshows.5, hshows.6, hshows.7, hshows.8⟩

/-- A decoder started on the words of a finished encoder, with its parameters and its number of samples, ends in DONE where
the replay of the words stands. -/
theorem Dec.Started.restores {d : Dec} {e : Enc} {ws : List Word} (h : d.Started) (hf : e.Finished ws)
    (hparams : e.toEngine.SameParams d.toEngine) (hp : d.pcount = e.outn) (hx : d.expected = e.idx)
    (hin : ∀ i, i < e.outn.toNat → memRead .decIn d.inBuf i = memRead .encOut e.outBuf i) :
    (Dec.advance^[4 * d.pcount.toNat + 1] d).phase = .done ∧
      Shows e.params (Dec.advance^[4 * d.pcount.toNat + 1] d) e.restored := by
  obtain ⟨a, hwords, ha⟩ := hf.words
  have hlen : ws.length = d.pcount.toNat := by rw [hf.length, hp]
  have hrptr : d.rptr.toNat = 0 := by simp [h.fresh.rptr]
  have hfull : e.restored.out.length = d.expected.toNat := by rw [hx, ← e.length_taken, Enc.restored]
  have hstart := h.shows (p := e.params) hparams.prec.symm hparams.hashShift.symm hparams.cfgSel.symm
  have hcells (i : Nat) (hi : i < ws.length) : memRead .decIn d.inBuf (d.rptr.toNat + i) = ws[i] := by
    rw [hrptr, Nat.zero_add, hin i (hf.length ▸ hi), memRead_of_read?_eq_some (hf.cells i hi)]
  obtain ⟨k, hk, d1, hd1, hshows, hbusy, -, hq, hend, hpcount, hexpected⟩ :=
    hstart.words h.phase h.fresh.q (by omega) hcells hwords (hfull ▸ Replay.length_resolve ha)
  have hlast : ¬ d1.rptr < d1.pcount := by
    rw [BitVec.lt_def, hend, hpcount]
    omega
  have hfinal := hshows.final hbusy hq hlast ha (by rw [hfull, hexpected])
  obtain ⟨j, hj⟩ := Nat.exists_eq_add_of_le (show k + 1 ≤ 4 * d.pcount.toNat + 1 by omega)
  have hover : Dec.advance^[4 * d.pcount.toNat + 1] d = d1.advance := by
    rw [hj, Nat.add_comm, Function.iterate_add_apply, Function.iterate_succ_apply', hd1,
      advance_iterate_of_not_busy (by simp [hfinal.1])]
  rw [hover]
  exact hfinal

/-- Settles O56: the encoder's words replay to its samples by `Enc.Started.finished`, and the decoder ends where the replay
stands by `Dec.Started.restores`. -/
theorem decodingAnEncodedStreamRestoresIt : Obligations.DecodingAnEncodedStreamRestoresIt := by
  unfold Obligations.DecodingAnEncodedStreamRestoresIt
  intro s hs
  obtain ⟨⟨ws, hfinished⟩, hidx, hsame⟩ := hs.finished
  refine ⟨_, s.runEngine_enc _, hfinished.phase, fun u hu hparams hp hx hin => ?_⟩
  have hparams' : Engine.SameParams (Enc.advance^[s.enc.count.toNat + 1] s.enc).toEngine u.dec.toEngine :=
    ⟨hsame.prec.trans hparams.prec, hsame.hashShift.trans hparams.hashShift, hsame.cfgSel.trans hparams.cfgSel⟩
  obtain ⟨hdone, hshows⟩ := hu.restores hfinished hparams' hp (hx.trans hidx.symm) hin
  have hlen := (Enc.length_taken _).trans (congrArg BitVec.toNat hidx)
  refine ⟨_, u.runEngine_dec _, hdone, BitVec.eq_of_toNat_eq (hshows.outn.trans hlen), fun i hi => ?_, hshows.prev,
    hshows.cache⟩
  rw [hshows.cells i (hlen.symm ▸ hi)]
  simp only [Enc.restored, Enc.taken, List.getElem_map, List.getElem_range, hsame.sampleAt, Enc.params, hsame.prec]
  rfl

end Sys2Proof.Machine
end

section
/-!
SUPPORT. The family 47_decoder_fsm.md, second part: what each symbol does when it runs (R222 to R226), and which symbol a
step of the machine runs (R221).
-/

namespace Sys2Proof.Machine

open Sys2Proof

/-! ### RUN, PAD and CHUNK -/

/-- The payload of a RUN code is its low three bits (30_encoding.md R85). -/
theorem payload_run (c : Code) : ((tagsOf .a).run.payload c).setWidth 3 = c.extractLsb' 0 3 := by
  apply BitVec.eq_of_getLsbD_eq
  intro i hi
  rw [Scheme.payload, BitVec.getLsbD_setWidth, BitVec.getLsbD_and, (runScheme_layout .a).mask,
    BitVec.getLsbD_setWidth, BitVec.getLsbD_extractLsb']
  simp [hi, show i < 8 by omega, show i < (tagsOf .a).run.width from hi]

/-- Settles O14: both symbols run in every state; the payload by `payload_run`. -/
theorem runAndPadAppendTheirDigit : Obligations.RunAndPadAppendTheirDigit := by
  unfold Obligations.RunAndPadAppendTheirDigit
  refine ⟨fun n s => ⟨exec_eq_settle (.run n) s, exec_eq_settle .pad s⟩, fun sel c hc => ?_⟩
  rw [runScheme_eq] at hc
  rw [decodeCode_of_isRun sel hc, payload_run]

/-- Settles O15: the symbol runs in every state; a word whose bit 15 is clear is no Raw word. -/
theorem chunkQueuesItsThreeCodes : Obligations.ChunkQueuesItsThreeCodes := by
  unfold Obligations.ChunkQueuesItsThreeCodes
  exact ⟨fun a b c s => exec_eq_settle (.chunk a b c) s,
    fun w hw => decodeWord_of_not_rawIsValid ((rawIsValid_eq_bit w).trans hw)⟩

/-! ### The symbols that stand for one sample -/

/-- Taking the symbol does not touch what room is measured by. -/
theorem Dec.HasRoom.consume {d : Dec} (i : Instr) (h : d.HasRoom) : (d.consume i).HasRoom := by
  exact ⟨by simpa using h.prev, by simpa using h.room⟩

/-- What was emitted is the same before and after the symbol is taken. -/
theorem Dec.Emitted.of_consume {d d' : Dec} {i : Instr} {w : Word} (h : (d.consume i).Emitted d' w) :
    d.Emitted d' w where
  prev := h.prev
  acc := h.acc
  outn := by simpa using h.outn
  runCells := by simpa using h.runCells
  sampleCell := by simpa using h.sampleCell
  otherCells := by simpa using h.otherCells
  phase := by simpa using h.phase
  fault := by simpa using h.fault
  sameRun := (d.consume_sameRun i).trans h.sameRun

/-- A symbol whose sample is the WorkingSample `w`, with room for it: it is taken, the run is resolved and `w` emitted. -/
theorem Dec.consume_resolveEmit {d : Dec} {cur : Dec → Except FaultCode Int} {w : Word} (i : Instr) (h : d.HasRoom)
    (hcur : cur (d.consume i).afterRun = .ok w.toNat) (hw : w.toNat ≤ maxWorking d.prec) :
    ∃ d', (d.consume i).resolveEmit cur = .ok d' ∧ d.Emitted d' w ∧ d'.rptr = (d.consume i).rptr ∧
      d'.q = (d.consume i).q ∧ d'.cache = d.cache := by
  obtain ⟨d', hrun, hemitted, hrptr, hq, hcache⟩ := resolveEmit_emitted (h.consume i) hcur (by simpa using hw)
  exact ⟨d', hrun, hemitted.of_consume, hrptr, hq, by simpa using hcache⟩

theorem exec_of_runSymbol {i : Instr} {s : State} {d : Dec} (h : s.dec.runSymbol i = .ok d) :
    exec i s = .next { s with dec := d } := by
  rw [exec_eq_settle, h, State.settle_ok]

theorem State.onlyDec (s : State) (d : Dec) : s.OnlyDec { s with dec := d } :=
  ⟨rfl, rfl, rfl, rfl⟩

/-- A code that stands for one sample: the cache is not written (47_decoder_fsm.md R223, R224). -/
theorem exec_emits {i : Instr} {s : State} {cur : Dec → Except FaultCode Int} {w : Word}
    (hsym : s.dec.runSymbol i = (s.dec.consume i).resolveEmit cur) (hi : i.isWord = false) (hroom : s.dec.HasRoom)
    (hcur : cur (s.dec.consume i).afterRun = .ok w.toNat) (hw : w.toNat ≤ maxWorking s.dec.prec) :
    ∃ t, exec i s = .next t ∧ s.OnlyDec t ∧ s.dec.Emitted t.dec w ∧
      t.dec.rptr = s.dec.rptr ∧ t.dec.q = s.dec.q.tail ∧ t.dec.cache = s.dec.cache := by
  have hpop : s.dec.consume i = s.dec.popCode := by rw [Dec.consume, hi]; rfl
  obtain ⟨d', hrun, hemitted, hrptr, hq, hcache⟩ := Dec.consume_resolveEmit i hroom hcur hw
  rw [hpop] at hrptr hq
  exact ⟨_, exec_of_runSymbol (hsym.trans hrun), s.onlyDec d', hemitted, hrptr, hq, hcache⟩

/-- The resolution keeps `PREV`, so a DELTA code is relative to the sample before the run (47_decoder_fsm.md R223). -/
theorem deltaSample_afterRun {d : Dec} {m p : Nat} {w : Word} (hprev : d.prev ≠ sentinel)
    (hw : (w.toNat : Int) = deltaDecode m p d.prev) : deltaSample m p d.afterRun = .ok w.toNat := by
  have hafter : d.afterRun.prev = d.prev := by simp [Dec.afterRun]
  rw [deltaSample, hafter, if_neg hprev, hw]

/-- The resolution keeps the cache. -/
theorem cacheSample_afterRun {d : Dec} {h : BitVec 4} {w : Word} (hslot : d.toEngine.slot h = w)
    (hw : w ≠ sentinel) : cacheSample h d.afterRun = .ok w.toNat := by
  have hafter : d.afterRun.toEngine.slot h = w := by simpa [Engine.slot, Dec.afterRun] using hslot
  rw [cacheSample, hafter, if_neg hw]

/-- Settles O16: the payload is emitted by `Dec.consume_resolveEmit` and then inserted. -/
theorem rawEmitsAndInserts : Obligations.RawEmitsAndInserts := by
  unfold Obligations.RawEmitsAndInserts
  intro v s hroom hv
  have hwide : (v.setWidth 16).toNat = v.toNat := BitVec.toNat_setWidth_of_le (by decide)
  obtain ⟨d', hrun, hemitted, hrptr, hq, hcache⟩ :=
    Dec.consume_resolveEmit (cur := fun _ => .ok v.toNat) (.raw v) hroom (by rw [hwide]) (hwide.trans_le hv)
  have hsym : s.dec.runSymbol (.raw v) = .ok (d'.insert (v.setWidth 16)) := by
    have hrun : s.dec.nextWord.resolveEmit (fun _ => .ok v.toNat) = .ok d' := hrun
    simp only [Dec.runSymbol, hrun]
  have hhash : d'.toEngine.hash (v.setWidth 16) = s.dec.toEngine.hash (v.setWidth 16) :=
    Engine.hash_congr hemitted.sameRun.hashShift hemitted.sameRun.cfgSel _
  have hslots := (cache_eq_iff_slot d'.toEngine s.dec.toEngine).mp hcache
  obtain ⟨hprev, hacc, houtn, hrunCells, hsample, hother, hphase, hfault, hsame⟩ := hemitted
  refine ⟨_, exec_of_runSymbol hsym, s.onlyDec _, ⟨hprev, hacc, houtn, hrunCells, hsample, hother, hphase, hfault, ?_⟩,
    hrptr, hq, ?_, fun i hi => ?_⟩
  · exact hsame.trans ⟨rfl, rfl, rfl, rfl, rfl, rfl⟩
  · rw [Dec.insert_toEngine, Engine.slot_insert, if_pos hhash.symm]
  · rw [Dec.insert_toEngine, Engine.slot_insert, if_neg (hhash.symm ▸ hi), hslots i]

/-- Settles O17: `MAXV` is 8 in configuration A. -/
theorem deltaAEmitsTheSum : Obligations.DeltaAEmitsTheSum := by
  unfold Obligations.DeltaAEmitsTheSum
  intro p s w hroom hprev hw hsum
  exact exec_emits (i := .deltaA p) rfl rfl hroom (deltaSample_afterRun hprev hsum) hw

/-- Settles O18: `MAXV` is 4 in configuration B. -/
theorem deltaBEmitsTheSum : Obligations.DeltaBEmitsTheSum := by
  unfold Obligations.DeltaBEmitsTheSum
  intro p s w hroom hprev hw hsum
  exact exec_emits (i := .deltaB p) rfl rfl hroom (deltaSample_afterRun hprev hsum) hw

/-- Settles O19: the slot is the one the code names, in either configuration. -/
theorem cacheEmitsTheSlot : Obligations.CacheEmitsTheSlot := by
  unfold Obligations.CacheEmitsTheSlot
  refine ⟨fun h s w hroom hslot hne hw => ?_, fun h s w hroom hslot hne hw => ?_⟩
  · exact exec_emits (i := .cacheA h) rfl rfl hroom (cacheSample_afterRun hslot hne) hw
  · exact exec_emits (i := .cacheB h) rfl rfl hroom (cacheSample_afterRun hslot hne) hw

/-! ### The symbol a step runs -/

theorem Dec.fetch_of_cons {d : Dec} {c : Code} {q : List Code} (h : d.q = c :: q) : d.fetch = some (.code c) := by
  rw [fetch, h]

theorem Dec.fetch_of_nil {d : Dec} (h : d.q = []) (hlt : d.rptr < d.pcount) :
    d.fetch = some (.word (memRead .decIn d.inBuf d.rptr.toNat)) := by
  rw [fetch, h]
  exact if_pos hlt

/-- A BUSY decoder runs the symbol it fetches (47_decoder_fsm.md R221). -/
theorem stepEngine_dec_of_fetch {s : State} {y : Symbol} (hb : s.dec.phase = .busy) (hy : s.dec.fetch = some y) :
    stepEngine .dec s = exec (decode s.dec.cfgSel y) s := by
  rw [stepEngine, if_pos (State.isBusy_dec_iff.mpr hb)]
  simp only [stepDec, hy]

/-- A BUSY decoder takes its turn and passes it on. -/
theorem stepTurn_dec_of_busy {s : State} (ht : s.turn = .dec) (hb : s.dec.phase = .busy) :
    stepTurn s = stepEngine .dec { s with turn := .enc } := by
  rw [stepTurn, ht, if_pos (State.isBusy_dec_iff.mpr hb)]
  rfl

/-- The decoder takes the turn of an encoder that is not BUSY; the turn stays. -/
theorem stepTurn_enc_of_not_busy {s : State} (ht : s.turn = .enc) (he : s.enc.phase ≠ .busy) :
    stepTurn s = stepEngine .dec s := by
  rw [stepTurn, ht, if_neg fun h => he (State.isBusy_enc_iff.mp h)]
  rfl

/-- Settles O28: the symbol by `Dec.fetch_of_cons` and `Dec.fetch_of_nil`, the move by the head of the agenda, the decoder's
turn, or the turn of an encoder that is not BUSY. -/
theorem stepRunsTheFetchedInstruction : Obligations.StepRunsTheFetchedInstruction := by
  unfold Obligations.StepRunsTheFetchedInstruction
  intro s s' i hb hfetch hmove
  obtain ⟨y, hy, rfl⟩ : ∃ y, s.dec.fetch = some y ∧ i = decode s.dec.cfgSel y := by
    rcases hfetch with ⟨c, q, hq, rfl⟩ | ⟨hq, hlt, rfl⟩
    · exact ⟨_, Dec.fetch_of_cons hq, rfl⟩
    · exact ⟨_, Dec.fetch_of_nil hq hlt, rfl⟩
  rcases hmove with ⟨rest, hs, rfl⟩ | ⟨hs, ht, rfl⟩ | ⟨hs, ht, he, rfl⟩
  · rw [step_of_agenda_cons hs]
    exact stepEngine_dec_of_fetch (s := { s with agenda := rest }) hb hy
  · rw [step_of_agenda_nil hs, stepTurn_dec_of_busy ht hb]
    exact stepEngine_dec_of_fetch (s := { s with turn := .enc }) hb hy
  · rw [step_of_agenda_nil hs, stepTurn_enc_of_not_busy ht he]
    exact stepEngine_dec_of_fetch hb hy

/-! ### A placed symbol -/

/-- `PCOUNT`, raised where it must be, lies above an index that is not the last (log entry 9). -/
theorem lt_ite_succ {r p : Count} (h : r ≠ BitVec.allOnes 32) : r < if r < p then p else r + 1 := by
  split
  next hlt => exact hlt
  next =>
    have hmax : r.toNat ≠ (BitVec.allOnes 32).toNat := fun heq => h (BitVec.eq_of_toNat_eq heq)
    rw [BitVec.toNat_allOnes] at hmax
    rw [BitVec.lt_def, count_toNat_succ (by omega)]
    exact Nat.lt_succ_self _

/-- A placed symbol is what the decoder fetches, and the decoder is BUSY with its step next (log entry 9). -/
theorem State.withFetchWord_fetches (s : State) {nbits w : Nat} {y : Symbol} (h : symbolOf nbits w = .ok y) :
    (s.withFetchWord nbits w).agenda = .engine .dec :: s.agenda ∧ (s.withFetchWord nbits w).dec.phase = .busy ∧
      (s.withFetchWord nbits w).dec.cfgSel = s.dec.cfgSel ∧ (s.withFetchWord nbits w).dec.fetch = some y := by
  rw [withFetchWord, h]
  cases y with
  | code c => exact ⟨rfl, rfl, rfl, rfl⟩
  | word v =>
    have hlast : (if s.dec.rptr = BitVec.allOnes 32 then 0 else s.dec.rptr) ≠ BitVec.allOnes 32 := by
      split
      next => decide
      next hne => exact hne
    refine ⟨rfl, rfl, rfl, ?_⟩
    rw [Dec.fetch_of_nil rfl (lt_ite_succ hlast), memRead_of_read?_eq_some (Memory.read?_write_same _ _ v)]

/-- Settles O29: `State.withFetchWord_fetches` and the decoder's move. -/
theorem placedSymbolIsRunNext : Obligations.PlacedSymbolIsRunNext := by
  unfold Obligations.PlacedSymbolIsRunNext
  intro s nbits w y h
  obtain ⟨hagenda, hbusy, hsel, hfetch⟩ := s.withFetchWord_fetches h
  rw [step_of_agenda_cons hagenda, ← hsel]
  exact stepEngine_dec_of_fetch (s := { s.withFetchWord nbits w with agenda := s.agenda }) hbusy hfetch

end Sys2Proof.Machine
end

section
/-!
SUPPORT. The family 60_exceptions.md: an engine that is not BUSY (R269), steps of the two engines in either order
(20_memory.md R69), and START (70_reset_and_hazards.md R283).
-/

namespace Sys2Proof.Machine

open Sys2Proof

/-! ### START -/

/-- START in any phase but IDLE is ignored (70_reset_and_hazards.md R283). -/
theorem Engine.start_of_not_idle {g : Engine} (hp : g.phase ≠ .idle) : g.start = g := by
  rw [start_eq, if_neg hp]

/-- START in IDLE refuses `S` = 0 (60_exceptions.md R251). -/
theorem Engine.start_of_prec_eq_zero {g : Engine} (hp : g.phase = .idle) (hs : g.prec = 0) :
    g.start = { g with phase := .fault, fault := .cfgPrecisionZero } := by
  rw [start_eq, if_pos hp, if_pos hs]

/-- START in IDLE with `S` above 0 makes the engine BUSY. -/
theorem Engine.start_of_prec_ne_zero {g : Engine} (hp : g.phase = .idle) (hs : g.prec ≠ 0) :
    g.start = { g with phase := .busy } := by
  rw [start_eq, if_pos hp, if_neg hs]

/-- A write to CTRL with RESET clear and START set is START (10_state.md R36). -/
theorem Enc.writeReg_ctrl_start {v : BitVec 32} (h1 : v.getLsbD 1 = false) (h0 : v.getLsbD 0 = true) (e : Enc) :
    e.writeReg .ctrl v = { e with toEngine := e.toEngine.start } := by
  simp only [writeReg, h1, h0, Bool.false_eq_true, if_false, if_true]

theorem Dec.writeReg_ctrl_start {v : BitVec 32} (h1 : v.getLsbD 1 = false) (h0 : v.getLsbD 0 = true) (d : Dec) :
    d.writeReg .ctrl v = { d with toEngine := d.toEngine.start } := by
  simp only [writeReg, h1, h0, Bool.false_eq_true, if_false, if_true]

/-- A move that writes the encoder's CTRL, which is its register 0 (10_state.md R32). -/
theorem step_of_writeCtrl_enc {s : State} {v : BitVec 32} {rest : List Move}
    (h : s.agenda = .writeReg .enc 0 v :: rest) :
    step s = .next { s with agenda := rest, enc := s.enc.writeReg .ctrl v } := by
  rw [step_of_agenda_cons h]
  rfl

/-- A move that writes the decoder's CTRL (10_state.md R33). -/
theorem step_of_writeCtrl_dec {s : State} {v : BitVec 32} {rest : List Move}
    (h : s.agenda = .writeReg .dec 0 v :: rest) :
    step s = .next { s with agenda := rest, dec := s.dec.writeReg .ctrl v } := by
  rw [step_of_agenda_cons h]
  rfl

/-- Settles O41: the write is `Engine.start` on the engine it names, and START ends in one of three ways. -/
theorem startChecksAndRuns : Obligations.StartChecksAndRuns := by
  unfold Obligations.StartChecksAndRuns
  intro s v rest h1 h0
  refine ⟨fun hs => ?enc, fun hs => ?dec⟩
  case enc =>
    rw [step_of_writeCtrl_enc hs, Enc.writeReg_ctrl_start h1 h0]
    refine ⟨fun hp => ?_, fun hp hz => ?_, fun hp hz => ?_⟩
    · rw [Engine.start_of_not_idle hp]
    · rw [Engine.start_of_prec_eq_zero hp hz]
    · rw [Engine.start_of_prec_ne_zero hp hz]
  case dec =>
    rw [step_of_writeCtrl_dec hs, Dec.writeReg_ctrl_start h1 h0]
    refine ⟨fun hp => ?_, fun hp hz => ?_, fun hp hz => ?_⟩
    · rw [Engine.start_of_not_idle hp]
    · rw [Engine.start_of_prec_eq_zero hp hz]
    · rw [Engine.start_of_prec_ne_zero hp hz]

/-! ### A move of one engine -/

/-- A move of the encoder advances the encoder and touches nothing else (20_memory.md R69). -/
theorem step_of_engine_enc {s : State} {rest : List Move} (h : s.agenda = .engine .enc :: rest) :
    step s = .next { s with agenda := rest, enc := s.enc.advance } := by
  rw [step_of_agenda_cons h]
  exact stepEngine_enc _

/-- A move of the decoder advances the decoder and touches nothing else. -/
theorem step_of_engine_dec {s : State} {rest : List Move} (h : s.agenda = .engine .dec :: rest) :
    step s = .next { s with agenda := rest, dec := s.dec.advance } := by
  rw [step_of_agenda_cons h]
  exact stepEngine_dec _

/-- The first step of a run that goes on. -/
theorem State.run_succ_of_step {s t : State} (h : step s = .next t) (k : Nat) : State.run (k + 1) s = State.run k t := by
  rw [run, h]

/-- Settles O49: each move advances its own engine and reads nothing of the other, so both orders end in the machine with
both engines advanced. -/
theorem engineStepsCommute : Obligations.EngineStepsCommute := by
  unfold Obligations.EngineStepsCommute
  intro s
  refine ⟨{ s with agenda := [], enc := s.enc.advance, dec := s.dec.advance }, ?encFirst, ?decFirst⟩
  case encFirst =>
    rw [State.run_succ_of_step (step_of_engine_enc rfl), State.run_succ_of_step (step_of_engine_dec rfl), State.run]
  case decFirst =>
    rw [State.run_succ_of_step (step_of_engine_dec rfl), State.run_succ_of_step (step_of_engine_enc rfl), State.run]

/-! ### Engines that are not BUSY -/

theorem Enc.advance_of_not_busy {e : Enc} (h : e.phase ≠ .busy) : e.advance = e :=
  if_neg h

theorem Dec.advance_of_not_busy {d : Dec} (h : d.phase ≠ .busy) : d.advance = d :=
  if_neg h

/-- A turn with neither engine BUSY leaves the machine as it is: the turn goes to the other engine, which holds its state
(60_exceptions.md R269). -/
theorem stepTurn_of_not_busy {s : State} (he : s.enc.phase ≠ .busy) (hd : s.dec.phase ≠ .busy) :
    stepTurn s = .next s := by
  cases ht : s.turn with
  | enc => rw [stepTurn_enc_of_not_busy ht he, stepEngine_dec, Dec.advance_of_not_busy hd]
  | dec =>
    rw [stepTurn, ht, if_neg fun h => hd (State.isBusy_dec_iff.mp h), Side.other, stepEngine_enc,
      Enc.advance_of_not_busy he]

/-- Settles O47: the move of an engine that is not BUSY, for each engine, and the turn. -/
theorem idleEnginesHoldTheirState : Obligations.IdleEnginesHoldTheirState := by
  unfold Obligations.IdleEnginesHoldTheirState
  intro s
  refine ⟨fun rest hs he => ?enc, fun rest hs hd => ?dec, fun hs he hd => ?turn⟩
  case enc => rw [step_of_engine_enc hs, Enc.advance_of_not_busy he]
  case dec => rw [step_of_engine_dec hs, Dec.advance_of_not_busy hd]
  case turn => rw [step_of_agenda_nil hs, stepTurn_of_not_busy he hd]

end Sys2Proof.Machine
end

section
/-!
SUPPORT. The family 60_exceptions.md, second part: the faults of the symbols in the order of R259, and what a symbol that runs
leaves of `PHASE` and `FAULT` (R256).
-/

namespace Sys2Proof.Machine

open Sys2Proof

/-! ### The sample a symbol stands for -/

/-- Where a symbol that stands for one sample takes it from, once the run is resolved (47_decoder_fsm.md R223 to R225);
CHUNK, RUN and PAD stand for none. -/
def sampleOf : Instr → Option (Dec → Except FaultCode Int)
  | .raw v => some fun _ => .ok v.toNat
  | .cacheA h => some (cacheSample (h.setWidth 4))
  | .cacheB h => some (cacheSample h)
  | .deltaA p => some (deltaSample (maxv .a) p.toNat)
  | .deltaB p => some (deltaSample (maxv .b) p.toNat)
  | .chunk _ _ _ | .run _ | .pad => none

theorem exists_sampleOf {i : Instr} (hchunk : ∀ a b c, i ≠ .chunk a b c) (hrun : ∀ n, i ≠ .run n) (hpad : i ≠ .pad) :
    ∃ cur, sampleOf i = some cur := by
  cases i with
  | chunk a b c => exact absurd rfl (hchunk a b c)
  | run n => exact absurd rfl (hrun n)
  | pad => exact absurd rfl hpad
  | raw _ | cacheA _ | cacheB _ | deltaA _ | deltaB _ => exact ⟨_, rfl⟩

/-- A Raw word that runs: its payload is emitted and then inserted (47_decoder_fsm.md R225). -/
theorem Dec.runSymbol_raw_eq_ok {d d' : Dec} {v : BitVec 15} :
    d.runSymbol (.raw v) = .ok d' ↔
      ∃ d1, d.nextWord.resolveEmit (fun _ => .ok v.toNat) = .ok d1 ∧ d1.insert (v.setWidth 16) = d' := by
  simp only [runSymbol]
  cases d.nextWord.resolveEmit fun _ => .ok v.toNat <;> simp

/-- A symbol faults only as the resolution, its sample or the emission does; RAW's insertion cannot fault. -/
theorem Dec.runSymbol_eq_error {d : Dec} {i : Instr} {f : FaultCode} :
    d.runSymbol i = .error f ↔ ∃ cur, sampleOf i = some cur ∧ (d.consume i).resolveEmit cur = .error f := by
  have code {e : Except FaultCode Dec} {cur : Dec → Except FaultCode Int} (he : e = d.popCode.resolveEmit cur) :
      e = .error f ↔ ∃ cur', some cur = some cur' ∧ d.popCode.resolveEmit cur' = .error f := by simp [he]
  cases i with
  | raw v =>
    show _ ↔ ∃ cur, some _ = some cur ∧ d.nextWord.resolveEmit cur = _
    simp only [runSymbol, Option.some.injEq, exists_eq_left']
    cases d.nextWord.resolveEmit fun _ => .ok v.toNat <;> simp
  | chunk a b c => exact ⟨nofun, nofun⟩
  | run n => exact ⟨nofun, nofun⟩
  | pad => exact ⟨nofun, nofun⟩
  | cacheA _ | cacheB _ | deltaA _ | deltaB _ => exact code rfl

theorem deltaSample_eq_error {m p : Nat} {d : Dec} {f : FaultCode} :
    deltaSample m p d = .error f ↔ d.prev = sentinel ∧ f = .decNoPrevious := by
  unfold deltaSample
  split <;> simp [*, eq_comm (a := FaultCode.decNoPrevious)]

theorem cacheSample_eq_error {h : BitVec 4} {d : Dec} {f : FaultCode} :
    cacheSample h d = .error f ↔ d.toEngine.slot h = sentinel ∧ f = .decCacheEmpty := by
  unfold cacheSample
  split <;> simp [*, eq_comm (a := FaultCode.decCacheEmpty)]

theorem sampleOf_error {i : Instr} {cur : Dec → Except FaultCode Int} {d : Dec} {f : FaultCode}
    (hi : sampleOf i = some cur) (h : cur d = .error f) : f = .decNoPrevious ∨ f = .decCacheEmpty := by
  cases i with
  | raw v =>
    cases hi
    cases h
  | chunk a b c => cases hi
  | run n => cases hi
  | pad => cases hi
  | cacheA _ | cacheB _ =>
    cases hi
    exact .inr (cacheSample_eq_error.mp h).2
  | deltaA _ | deltaB _ =>
    cases hi
    exact .inl (deltaSample_eq_error.mp h).2

/-! ### What the resolution keeps -/

@[simp] theorem Dec.afterRun_prev (d : Dec) : d.afterRun.prev = d.prev := by
  simp [afterRun]

@[simp] theorem Dec.afterRun_slot (d : Dec) (i : BitVec 4) : d.afterRun.toEngine.slot i = d.toEngine.slot i := by
  simp [afterRun, Engine.slot]

theorem Dec.RunResolves.consume {d : Dec} (i : Instr) (h : d.RunResolves) : (d.consume i).RunResolves :=
  ⟨by simpa using h.prev, by simpa using h.room⟩

/-! ### Faults of one symbol -/

/-- A symbol that faults leaves the machine as it was, but for the fault entered (60_exceptions.md R256). -/
theorem exec_of_runSymbol_error {i : Instr} {s : State} {f : FaultCode} (h : s.dec.runSymbol i = .error f) :
    exec i s = .next (s.decFaulted f) := by
  rw [exec_eq_settle, h, State.settle_error]

theorem exec_faults {i : Instr} {s : State} {cur : Dec → Except FaultCode Int} {f : FaultCode}
    (hi : sampleOf i = some cur) (h : (s.dec.consume i).resolveEmit cur = .error f) : exec i s = .next (s.decFaulted f) :=
  exec_of_runSymbol_error (Dec.runSymbol_eq_error.mpr ⟨cur, hi, h⟩)

/-- The run does not resolve: its fault comes before any other (60_exceptions.md R259). -/
theorem exec_faults_resolve {i : Instr} {s : State} {cur : Dec → Except FaultCode Int} {f : FaultCode}
    (hi : sampleOf i = some cur) (h : s.dec.resolve = .error f) : exec i s = .next (s.decFaulted f) := by
  have hconsumed : (s.dec.consume i).resolve = .error f :=
    Dec.resolve_eq_error.mpr (by simpa using Dec.resolve_eq_error.mp h)
  exact exec_faults hi (Dec.resolveEmit_eq_error.mpr (.inl hconsumed))

section
variable {i : Instr} {s : State} {cur : Dec → Except FaultCode Int} (hi : sampleOf i = some cur)
  (hres : s.dec.RunResolves)
include hi hres

/-- The run resolves and the symbol has no sample. -/
theorem exec_faults_sample {f : FaultCode} (h : cur (s.dec.consume i).afterRun = .error f) :
    exec i s = .next (s.decFaulted f) :=
  exec_faults hi (Dec.resolveEmit_fault_sample (hres.consume i) h)

/-- The run resolves and the sample is no WorkingSample (60_exceptions.md R258). -/
theorem exec_faults_range {x : Int} (h : cur (s.dec.consume i).afterRun = .ok x)
    (hx : x < 0 ∨ (maxWorking s.dec.prec : Int) < x) : exec i s = .next (s.decFaulted .decSampleRange) :=
  exec_faults hi (Dec.resolveEmit_fault_range (hres.consume i) h (by simpa using hx))

/-- The run resolves and leaves no room for the sample (60_exceptions.md R254). -/
theorem exec_faults_room {x : Int} (h : cur (s.dec.consume i).afterRun = .ok x) (h0 : 0 ≤ x)
    (hx : x ≤ maxWorking s.dec.prec) (hfull : s.dec.outn.toNat + runLength s.dec.acc = s.dec.expected.toNat) :
    exec i s = .next (s.decFaulted .decExcessOutput) :=
  exec_faults hi (Dec.resolveEmit_fault_room (hres.consume i) h h0 (by simpa using hx) (by simpa using hfull))

end

/-- Settles O20: `Dec.resolve_eq_error` gives the two faults of the resolution, and every symbol but CHUNK, RUN and PAD
resolves the run first. -/
theorem runResolutionFaultsFirst : Obligations.RunResolutionFaultsFirst := by
  unfold Obligations.RunResolutionFaultsFirst
  intro i s hchunk hrun hpad hacc
  obtain ⟨cur, hi⟩ := exists_sampleOf hchunk hrun hpad
  refine ⟨fun hprev => ?_, fun hprev hroom => ?_⟩
  · exact exec_faults_resolve hi (Dec.resolve_eq_error.mpr ⟨hacc, .inl ⟨hprev, rfl⟩⟩)
  · exact exec_faults_resolve hi (Dec.resolve_eq_error.mpr ⟨hacc, .inr ⟨hprev, hroom, rfl⟩⟩)

/-- Settles O21: the sample is the payload, which is not negative. -/
theorem rawFaultsOnRangeThenRoom : Obligations.RawFaultsOnRangeThenRoom := by
  unfold Obligations.RawFaultsOnRangeThenRoom
  intro v s hres
  refine ⟨fun hv => ?_, fun hv hfull => ?_⟩
  · exact exec_faults_range (i := .raw v) rfl hres rfl (.inr (Int.ofNat_lt.mpr hv))
  · exact exec_faults_room (i := .raw v) rfl hres rfl (Int.natCast_nonneg _) (Int.ofNat_le.mpr hv) hfull

/-- The faults of a DELTA code, in order: no previous sample, the sum out of range, a full output (60_exceptions.md R259). -/
theorem exec_delta_faults {i : Instr} {s : State} {m p : Nat} (hi : sampleOf i = some (deltaSample m p))
    (hres : s.dec.RunResolves) :
    (s.dec.prev = sentinel → exec i s = .next (s.decFaulted .decNoPrevious)) ∧
    (s.dec.prev ≠ sentinel →
      (deltaDecode m p s.dec.prev < 0 ∨ (maxWorking s.dec.prec : Int) < deltaDecode m p s.dec.prev →
        exec i s = .next (s.decFaulted .decSampleRange)) ∧
      (0 ≤ deltaDecode m p s.dec.prev → deltaDecode m p s.dec.prev ≤ maxWorking s.dec.prec →
        s.dec.outn.toNat + runLength s.dec.acc = s.dec.expected.toNat →
        exec i s = .next (s.decFaulted .decExcessOutput))) := by
  refine ⟨fun hprev => ?_, fun hprev => ?_⟩
  · exact exec_faults_sample hi hres (deltaSample_eq_error.mpr ⟨by simpa using hprev, rfl⟩)
  · have hsum : deltaSample m p (s.dec.consume i).afterRun = .ok (deltaDecode m p s.dec.prev) := by
      simp [deltaSample, hprev]
    exact ⟨exec_faults_range hi hres hsum, exec_faults_room hi hres hsum⟩

/-- Settles O22: `MAXV` is 8 in configuration A and 4 in B. -/
theorem deltaFaultsOnPreviousRangeRoom : Obligations.DeltaFaultsOnPreviousRangeRoom := by
  unfold Obligations.DeltaFaultsOnPreviousRangeRoom
  rintro i s d hres (⟨p, rfl, rfl⟩ | ⟨p, rfl, rfl⟩)
  · exact exec_delta_faults (i := .deltaA p) rfl hres
  · exact exec_delta_faults (i := .deltaB p) rfl hres

/-- The faults of a CACHE code, in order: an empty slot, a full output. -/
theorem exec_cache_faults {i : Instr} {s : State} {h : BitVec 4} (hi : sampleOf i = some (cacheSample h))
    (hres : s.dec.RunResolves) :
    (s.dec.toEngine.slot h = sentinel → exec i s = .next (s.decFaulted .decCacheEmpty)) ∧
    (s.dec.toEngine.slot h ≠ sentinel → (s.dec.toEngine.slot h).toNat ≤ maxWorking s.dec.prec →
      s.dec.outn.toNat + runLength s.dec.acc = s.dec.expected.toNat →
      exec i s = .next (s.decFaulted .decExcessOutput)) := by
  refine ⟨fun hslot => ?_, fun hslot hmax hfull => ?_⟩
  · exact exec_faults_sample hi hres (cacheSample_eq_error.mpr ⟨by simpa using hslot, rfl⟩)
  · have hsample : cacheSample h (s.dec.consume i).afterRun = .ok (s.dec.toEngine.slot h).toNat :=
      cacheSample_afterRun (by simp) hslot
    exact exec_faults_room hi hres hsample (Int.natCast_nonneg _) (Int.ofNat_le.mpr hmax) hfull

/-- Settles O23: the slot is the one the code names, in either configuration. -/
theorem cacheFaultsOnEmptyThenRoom : Obligations.CacheFaultsOnEmptyThenRoom := by
  unfold Obligations.CacheFaultsOnEmptyThenRoom
  rintro i s h hres (⟨k, rfl, rfl⟩ | rfl)
  · exact exec_cache_faults (i := .cacheA k) rfl hres
  · exact exec_cache_faults (i := .cacheB h) rfl hres

/-! ### Every symbol -/

/-- A symbol that runs leaves `PHASE` and `FAULT` as they were. -/
theorem Dec.runSymbol_phase {d d' : Dec} {i : Instr} (h : d.runSymbol i = .ok d') :
    d'.phase = d.phase ∧ d'.fault = d.fault := by
  rcases runSymbol_cases h with ⟨he, -, -⟩ | ⟨cur, d1, hd1, hins⟩
  · rw [he]
    exact ⟨rfl, rfl⟩
  · obtain ⟨-, -, hphase, hfault, -⟩ := resolveEmit_frame hd1
    rw [consume_toEngine] at hphase hfault
    rcases hins with rfl | ⟨v, rfl⟩ <;> exact ⟨hphase, hfault⟩

/-- The faults of a symbol: those of the resolution, of its sample and of the emission. -/
theorem Dec.runSymbol_error_mem {d : Dec} {i : Instr} {f : FaultCode} (h : d.runSymbol i = .error f) :
    f ∈ [FaultCode.decExcessOutput, .decNoPrevious, .decCacheEmpty, .decSampleRange] := by
  obtain ⟨cur, hi, hf⟩ := runSymbol_eq_error.mp h
  obtain hr | ⟨d1, -, hs | ⟨x, -, he⟩⟩ := resolveEmit_eq_error.mp hf
  · obtain ⟨-, ⟨-, rfl⟩ | ⟨-, -, rfl⟩⟩ := resolve_eq_error.mp hr <;> simp
  · obtain rfl | rfl := sampleOf_error hi hs <;> simp
  · obtain ⟨-, rfl⟩ | ⟨-, -, rfl⟩ := emit_eq_error.mp he <;> simp

/-- Settles O24: a symbol that runs by `Dec.runSymbol_phase`, one that faults by `Dec.runSymbol_error_mem`. -/
theorem everySymbolRunsOrFaultsPrecisely : Obligations.EverySymbolRunsOrFaultsPrecisely := by
  unfold Obligations.EverySymbolRunsOrFaultsPrecisely
  intro i s
  cases hr : s.dec.runSymbol i with
  | ok d => exact ⟨_, exec_of_runSymbol hr, .inl (Dec.runSymbol_phase hr)⟩
  | error f => exact ⟨_, exec_of_runSymbol_error hr, .inr ⟨f, Dec.runSymbol_error_mem hr, rfl⟩⟩

end Sys2Proof.Machine
end

section
/-!
SUPPORT. The family 47_decoder_fsm.md, third part: the final step (R230), and the end of every run within `4 * PCOUNT + 1`
steps (70_reset_and_hazards.md R294).
-/

namespace Sys2Proof

theorem decodeWord_isWord (w : Word) : (decodeWord w).isWord = true := by
  unfold decodeWord
  split <;> rfl

end Sys2Proof

namespace Sys2Proof.Machine

open Sys2Proof

/-! ### The final step -/

theorem Dec.fetch_of_used_up {d : Dec} (hq : d.q = []) (hle : d.pcount ≤ d.rptr) : d.fetch = none := by
  rw [fetch, hq]
  exact if_neg (BitVec.not_lt.mpr hle)

theorem Dec.advance_of_fetch_none {d : Dec} (hb : d.phase = .busy) (h : d.fetch = none) :
    d.advance = d.settle d.final := by
  rw [advance, if_pos hb, step, h]

/-- When the final step succeeds, and with what (47_decoder_fsm.md R230). -/
theorem Dec.final_eq_ok {d d' : Dec} :
    d.final = .ok d' ↔ ∃ d1, d.resolve = .ok d1 ∧ d1.outn = d1.expected ∧ { d1 with phase := .done } = d' := by
  unfold final
  cases d.resolve with
  | error f => simp
  | ok d1 => by_cases hfull : d1.outn = d1.expected <;> simp [hfull]

/-- The end of a run is no part of what its last resolution did. -/
theorem Dec.Resolved.finish {d d' : Dec} (h : d.Resolved d') : d.Resolved { d' with phase := .done } :=
  { h with sameRun := { h.sameRun with } }

/-- Settles O30: the move is `Dec.final`, whose four ends are those of the resolution and of the check of the count. -/
theorem decoderFinalStep : Obligations.DecoderFinalStep := by
  unfold Obligations.DecoderFinalStep
  intro s rest hb hs hq hle
  have hstep : step s = .next { s with agenda := rest, dec := s.dec.settle s.dec.final } := by
    rw [step_of_engine_dec hs, Dec.advance_of_fetch_none hb (Dec.fetch_of_used_up hq hle)]
  have hfault {f : FaultCode} (hf : s.dec.final = .error f) :
      step s = .next ({ s with agenda := rest }.decFaulted f) := by
    rw [hstep, hf]
    rfl
  refine ⟨fun hres hfull => ?done, fun hres hshort => ?truncated, fun hacc hprev => ?noPrevious,
    fun hacc hprev hroom => ?excess⟩
  case done =>
    have hresolved := (Dec.afterRun_resolved (d := s.dec) (hfull.trans_lt s.dec.expected.isLt)).finish
    rw [Dec.final_of_full (Dec.resolve_of_resolves hres) ((Dec.afterRun_full hres).mpr hfull)] at hstep
    exact ⟨_, hstep, ⟨rfl, rfl, rfl, rfl⟩, hresolved, rfl, by simp [Dec.afterRun], rfl, hq⟩
  case truncated =>
    exact hfault (Dec.final_of_not_full (Dec.resolve_of_resolves hres) (mt (Dec.afterRun_full hres).mp hshort))
  case noPrevious =>
    exact hfault (Dec.final_of_resolve_error (Dec.resolve_eq_error.mpr ⟨hacc, .inl ⟨hprev, rfl⟩⟩))
  case excess =>
    exact hfault (Dec.final_of_resolve_error (Dec.resolve_eq_error.mpr ⟨hacc, .inr ⟨hprev, hroom, rfl⟩⟩))

/-! ### Where a symbol leaves the input -/

theorem Dec.resolveEmit_position {d d' : Dec} {cur : Dec → Except FaultCode Int} (h : d.resolveEmit cur = .ok d') :
    d'.rptr = d.rptr ∧ d'.q = d.q := by
  obtain ⟨d1, x, hr, -, he⟩ := resolveEmit_eq_ok.mp h
  obtain ⟨-, rfl⟩ := resolve_eq_ok.mp hr
  obtain ⟨-, -, -, rfl⟩ := emit_eq_ok.mp he
  exact ⟨rfl, rfl⟩

/-- A code that runs is taken from the queue and nothing else is (47_decoder_fsm.md R221). -/
theorem Dec.runSymbol_position_of_code {d d' : Dec} {i : Instr} (hi : i.isWord = false) (h : d.runSymbol i = .ok d') :
    d'.rptr = d.rptr ∧ d'.q = d.q.tail := by
  cases i with
  | raw v => cases hi
  | chunk a b c => cases hi
  | run n =>
    cases h
    exact ⟨rfl, rfl⟩
  | pad =>
    cases h
    exact ⟨rfl, rfl⟩
  | cacheA _ | cacheB _ | deltaA _ | deltaB _ => exact resolveEmit_position (d := d.popCode) h

/-- A word that runs is taken from the input; a Chunk word queues three codes (47_decoder_fsm.md R221, R226). -/
theorem Dec.runSymbol_position_of_word {d d' : Dec} {i : Instr} (hi : i.isWord = true) (h : d.runSymbol i = .ok d') :
    d'.rptr = d.rptr + 1 ∧ (d'.q = d.q ∨ d'.q.length = 3) := by
  cases i with
  | raw v =>
    obtain ⟨d1, hd1, rfl⟩ := runSymbol_raw_eq_ok.mp h
    obtain ⟨hrptr, hq⟩ := resolveEmit_position hd1
    exact ⟨hrptr, .inl hq⟩
  | chunk a b c =>
    cases h
    exact ⟨rfl, .inr rfl⟩
  | run _ | pad | cacheA _ | cacheB _ | deltaA _ | deltaB _ => cases hi

/-! ### The end of a run -/

theorem Dec.fetch_eq_some {d : Dec} {y : Symbol} (h : d.fetch = some y) :
    (∃ c q, d.q = c :: q ∧ y = .code c) ∨
      (d.q = [] ∧ d.rptr < d.pcount ∧ y = .word (memRead .decIn d.inBuf d.rptr.toNat)) := by
  unfold fetch at h
  split at h
  next c q hq =>
    cases h
    exact .inl ⟨c, q, hq, rfl⟩
  next hq =>
    split at h <;> cases h
    next hlt => exact .inr ⟨hq, hlt, rfl⟩

/-- At most this many symbols are left: a word counts for itself and the three codes it may queue. -/
def Dec.symbolsLeft (d : Dec) : Nat :=
  4 * (d.pcount.toNat - d.rptr.toNat) + d.q.length

theorem Dec.symbolsLeft_lt_of_runSymbol {d d' : Dec} {y : Symbol} (hy : d.fetch = some y)
    (h : d.runSymbol (decode d.cfgSel y) = .ok d') : d'.symbolsLeft < d.symbolsLeft := by
  have hpcount := (runSymbol_frame h).1.pcount
  simp only [symbolsLeft, hpcount]
  rcases fetch_eq_some hy with ⟨c, q, hq, rfl⟩ | ⟨hq, hlt, rfl⟩
  · obtain ⟨hrptr, hq'⟩ := runSymbol_position_of_code (decodeCode_isWord _ _) h
    simp [hrptr, hq', hq]
  · obtain ⟨hrptr, hq'⟩ := runSymbol_position_of_word (decodeWord_isWord _) h
    have hlt : d.rptr.toNat < d.pcount.toNat := hlt
    have hlength : d'.q.length ≤ 3 := by rcases hq' with hq' | hq' <;> simp [hq', hq]
    rw [hrptr, count_toNat_succ (by omega)]
    omega

/-- A step of a BUSY decoder ends the run or takes one of the symbols left (47_decoder_fsm.md R220). -/
theorem Dec.advance_progress {d : Dec} (hb : d.phase = .busy) :
    (d.advance.phase = .done ∨ d.advance.phase = .fault) ∨
      (d.advance.phase = .busy ∧ d.advance.symbolsLeft < d.symbolsLeft) := by
  rw [advance, if_pos hb, step]
  split
  next y hy =>
    cases hr : d.runSymbol (decode d.cfgSel y) with
    | ok d' => exact .inr ⟨(runSymbol_phase hr).1.trans hb, symbolsLeft_lt_of_runSymbol hy hr⟩
    | error f => exact .inl (.inr rfl)
  next =>
    cases hr : d.final with
    | ok d' =>
      obtain ⟨d1, -, -, rfl⟩ := final_eq_ok.mp hr
      exact .inl (.inl rfl)
    | error f => exact .inl (.inr rfl)

/-- One step per symbol left and one to end: the run is over. -/
theorem Dec.advance_iterate_ends {d : Dec} {k : Nat} (hb : d.phase = .busy) (hk : d.symbolsLeft < k) :
    (Dec.advance^[k] d).phase = .done ∨ (Dec.advance^[k] d).phase = .fault := by
  induction k generalizing d with
  | zero => exact absurd hk (Nat.not_lt_zero _)
  | succ k ih =>
    rw [Function.iterate_succ_apply]
    rcases advance_progress hb with hend | ⟨hbusy, hleft⟩
    · have hnot : d.advance.phase ≠ .busy := by rcases hend with h | h <;> simp [h]
      rwa [advance_iterate_of_not_busy hnot]
    · exact ih hbusy (by omega)

/-- Settles O55: a started decoder has at most `4 * PCOUNT` symbols before it. -/
theorem decoderRunEnds : Obligations.DecoderRunEnds := by
  unfold Obligations.DecoderRunEnds
  intro s hs
  have hleft : s.dec.symbolsLeft = 4 * s.dec.pcount.toNat := by
    simp [Dec.symbolsLeft, hs.fresh.rptr, hs.fresh.q]
  exact ⟨_, s.runEngine_dec _, Dec.advance_iterate_ends hs.phase (by omega)⟩

end Sys2Proof.Machine
end

section
/-!
SUPPORT. The family 70_reset_and_hazards.md, first part: nothing restarts between streams placed end to end (R289, R291).
-/

namespace Sys2Proof.Machine

open Sys2Proof

/-! ### A word of RUN codes -/

theorem Dec.advance_of_fetch {d : Dec} {y : Symbol} (hb : d.phase = .busy) (hy : d.fetch = some y) :
    d.advance = d.settle (d.runSymbol (decode d.cfgSel y)) := by
  rw [advance, if_pos hb, step, hy]

/-- A digit by itself is its RUN code, the RUN header being 0 (30_encoding.md R85, R86). -/
theorem decodeCode_digit (sel : CfgSel) (x : Digit) : decodeCode sel (x.setWidth 5) = .run x := by
  rw [← runCode_eq_setWidth .a]
  exact decode_encode_run sel x

theorem Dec.advance_digit {d : Dec} {x : Digit} {q : List Code} (hb : d.phase = .busy) (hq : d.q = x.setWidth 5 :: q) :
    d.advance = d.popCode.pushDigit x := by
  rw [advance_of_fetch hb (fetch_of_cons hq), decode, decodeCode_digit]
  rfl

/-- The digits in the queue join those before them, one a step (42_run_length.md R142). -/
theorem Dec.advance_iterate_digits {ds : List Digit} {d : Dec} {q : List Code} (hb : d.phase = .busy)
    (hq : d.q = ds.map (BitVec.setWidth 5) ++ q) : Dec.advance^[ds.length] d = { d with q := q, acc := d.acc ++ ds } := by
  induction ds generalizing d with
  | nil =>
    obtain rfl : d.q = q := hq
    simp
  | cons x ds ih =>
    have hpop : d.popCode.q = ds.map (BitVec.setWidth 5) ++ q := by simp [hq]
    rw [List.length_cons, Function.iterate_succ_apply, advance_digit hb hq, ih (d := d.popCode.pushDigit x) hb hpop]
    simp [pushDigit, popCode]

/-- A word of three RUN codes: one step queues them, three append their digits. -/
theorem Dec.advance_digits {d : Dec} {x y z : Digit} (hb : d.phase = .busy) (hq : d.q = []) (hlt : d.rptr < d.pcount)
    (hw : memRead .decIn d.inBuf d.rptr.toNat = pack3 (x.setWidth 5) (y.setWidth 5) (z.setWidth 5)) :
    d.advance.advance.advance.advance = { d with rptr := d.rptr + 1, acc := d.acc ++ [x, y, z] } := by
  have hchunk : d.advance = d.nextWord.fillQueue (x.setWidth 5) (y.setWidth 5) (z.setWidth 5) := by
    rw [advance_of_fetch hb (fetch_of_nil hq hlt), decode, hw, decodeWord_pack3]
    rfl
  rw [hchunk, hq]
  exact advance_iterate_digits (ds := [x, y, z]) (d := d.nextWord.fillQueue _ _ _) hb rfl

/-! ### The same decoder with another `PCOUNT` -/

def Dec.withPcount (p : Count) (d : Dec) : Dec :=
  { d with pcount := p }

theorem Dec.resolve_withPcount (p : Count) (d : Dec) :
    (d.withPcount p).resolve = d.resolve.map (withPcount p) := by
  cases hr : d.resolve with
  | error f =>
    have hf := resolve_eq_error.mp hr
    exact resolve_eq_error.mpr hf
  | ok d1 =>
    obtain ⟨hres, rfl⟩ := resolve_eq_ok.mp hr
    exact resolve_eq_ok.mpr ⟨hres, rfl⟩

theorem Dec.emit_withPcount (p : Count) (x : Int) (d : Dec) :
    (d.withPcount p).emit x = (d.emit x).map (withPcount p) := by
  cases he : d.emit x with
  | error f =>
    have hf := emit_eq_error.mp he
    exact emit_eq_error.mpr hf
  | ok d1 =>
    obtain ⟨h0, hmax, hne, rfl⟩ := emit_eq_ok.mp he
    exact emit_eq_ok.mpr ⟨h0, hmax, hne, rfl⟩

theorem Dec.resolveEmit_withPcount {cur : Dec → Except FaultCode Int} {p : Count}
    (hcur : ∀ d, cur (d.withPcount p) = cur d) (d : Dec) :
    (d.withPcount p).resolveEmit cur = (d.resolveEmit cur).map (withPcount p) := by
  simp only [resolveEmit, resolve_withPcount]
  cases d.resolve with
  | error f => rfl
  | ok d1 =>
    simp only [Except.map, hcur]
    cases cur d1 with
    | error f => rfl
    | ok x => exact emit_withPcount p x d1

theorem Dec.runSymbol_withPcount (p : Count) (i : Instr) (d : Dec) :
    (d.withPcount p).runSymbol i = (d.runSymbol i).map (withPcount p) := by
  cases i with
  | raw v =>
    have hemit := resolveEmit_withPcount (cur := fun _ => .ok v.toNat) (p := p) (fun _ => rfl) d.nextWord
    simp only [runSymbol, show (d.withPcount p).nextWord = d.nextWord.withPcount p from rfl, hemit]
    cases d.nextWord.resolveEmit fun _ => .ok v.toNat <;> rfl
  | chunk a b c => rfl
  | run n => rfl
  | pad => rfl
  | cacheA _ | cacheB _ | deltaA _ | deltaB _ => exact resolveEmit_withPcount (fun _ => rfl) d.popCode

/-- With a symbol to take under either count, the fetch does not tell them apart. -/
theorem Dec.fetch_withPcount {p : Count} {d : Dec} (h : d.q ≠ [] ∨ (d.rptr < d.pcount ∧ d.rptr < p)) :
    ∃ y, d.fetch = some y ∧ (d.withPcount p).fetch = some y := by
  cases hq : d.q with
  | cons c q => exact ⟨_, fetch_of_cons hq, fetch_of_cons (d := d.withPcount p) hq⟩
  | nil =>
    obtain ⟨hlt, hlt'⟩ := h.resolve_left (not_not_intro hq)
    exact ⟨_, fetch_of_nil hq hlt, fetch_of_nil (d := d.withPcount p) hq hlt'⟩

theorem Dec.settle_withPcount (p : Count) (d : Dec) (r : Except FaultCode Dec) :
    (d.withPcount p).settle (r.map (withPcount p)) = (d.settle r).withPcount p := by
  cases r <;> rfl

theorem Dec.advance_withPcount {p : Count} {d : Dec} (h : d.q ≠ [] ∨ (d.rptr < d.pcount ∧ d.rptr < p)) :
    (d.withPcount p).advance = d.advance.withPcount p := by
  obtain ⟨y, hy, hy'⟩ := fetch_withPcount h
  by_cases hb : d.phase = .busy
  · rw [advance_of_fetch hb hy, advance_of_fetch (d := d.withPcount p) hb hy', ← settle_withPcount,
      ← runSymbol_withPcount]
    rfl
  · rw [advance_of_not_busy hb, advance_of_not_busy (d := d.withPcount p) hb]

/-! ### Values are not unlearned -/

/-- Where `PREV` or a slot held a value, it still holds one. -/
structure Engine.KeepsValues (g g' : Engine) : Prop where
  prev : g.prev ≠ sentinel → g'.prev ≠ sentinel
  slots : ∀ i, g.slot i ≠ sentinel → g'.slot i ≠ sentinel

theorem Engine.keepsValues_of_eq {g g' : Engine} (hp : g'.prev = g.prev) (hc : g'.cache = g.cache) :
    g.KeepsValues g' where
  prev h := hp ▸ h
  slots i h := (cache_eq_iff_slot g' g).mp hc i ▸ h

/-- An emitted sample is a WorkingSample, which the sentinel is not (40_precision_reducer.md R111). -/
theorem Dec.prev_ne_sentinel_of_emit {d d' : Dec} {x : Int} (hs : d.prec ≠ 0) (h : d.emit x = .ok d') :
    d'.prev ≠ sentinel := by
  obtain ⟨hx, hmax, -, rfl⟩ := emit_eq_ok.mp h
  lift x to ℕ using hx
  have hle : (BitVec.ofInt 16 (x : Int)).toNat ≤ maxWorking d.prec := by
    rw [BitVec.ofInt_natCast, BitVec.toNat_ofNat]
    exact (Nat.mod_le _ _).trans (Int.ofNat_le.mp hmax)
  exact (sentinelIsFarFromEveryWorkingSample d.cfgSel d.prec _ hs hle).1

theorem Dec.prev_ne_sentinel_of_resolveEmit {d d' : Dec} {cur : Dec → Except FaultCode Int} (hs : d.prec ≠ 0)
    (h : d.resolveEmit cur = .ok d') : d'.prev ≠ sentinel := by
  obtain ⟨d1, x, hr, -, he⟩ := resolveEmit_eq_ok.mp h
  obtain ⟨-, rfl⟩ := resolve_eq_ok.mp hr
  exact prev_ne_sentinel_of_emit (by simpa using hs) he

/-- The payload of a Raw word has 15 bits, and the sentinel has 16. -/
theorem setWidth_ne_sentinel (v : BitVec 15) : v.setWidth 16 ≠ sentinel := by
  intro h
  have hbit := congrArg (BitVec.getLsbD · 15) h
  simp [sentinel] at hbit

theorem Engine.KeepsValues.insert {g g' : Engine} {v : Word} (h : g.KeepsValues g') (hv : v ≠ sentinel) :
    g.KeepsValues (g'.insert v) where
  prev := h.prev
  slots i hi := by
    rw [slot_insert]
    split
    · exact hv
    · exact h.slots i hi

theorem Dec.keepsValues_resolveEmit {d d' : Dec} {cur : Dec → Except FaultCode Int} (hs : d.prec ≠ 0)
    (h : d.resolveEmit cur = .ok d') : d.toEngine.KeepsValues d'.toEngine where
  prev _ := prev_ne_sentinel_of_resolveEmit hs h
  slots i hi := (cache_eq_iff_slot d'.toEngine d.toEngine).mp (cache_resolveEmit h) i ▸ hi

theorem Dec.keepsValues_runSymbol {d d' : Dec} {i : Instr} (hs : d.prec ≠ 0) (h : d.runSymbol i = .ok d') :
    d.toEngine.KeepsValues d'.toEngine := by
  cases i with
  | raw v =>
    obtain ⟨d1, hd1, rfl⟩ := runSymbol_raw_eq_ok.mp h
    exact (keepsValues_resolveEmit (d := d.nextWord) hs hd1).insert (setWidth_ne_sentinel v)
  | chunk a b c =>
    cases h
    exact Engine.keepsValues_of_eq rfl rfl
  | run n =>
    cases h
    exact Engine.keepsValues_of_eq rfl rfl
  | pad =>
    cases h
    exact Engine.keepsValues_of_eq rfl rfl
  | cacheA _ | cacheB _ | deltaA _ | deltaB _ => exact keepsValues_resolveEmit (d := d.popCode) hs h

theorem Dec.keepsValues_final {d d' : Dec} (h : d.final = .ok d') : d.toEngine.KeepsValues d'.toEngine := by
  obtain ⟨d1, hd1, -, rfl⟩ := final_eq_ok.mp h
  obtain ⟨-, rfl⟩ := resolve_eq_ok.mp hd1
  exact Engine.keepsValues_of_eq (by simp) (by simp)

theorem Dec.keepsValues_settle {d : Dec} {r : Except FaultCode Dec}
    (h : ∀ d', r = .ok d' → d.toEngine.KeepsValues d'.toEngine) : d.toEngine.KeepsValues (d.settle r).toEngine := by
  cases r with
  | ok d' => exact h d' rfl
  | error f => exact Engine.keepsValues_of_eq rfl rfl

/-- Only a reset makes `PREV` or a slot the sentinel again (70_reset_and_hazards.md R289). -/
theorem Dec.keepsValues_advance {d : Dec} (hs : d.prec ≠ 0) : d.toEngine.KeepsValues d.advance.toEngine := by
  unfold advance step
  split
  · split
    · exact keepsValues_settle fun _ => keepsValues_runSymbol hs
    · exact keepsValues_settle fun _ => keepsValues_final
  · exact Engine.keepsValues_of_eq rfl rfl

/-- Settles O59: digits merge by `runLength_append` and `Dec.advance_digits`, `PCOUNT` by `Dec.advance_withPcount`, the
sentinel by `Dec.keepsValues_advance`. -/
theorem nothingRestartsBetweenJoinedStreams : Obligations.NothingRestartsBetweenJoinedStreams := by
  unfold Obligations.NothingRestartsBetweenJoinedStreams
  refine ⟨fun before after => ?lengths, fun s x y z rest hb hq hlt hw hs => ?digits, fun s p rest hs hsym => ?pcount,
    fun s rest hs hprec => ?values⟩
  case lengths => rw [runLength_append, Nat.mul_comm]
  case digits =>
    rw [State.run_succ_of_step (step_of_engine_dec hs), State.run_succ_of_step (step_of_engine_dec rfl),
      State.run_succ_of_step (step_of_engine_dec rfl), State.run_succ_of_step (step_of_engine_dec rfl), State.run,
      Dec.advance_digits hb hq hlt hw]
  case pcount =>
    have hstep := step_of_engine_dec (s := { s with dec := s.dec.withPcount p }) hs
    rw [Dec.advance_withPcount hsym] at hstep
    exact ⟨_, step_of_engine_dec hs, hstep⟩
  case values =>
    obtain ⟨hprev, hslots⟩ := Dec.keepsValues_advance hprec
    exact ⟨_, step_of_engine_dec hs, hprev, hslots⟩

end Sys2Proof.Machine
end

section
/-!
SUPPORT. The family 46_encoder_fsm.md, second part: the frame of a sample step (R202), the first sample (R207), and the bound
on the words written (R206).
-/

namespace Sys2Proof.Machine

open Sys2Proof

/-! ### The frame of a sample step -/

/-- `PREV` is the sample just processed; a sample that extends the run is the old `PREV` (46_encoder_fsm.md R202). -/
theorem Enc.step_prev {e : Enc} (hi : e.idx < e.count) : e.step.prev = e.sample := by
  rcases e.step_cases with ⟨-, hp, hs⟩ | ⟨-, -, -, hs⟩ | ⟨-, -, -, -, hs⟩ | ⟨-, -, -, -, hs⟩ | ⟨hn, -⟩
  · rw [hs, hp]
  iterate 3 rw [hs]
  exact absurd hi hn

/-- A step only appends to `OUT` (20_memory.md R63). -/
theorem Enc.step_cells {e : Enc} (h : e.Inv) (hi : e.idx < e.count) {a : Nat} (ha : a < e.outn.toNat) :
    e.step.outBuf.read? a = e.outBuf.read? a := by
  have hlt : e.idx.toNat < e.count.toNat := hi
  obtain ⟨hflush, hweight⟩ := h.flushed_grows
  have hn : e.flushed.n.toNat ≤ e.flushed.weight := Nat.le_add_right _ _
  have hcode (c : Code) : (e.flushed.code c).out.read? a = e.outBuf.read? a :=
    (hflush.trans (Stream.code_grows c hflush.pend (by omega))).cells a ha
  rcases e.step_cases with ⟨-, -, hs⟩ | ⟨-, -, -, hs⟩ | ⟨-, -, -, -, hs⟩ | ⟨-, -, -, -, hs⟩ | ⟨hend, -⟩
  · rw [hs]
  · rw [hs]
    exact hcode _
  · rw [hs]
    exact hcode _
  · have hpack := Stream.pack_grows hflush.pend (by omega)
    have hn : e.flushed.pack.n.toNat ≤ e.flushed.pack.weight := Nat.le_add_right _ _
    have hw := hpack.weight
    have happend := Stream.append_grows (rawWord e.sample) hpack.pend (by omega)
    rw [hs]
    exact (hflush.trans (hpack.trans happend)).cells a ha
  · exact absurd hi hend

/-- Settles O37: `Enc.step_control` and `Enc.step_sameRun` for the registers, `Enc.step_prev` and `Enc.step_cells` for the
rest. -/
theorem sampleStepFrame : Obligations.SampleStepFrame := by
  unfold Obligations.SampleStepFrame
  intro e hi h
  obtain ⟨hphase, hidx⟩ := e.step_control.1 hi
  obtain ⟨hprec, hshift, hsel, hcount, hin, hfault⟩ := e.step_sameRun
  exact ⟨Enc.step_prev hi, hidx, hphase, hfault, hcount, ⟨hprec.symm, hshift.symm, hsel.symm⟩, hin,
    fun _ => Enc.step_cells h hi⟩

/-! ### The first sample -/

/-- A started encoder has neither a run nor a code to write. -/
theorem Enc.Started.flushed_pack {e : Enc} (h : e.Started) : e.flushed.pack = e.stream := by
  have hflushed : e.flushed = e.stream := by simp [flushed, runInFlight, h.fresh.run]
  have hpend : e.stream.pend = [] := h.fresh.pend
  rw [hflushed, Stream.pack, hpend]

/-- Settles O39: every value is far from the sentinel, which `PREV` and every slot hold, so the first sample breaks the run, is
no valid difference and misses the cache. -/
theorem firstSampleIsRawCoded : Obligations.FirstSampleIsRawCoded := by
  unfold Obligations.FirstSampleIsRawCoded
  rintro e cur hs hcount rfl
  have hprec := hs.prec
  obtain ⟨⟨hprev, hslots, houtn⟩, hidx, -, hpend⟩ := hs.fresh
  have hsample : precGet e.prec (memRead .encIn e.inBuf 0) = e.sample := by simp [Enc.sample, hidx]
  have hi : e.idx < e.count := by
    rw [hidx]
    exact (BitVec.pos_iff_ne_zero e.count).mpr hcount
  obtain ⟨hbreaks, hinvalid⟩ := Enc.sample_of_prev_sentinel hprec hprev
  have hmiss : e.toEngine.slot (e.toEngine.hash e.sample) ≠ e.sample := by
    rw [hslots]
    exact (Enc.sample_ne_sentinel hprec).symm
  have hstep := Enc.step_raw hi hbreaks hinvalid hmiss
  rw [hs.flushed_pack] at hstep
  have hpend' : (e.stream.append (rawWord e.sample)).pend = [] := hpend
  have hn : (e.stream.append (rawWord e.sample)).n = 1 := by simp [Stream.append, Enc.stream, houtn]
  have hcell : (e.stream.append (rawWord e.sample)).out.read? 0 = some (rawWord e.sample) := by
    simp [Stream.append, Enc.stream, houtn]
  have hslot : (e.toEngine.insert e.sample).slot (e.toEngine.hash e.sample) = e.sample := by simp [Engine.slot_insert]
  rw [hsample, hstep]
  exact ⟨hn, hcell, rfl, hpend', rfl, hslot⟩

/-! ### Words and samples -/

/-- Along the sample steps the words written, the codes pending and the run are paid for by samples taken. -/
theorem Enc.Tracks.outn_le_idx {e : Enc} {out : List Word} (h : e.Tracks out) : e.outn.toNat ≤ e.idx.toNat := by
  have haccount := h.account
  have hn : e.outn.toNat ≤ e.stream.weight := Nat.le_add_right _ _
  omega

/-- The final step writes no more than they have paid for. -/
theorem Enc.Tracks.outn_le_idx_of_final {e : Enc} {out : List Word} (h : e.Tracks out) (hi : ¬ e.idx < e.count) :
    e.step.outn.toNat ≤ e.idx.toNat := by
  obtain ⟨-, hweight⟩ := h.packed_grows
  rw [Enc.step_final hi]
  exact (Nat.le_add_right _ _).trans hweight

/-- After `COUNT` steps every sample is taken and the final step is left. -/
theorem Enc.Started.last_iterate {e : Enc} (h : e.Started) :
    (Enc.advance^[e.count.toNat] e).phase = .busy ∧ (Enc.advance^[e.count.toNat] e).idx.toNat = e.count.toNat ∧
      ¬ (Enc.advance^[e.count.toNat] e).idx < (Enc.advance^[e.count.toNat] e).count := by
  have hstart : e.idx.toNat + e.count.toNat = e.count.toNat := by simp [h.fresh.idx]
  obtain ⟨hbusy, hidx, hsame⟩ := advance_iterate_of_le h.phase hstart.le
  refine ⟨hbusy, hidx.trans hstart, ?_⟩
  rw [BitVec.lt_def, hidx, hsame.count, hstart]
  exact Nat.lt_irrefl _

/-- A started encoder after any number of steps: among its samples, or past the final step, where it stays. -/
theorem Enc.Started.outn_le_idx_iterate {e : Enc} (h : e.Started) (k : Nat) :
    (Enc.advance^[k] e).outn.toNat ≤ (Enc.advance^[k] e).idx.toNat ∧
      (Enc.advance^[k] e).idx.toNat ≤ e.count.toNat := by
  rcases Nat.lt_or_ge e.count.toNat k with hk | hk
  · obtain ⟨j, rfl⟩ := Nat.exists_eq_add_of_le' (Nat.succ_le_of_lt hk)
    obtain ⟨out, htracks⟩ := h.tracks_iterate le_rfl
    obtain ⟨hbusy, hidx, hlast⟩ := h.last_iterate
    obtain ⟨hdone, hidx'⟩ := (step_control _).2 hlast
    rw [Function.iterate_add_apply, Function.iterate_succ_apply', advance_of_busy hbusy,
      Function.iterate_fixed (advance_of_not_busy (by simp [hdone])), hidx']
    exact ⟨htracks.outn_le_idx_of_final hlast, hidx.le⟩
  · have hstart : e.idx.toNat + k = k := by simp [h.fresh.idx]
    obtain ⟨out, htracks⟩ := h.tracks_iterate hk
    obtain ⟨-, hidx, -⟩ := advance_iterate_of_le h.phase (hstart.trans_le hk)
    exact ⟨htracks.outn_le_idx, (hidx.trans hstart).trans_le hk⟩

/-- Settles O54: `Enc.Started.outn_le_idx_iterate`. -/
theorem encoderOutputNeverExceedsInput : Obligations.EncoderOutputNeverExceedsInput := by
  unfold Obligations.EncoderOutputNeverExceedsInput
  exact fun s k hs => ⟨_, s.runEngine_enc k, hs.outn_le_idx_iterate k⟩

end Sys2Proof.Machine
end

section
/-!
SUPPORT. The family 30_encoding.md, second part: every word and every code encodes back (R87, R93).
-/

namespace Sys2Proof

/-- A Raw word is its payload under bit 15 (30_encoding.md R81). -/
theorem rawWord_payload {w : Word} (h : rawIsValid w = true) : rawWord ((w.extractLsb' 0 15).setWidth 16) = w := by
  rw [rawIsValid_eq_bit] at h
  apply BitVec.eq_of_getLsbD_eq
  intro i hi
  rw [rawWord_bit, BitVec.getLsbD_extractLsb', Nat.zero_add]
  rcases Nat.lt_succ_iff_lt_or_eq.mp hi with hlt | rfl
  · simp [hlt, hlt.ne]
  · simp [h]

theorem encode_decodeWord (w : Word) : encode (decodeWord w) = .word w := by
  cases hraw : rawIsValid w with
  | true =>
    rw [decodeWord, if_pos hraw]
    exact congrArg Symbol.word (rawWord_payload hraw)
  | false =>
    rw [decodeWord_of_not_rawIsValid hraw]
    exact congrArg Symbol.word (pack3_unpack3 hraw)

/-- A word is an instruction of both configurations. -/
theorem wellFormed_decodeWord (sel : CfgSel) (w : Word) : (decodeWord w).wellFormed sel = true := by
  unfold decodeWord
  split <;> rfl

/-- A code of each scheme is an instruction of the configuration, and its header and payload make it up again. -/
theorem wellFormed_encode_decodeCode (sel : CfgSel) (c : Code) :
    (decodeCode sel c).wellFormed sel = true ∧ encode (decodeCode sel c) = .code c := by
  rcases schemesPartitionTheCodes sel c with ⟨hrun, -, -⟩ | ⟨-, hcache, -⟩ | ⟨-, -, hdelta⟩
  · rw [runScheme_eq] at hrun
    rw [decodeCode_of_isRun sel hrun]
    exact ⟨rfl, congrArg Symbol.code ((runScheme_layout .a).codeOf_payload hrun)⟩
  · have hcode := congrArg Symbol.code ((cacheScheme_layout sel).codeOf_payload hcache)
    cases sel with
    | a =>
      rw [decodeCode_a_of_isCache hcache]
      exact ⟨rfl, hcode⟩
    | b =>
      rw [decodeCode_b_of_isCache hcache]
      exact ⟨rfl, hcode⟩
  · have hcode := congrArg Symbol.code ((deltaScheme_layout sel).codeOf_payload hdelta)
    cases sel with
    | a =>
      rw [decodeCode_a_of_isDelta hdelta]
      exact ⟨rfl, hcode⟩
    | b =>
      rw [decodeCode_b_of_isDelta hdelta]
      exact ⟨rfl, hcode⟩

/-- Settles O2: words by `encode_decodeWord`, codes by `wellFormed_encode_decodeCode`. -/
theorem everySymbolDecodesAndEncodesBack : Obligations.EverySymbolDecodesAndEncodesBack := by
  unfold Obligations.EverySymbolDecodesAndEncodesBack
  intro sel y
  cases y with
  | word w => exact ⟨wellFormed_decodeWord sel w, encode_decodeWord w⟩
  | code c => exact wellFormed_encode_decodeCode sel c

end Sys2Proof
end

section
/-!
SUPPORT. The family 70_reset_and_hazards.md, second part: what the host does. The resets (R280, R281), the start of a run (R283),
the registers (10_state.md R32 to R36), the buffers (R284, R285), and the phases that only a reset leaves (60_exceptions.md
R261).
-/

namespace Sys2Proof.Machine

open Sys2Proof

/-! ### The words `STATUS` and `CFG` as numbers -/

/-- Fields side by side are digits of one number. -/
theorem toNat_append_eq_add {n m : Nat} (x : BitVec n) (y : BitVec m) :
    (x ++ y).toNat = y.toNat + 2 ^ m * x.toNat := by
  rw [BitVec.toNat_append, ← Nat.shiftLeft_add_eq_or_of_lt y.isLt, Nat.shiftLeft_eq, Nat.add_comm, Nat.mul_comm]

/-- `STATUS` (10_state.md R35). -/
theorem statusWord_toNat (g : Engine) :
    (statusWord g).toNat = (phaseBits g.phase).toNat + 4 * (faultBits g.fault).toNat := by
  rw [statusWord, BitVec.toNat_setWidth_of_le (by decide), toNat_append_eq_add]
  rfl

/-- `CFG` (10_state.md R32, R33). -/
theorem cfgWord_toNat (g : Engine) :
    (cfgWord g).toNat = g.prec.toNat + 16 * g.hashShift.toNat + if g.cfgSel = .b then 256 else 0 := by
  rw [cfgWord, BitVec.toNat_setWidth_of_le (by decide), toNat_append_eq_add, toNat_append_eq_add]
  cases g.cfgSel with
  | a => simp [cfgSelBit]
  | b =>
    simp [cfgSelBit]
    omega

/-- A write of `CFG` stores exactly the register's nine bits (10_state.md R34). -/
theorem cfgWord_writeCfg (g : Engine) (v : BitVec 32) : cfgWord (g.writeCfg v) = v &&& 0x1FF := by
  apply BitVec.eq_of_toNat_eq
  have hmask : (v &&& 0x1FF).toNat = v.toNat % 2 ^ 9 := by
    rw [BitVec.toNat_and]
    exact Nat.and_two_pow_sub_one_eq_mod _ 9
  have hbit : cfgSelOf (v.getLsbD 8) = .b ↔ v.toNat / 2 ^ 8 % 2 = 1 := by
    rw [← BitVec.testBit_toNat, Nat.testBit_eq_decide_div_mod_eq, cfgSelOf]
    split <;> simp_all
  rw [cfgWord_toNat, hmask]
  simp only [Engine.writeCfg, BitVec.extractLsb'_toNat, Nat.shiftRight_eq_div_pow, hbit]
  split <;> omega

/-! ### Moves that reach a register -/

theorem step_of_writeReg_enc {s : State} {no : Nat} {v : BitVec 32} {rest : List Move} {r : EncReg}
    (h : s.agenda = .writeReg .enc no v :: rest) (hr : encReg? no = some r) :
    step s = .next { s with agenda := rest, enc := s.enc.writeReg r v } := by
  rw [step_of_agenda_cons h, stepMove, hostWriteReg]
  simp only [hr]

theorem step_of_writeReg_dec {s : State} {no : Nat} {v : BitVec 32} {rest : List Move} {r : DecReg}
    (h : s.agenda = .writeReg .dec no v :: rest) (hr : decReg? no = some r) :
    step s = .next { s with agenda := rest, dec := s.dec.writeReg r v } := by
  rw [step_of_agenda_cons h, stepMove, hostWriteReg]
  simp only [hr]

theorem step_of_readReg_enc {s : State} {no : Nat} {rest : List Move} {r : EncReg}
    (h : s.agenda = .readReg .enc no :: rest) (hr : encReg? no = some r) :
    step s = .next { s with agenda := rest, rdata := s.enc.readReg r } := by
  rw [step_of_agenda_cons h, stepMove, hostReadReg]
  simp only [hr]

theorem step_of_readReg_dec {s : State} {no : Nat} {rest : List Move} {r : DecReg}
    (h : s.agenda = .readReg .dec no :: rest) (hr : decReg? no = some r) :
    step s = .next { s with agenda := rest, rdata := s.dec.readReg r } := by
  rw [step_of_agenda_cons h, stepMove, hostReadReg]
  simp only [hr]

/-! ### Writes -/

theorem Enc.writeReg_cfg_of_idle {e : Enc} (h : e.phase = .idle) (v : BitVec 32) :
    e.writeReg .cfg v = { e with toEngine := e.toEngine.writeCfg v } :=
  if_pos h

theorem Dec.writeReg_cfg_of_idle {d : Dec} (h : d.phase = .idle) (v : BitVec 32) :
    d.writeReg .cfg v = { d with toEngine := d.toEngine.writeCfg v } :=
  if_pos h

/-- Outside IDLE only CTRL takes a write (10_state.md R34). -/
theorem Enc.writeReg_of_not_idle {e : Enc} {r : EncReg} (h : e.phase ≠ .idle) (hr : r ≠ .ctrl) (v : BitVec 32) :
    e.writeReg r v = e := by
  cases r with
  | ctrl => exact absurd rfl hr
  | cfg | count => exact if_neg h
  | status | outn | idx => rfl

theorem Dec.writeReg_of_not_idle {d : Dec} {r : DecReg} (h : d.phase ≠ .idle) (hr : r ≠ .ctrl) (v : BitVec 32) :
    d.writeReg r v = d := by
  cases r with
  | ctrl => exact absurd rfl hr
  | cfg | pcount | expected => exact if_neg h
  | status | outn | rptr => rfl

theorem step_of_ignored_write_enc {s : State} {no : Nat} {v : BitVec 32} {rest : List Move} {r : EncReg}
    (h : s.agenda = .writeReg .enc no v :: rest) (hno : encReg? no = some r) (hr : r ≠ .ctrl)
    (hp : s.enc.phase ≠ .idle) : step s = .next { s with agenda := rest } := by
  rw [step_of_writeReg_enc h hno, Enc.writeReg_of_not_idle hp hr]

theorem step_of_ignored_write_dec {s : State} {no : Nat} {v : BitVec 32} {rest : List Move} {r : DecReg}
    (h : s.agenda = .writeReg .dec no v :: rest) (hno : decReg? no = some r) (hr : r ≠ .ctrl)
    (hp : s.dec.phase ≠ .idle) : step s = .next { s with agenda := rest } := by
  rw [step_of_writeReg_dec h hno, Dec.writeReg_of_not_idle hp hr]

/-- Settles O44: a write in IDLE is the register's own equation; outside IDLE, and to a read-only register, nothing is
stored. -/
theorem registerWritesAreGatedByPhase : Obligations.RegisterWritesAreGatedByPhase := by
  unfold Obligations.RegisterWritesAreGatedByPhase
  intro s v no rest
  refine ⟨fun hs => ⟨?encCfg, ?encCount, ?encGated, ?encReadOnly⟩,
    fun hs => ⟨?decCfg, ?decPcount, ?decExpected, ?decGated, ?decReadOnly⟩⟩
  case encCfg =>
    rintro hp rfl
    have hstep := step_of_writeReg_enc hs rfl
    rw [Enc.writeReg_cfg_of_idle hp] at hstep
    exact ⟨_, hstep, cfgWord_writeCfg _ v, rfl⟩
  case encCount =>
    rintro hp rfl
    rw [step_of_writeReg_enc hs rfl, Enc.writeReg, if_pos hp]
  case encGated =>
    rintro hp (rfl | rfl) <;> exact step_of_ignored_write_enc hs rfl nofun hp
  case encReadOnly =>
    rintro (rfl | rfl | rfl) <;> exact step_of_writeReg_enc hs rfl
  case decCfg =>
    rintro hp rfl
    have hstep := step_of_writeReg_dec hs rfl
    rw [Dec.writeReg_cfg_of_idle hp] at hstep
    exact ⟨_, hstep, cfgWord_writeCfg _ v, rfl⟩
  case decPcount =>
    rintro hp rfl
    rw [step_of_writeReg_dec hs rfl, Dec.writeReg, if_pos hp]
  case decExpected =>
    rintro hp rfl
    rw [step_of_writeReg_dec hs rfl, Dec.writeReg, if_pos hp]
  case decGated =>
    rintro hp (rfl | rfl | rfl) <;> exact step_of_ignored_write_dec hs rfl nofun hp
  case decReadOnly =>
    rintro (rfl | rfl | rfl) <;> exact step_of_writeReg_dec hs rfl

/-! ### Reads -/

/-- Settles O45: each number names its register; `STATUS` and `CFG` by their numbers. -/
theorem registerReads : Obligations.RegisterReads := by
  unfold Obligations.RegisterReads
  refine ⟨by decide, by decide, fun s rest no r => ⟨fun hs hr => ?enc, fun hs hr => ?dec⟩⟩
  case enc =>
    obtain ⟨reg, hreg, rfl⟩ : ∃ reg, encReg? no = some reg ∧ r = s.enc.readReg reg := by
      rcases hr with ⟨rfl, hr⟩ | ⟨rfl, hr⟩ | ⟨rfl, hr⟩ | ⟨rfl, hr⟩ | ⟨rfl, hr⟩ | ⟨rfl, hr⟩
      iterate 4 exact ⟨_, rfl, hr⟩
      · exact ⟨_, rfl, BitVec.eq_of_toNat_eq (hr.trans (statusWord_toNat _).symm)⟩
      · exact ⟨_, rfl, BitVec.eq_of_toNat_eq (hr.trans (cfgWord_toNat _).symm)⟩
    exact step_of_readReg_enc hs hreg
  case dec =>
    obtain ⟨reg, hreg, rfl⟩ : ∃ reg, decReg? no = some reg ∧ r = s.dec.readReg reg := by
      rcases hr with ⟨rfl, hr⟩ | ⟨rfl, hr⟩ | ⟨rfl, hr⟩ | ⟨rfl, hr⟩ | ⟨rfl, hr⟩ | ⟨rfl, hr⟩ | ⟨rfl, hr⟩
      iterate 5 exact ⟨_, rfl, hr⟩
      · exact ⟨_, rfl, BitVec.eq_of_toNat_eq (hr.trans (statusWord_toNat _).symm)⟩
      · exact ⟨_, rfl, BitVec.eq_of_toNat_eq (hr.trans (cfgWord_toNat _).symm)⟩
    exact step_of_readReg_dec hs hreg

/-! ### The resets -/

theorem Enc.writeReg_ctrl_reset {v : BitVec 32} (h : v.getLsbD 1 = true) (e : Enc) : e.writeReg .ctrl v = e.softReset :=
  if_pos h

theorem Dec.writeReg_ctrl_reset {v : BitVec 32} (h : v.getLsbD 1 = true) (d : Dec) : d.writeReg .ctrl v = d.softReset :=
  if_pos h

theorem Enc.softReset_fresh (e : Enc) : e.softReset.Fresh :=
  ⟨e.toEngine.softReset_fresh, rfl, rfl, rfl⟩

theorem Dec.softReset_fresh (d : Dec) : d.softReset.Fresh :=
  ⟨d.toEngine.softReset_fresh, rfl, rfl, rfl⟩

/-- Settles O42: the write is `Enc.softReset` or `Dec.softReset`, whatever bit 0 holds. -/
theorem softResetKeepsTheConfiguration : Obligations.SoftResetKeepsTheConfiguration := by
  unfold Obligations.SoftResetKeepsTheConfiguration
  intro s v rest
  refine ⟨fun hs hv => ?enc, fun hs hv => ?dec, fun side hs => ?zero⟩
  case enc =>
    rw [step_of_writeCtrl_enc hs, Enc.writeReg_ctrl_reset hv]
    exact ⟨_, rfl, s.enc.softReset_fresh, rfl, rfl, ⟨rfl, rfl, rfl⟩, rfl, rfl, rfl⟩
  case dec =>
    rw [step_of_writeCtrl_dec hs, Dec.writeReg_ctrl_reset hv]
    exact ⟨_, rfl, s.dec.softReset_fresh, rfl, rfl, ⟨rfl, rfl, rfl, rfl, rfl, rfl⟩, rfl⟩
  case zero =>
    cases side with
    | enc => exact step_of_writeCtrl_enc hs
    | dec => exact step_of_writeCtrl_dec hs

/-- Settles O43: hardware reset is the state right after reset with the buffers kept. -/
theorem hardResetSparesTheBuffers : Obligations.HardResetSparesTheBuffers := by
  unfold Obligations.HardResetSparesTheBuffers
  exact fun s rest hs => step_of_agenda_cons hs

theorem Enc.reset_fresh : Enc.reset.Fresh :=
  ⟨⟨rfl, Engine.slot_replicate rfl, rfl⟩, rfl, rfl, rfl⟩

theorem Dec.reset_fresh : Dec.reset.Fresh :=
  ⟨⟨rfl, Engine.slot_replicate rfl, rfl⟩, rfl, rfl, rfl⟩

/-- Settles O40: both working states are fresh, and every register holds the value `State.reset` gives it. -/
theorem resetValues : Obligations.ResetValues := by
  unfold Obligations.ResetValues
  exact ⟨Enc.reset_fresh, Dec.reset_fresh, rfl, rfl, rfl, rfl, rfl, rfl, rfl, rfl, rfl⟩

/-- Settles O50: an idle engine whose working state is fresh meets its invariant. -/
theorem invariantHoldsAtReset : Obligations.InvariantHoldsAtReset := by
  unfold Obligations.InvariantHoldsAtReset
  have hengine := Engine.inv_of_fresh Enc.reset_fresh.engine rfl rfl Memory.wf_nil Memory.wf_nil
  exact ⟨Enc.inv_of_fresh hengine rfl Enc.reset_fresh, Dec.inv_of_fresh hengine rfl Dec.reset_fresh⟩

/-- Settles O52: an idle engine is fresh by the invariant, and START makes it BUSY and changes nothing else. -/
theorem everyRunStartsFresh : Obligations.EveryRunStartsFresh := by
  unfold Obligations.EveryRunStartsFresh
  intro s rest h
  obtain ⟨henc, hdec⟩ := startChecksAndRuns s 1 rest rfl rfl
  refine ⟨fun hs hp hz => ?_, fun hs hp hz => ?_⟩
  · obtain ⟨-, -, hstart⟩ := henc hs
    obtain ⟨⟨hprev, hslots, houtn⟩, hidx, hrun, hpend⟩ := h.enc.idle hp
    exact ⟨_, hstart hp hz, ⟨⟨hprev, hslots, houtn⟩, hidx, hrun, hpend⟩, rfl, h.enc.engine.fault_of_idle hp, hz⟩
  · obtain ⟨-, -, hstart⟩ := hdec hs
    obtain ⟨⟨hprev, hslots, houtn⟩, hrptr, hq, hacc⟩ := h.dec.idle hp
    exact ⟨_, hstart hp hz, ⟨⟨hprev, hslots, houtn⟩, hrptr, hq, hacc⟩, rfl, h.dec.engine.fault_of_idle hp, hz⟩

/-! ### The buffers -/

/-- Settles O46: the placing is `Memory.write`, gated by the phase. -/
theorem hostPlacesInputBetweenRuns : Obligations.HostPlacesInputBetweenRuns := by
  unfold Obligations.HostPlacesInputBetweenRuns
  intro s i v rest
  refine ⟨fun hs => ⟨fun hb => ?_, fun hb => ⟨s.enc.inBuf.write i.toNat v, ?_, ?_, ?_⟩⟩,
    fun hs => ⟨fun hb => ?_, fun hb => ⟨s.dec.inBuf.write i.toNat v, ?_, ?_, ?_⟩⟩⟩
  · exact (step_of_agenda_cons hs).trans (if_pos hb)
  · exact (step_of_agenda_cons hs).trans (if_neg hb)
  · exact Memory.read?_write_same _ _ v
  · exact fun a ha => Memory.read?_write_other _ v ha
  · exact (step_of_agenda_cons hs).trans (if_pos hb)
  · exact (step_of_agenda_cons hs).trans (if_neg hb)
  · exact Memory.read?_write_same _ _ v
  · exact fun a ha => Memory.read?_write_other _ v ha

theorem memRead_of_read?_eq_none {sp : Space} {m : Memory} {i : Nat} (h : m.read? i = none) :
    memRead sp m i = Config.unwrittenCell sp i := by
  rw [memRead, h]

/-- What the read port takes from a cell: its value, or its free value, zero-extended (20_memory.md R62). -/
theorem toNat_setWidth_memRead (sp : Space) (m : Memory) (i : Nat) :
    (∀ v, m.read? i = some v → ((memRead sp m i).setWidth 32).toNat = v.toNat) ∧
    (m.read? i = none → ((memRead sp m i).setWidth 32).toNat = (Config.unwrittenCell sp i).toNat) := by
  rw [BitVec.toNat_setWidth_of_le (by decide)]
  exact ⟨fun v h => by rw [memRead_of_read? sp h], fun h => by rw [memRead_of_read?_eq_none h]⟩

/-- Settles O58: `toNat_setWidth_memRead`, for either engine. -/
theorem hostReadsOutputCells : Obligations.HostReadsOutputCells := by
  unfold Obligations.HostReadsOutputCells
  exact fun s i rest => ⟨fun hs => ⟨_, step_of_agenda_cons hs, toNat_setWidth_memRead _ _ _⟩,
    fun hs => ⟨_, step_of_agenda_cons hs, toNat_setWidth_memRead _ _ _⟩⟩

/-! ### DONE and FAULT -/

/-- The move is a reset of the engine: hardware reset, or a write to its CTRL with bit 1 set (70_reset_and_hazards.md R280,
R281). -/
def Move.Resets (m : Move) (e : Side) : Prop :=
  m = .hardReset ∨ ∃ v, m = .writeReg e 0 v ∧ v.getLsbD 1 = true

/-- From `g` to `g'` DONE and FAULT are left for IDLE alone, and only if `reset` holds. -/
def Engine.LeavesEndBy (reset : Prop) (g g' : Engine) : Prop :=
  g.phase = .done ∨ g.phase = .fault →
    (g'.phase = g.phase ∧ g'.fault = g.fault) ∨ (g'.phase = .idle ∧ reset)

theorem Phase.ne_idle_of_end {p : Phase} (h : p = .done ∨ p = .fault) : p ≠ .idle := by
  rcases h with rfl | rfl <;> decide

theorem Phase.ne_busy_of_end {p : Phase} (h : p = .done ∨ p = .fault) : p ≠ .busy := by
  rcases h with rfl | rfl <;> decide

section
variable (reset : Prop)

theorem Engine.leavesEndBy_of_same {g g' : Engine} (hp : g'.phase = g.phase) (hf : g'.fault = g.fault) :
    g.LeavesEndBy reset g' :=
  fun _ => .inl ⟨hp, hf⟩

/-- START after a run is ignored (70_reset_and_hazards.md R283). -/
theorem Engine.start_leavesEndBy (g : Engine) : g.LeavesEndBy reset g.start := by
  intro h
  rw [start_of_not_idle (Phase.ne_idle_of_end h)]
  exact .inl ⟨rfl, rfl⟩

theorem Enc.advance_leavesEndBy (e : Enc) : e.toEngine.LeavesEndBy reset e.advance.toEngine := by
  intro h
  rw [advance_of_not_busy (Phase.ne_busy_of_end h)]
  exact .inl ⟨rfl, rfl⟩

theorem Dec.advance_leavesEndBy (d : Dec) : d.toEngine.LeavesEndBy reset d.advance.toEngine := by
  intro h
  rw [advance_of_not_busy (Phase.ne_busy_of_end h)]
  exact .inl ⟨rfl, rfl⟩

variable {reset}

theorem Engine.leavesEndBy_of_idle {g g' : Engine} (hp : g'.phase = .idle) (hr : reset) : g.LeavesEndBy reset g' :=
  fun _ => .inr ⟨hp, hr⟩

/-- A write to CTRL with bit 1 set resets; no other write leaves DONE or FAULT. -/
theorem Enc.writeReg_leavesEndBy {e : Enc} {r : EncReg} {v : BitVec 32}
    (hreset : r = .ctrl → v.getLsbD 1 = true → reset) : e.toEngine.LeavesEndBy reset (e.writeReg r v).toEngine := by
  by_cases hr : r = .ctrl
  · subst hr
    simp only [writeReg]
    split_ifs with h1
    · exact Engine.leavesEndBy_of_idle rfl (hreset rfl h1)
    · exact Engine.start_leavesEndBy reset _
    · exact Engine.leavesEndBy_of_same reset rfl rfl
  · intro h
    rw [writeReg_of_not_idle (Phase.ne_idle_of_end h) hr]
    exact .inl ⟨rfl, rfl⟩

theorem Dec.writeReg_leavesEndBy {d : Dec} {r : DecReg} {v : BitVec 32}
    (hreset : r = .ctrl → v.getLsbD 1 = true → reset) : d.toEngine.LeavesEndBy reset (d.writeReg r v).toEngine := by
  by_cases hr : r = .ctrl
  · subst hr
    simp only [writeReg]
    split_ifs with h1
    · exact Engine.leavesEndBy_of_idle rfl (hreset rfl h1)
    · exact Engine.start_leavesEndBy reset _
    · exact Engine.leavesEndBy_of_same reset rfl rfl
  · intro h
    rw [writeReg_of_not_idle (Phase.ne_idle_of_end h) hr]
    exact .inl ⟨rfl, rfl⟩

end

/-- Both engines, each with its own resets. -/
structure State.LeavesEndBy (reset : Side → Prop) (s t : State) : Prop where
  enc : s.enc.toEngine.LeavesEndBy (reset .enc) t.enc.toEngine
  dec : s.dec.toEngine.LeavesEndBy (reset .dec) t.dec.toEngine

theorem State.leavesEndBy_of_same (reset : Side → Prop) {s t : State} (he : t.enc = s.enc) (hd : t.dec = s.dec) :
    s.LeavesEndBy reset t :=
  ⟨Engine.leavesEndBy_of_same _ (by rw [he]) (by rw [he]), Engine.leavesEndBy_of_same _ (by rw [hd]) (by rw [hd])⟩

theorem stepEngine_leavesEndBy (reset : Side → Prop) {e : Side} {s t : State} (ht : stepEngine e s = .next t) :
    s.LeavesEndBy reset t := by
  cases e with
  | enc =>
    rw [stepEngine_enc] at ht
    cases ht
    exact ⟨Enc.advance_leavesEndBy _ _, Engine.leavesEndBy_of_same _ rfl rfl⟩
  | dec =>
    rw [stepEngine_dec] at ht
    cases ht
    exact ⟨Engine.leavesEndBy_of_same _ rfl rfl, Dec.advance_leavesEndBy _ _⟩

theorem encReg?_eq_ctrl {no : Nat} (h : encReg? no = some .ctrl) : no = 0 := by
  unfold encReg? at h
  split at h <;> cases h
  rfl

theorem decReg?_eq_ctrl {no : Nat} (h : decReg? no = some .ctrl) : no = 0 := by
  unfold decReg? at h
  split at h <;> cases h
  rfl

theorem hostWriteReg_leavesEndBy {e : Side} {no : Nat} {v : BitVec 32} {s t : State}
    (ht : hostWriteReg e no v s = .next t) : s.LeavesEndBy (Move.writeReg e no v).Resets t := by
  cases e with
  | enc =>
    simp only [hostWriteReg] at ht
    split at ht <;> cases ht
    next r hr =>
      refine ⟨Enc.writeReg_leavesEndBy fun hctrl hv => ?_, Engine.leavesEndBy_of_same _ rfl rfl⟩
      subst hctrl
      obtain rfl := encReg?_eq_ctrl hr
      exact .inr ⟨v, rfl, hv⟩
  | dec =>
    simp only [hostWriteReg] at ht
    split at ht <;> cases ht
    next r hr =>
      refine ⟨Engine.leavesEndBy_of_same _ rfl rfl, Dec.writeReg_leavesEndBy fun hctrl hv => ?_⟩
      subst hctrl
      obtain rfl := decReg?_eq_ctrl hr
      exact .inr ⟨v, rfl, hv⟩

theorem hostReadReg_leavesEndBy (reset : Side → Prop) {e : Side} {no : Nat} {s t : State}
    (ht : hostReadReg e no s = .next t) : s.LeavesEndBy reset t := by
  cases e with
  | enc =>
    simp only [hostReadReg] at ht
    split at ht <;> cases ht
    exact State.leavesEndBy_of_same reset rfl rfl
  | dec =>
    simp only [hostReadReg] at ht
    split at ht <;> cases ht
    exact State.leavesEndBy_of_same reset rfl rfl

theorem hostWriteIn_leavesEndBy (reset : Side → Prop) {e : Side} {i : Count} {v : Word} {s t : State}
    (ht : hostWriteIn e i v s = .next t) : s.LeavesEndBy reset t := by
  cases e with
  | enc =>
    simp only [hostWriteIn] at ht
    split at ht <;> cases ht
    exact ⟨Engine.leavesEndBy_of_same _ rfl rfl, Engine.leavesEndBy_of_same _ rfl rfl⟩
  | dec =>
    simp only [hostWriteIn] at ht
    split at ht <;> cases ht
    exact ⟨Engine.leavesEndBy_of_same _ rfl rfl, Engine.leavesEndBy_of_same _ rfl rfl⟩

theorem stepMove_leavesEndBy {m : Move} {s t : State} (ht : stepMove m s = .next t) : s.LeavesEndBy m.Resets t := by
  cases m with
  | engine e => exact stepEngine_leavesEndBy _ ht
  | hardReset =>
    cases ht
    exact ⟨Engine.leavesEndBy_of_idle rfl (.inl rfl), Engine.leavesEndBy_of_idle rfl (.inl rfl)⟩
  | writeReg e no v => exact hostWriteReg_leavesEndBy ht
  | readReg e no => exact hostReadReg_leavesEndBy _ ht
  | writeIn e i v => exact hostWriteIn_leavesEndBy _ ht
  | readOut e i => cases e <;> cases ht <;> exact State.leavesEndBy_of_same _ rfl rfl

theorem stepTurn_leavesEndBy (reset : Side → Prop) {s t : State} (ht : stepTurn s = .next t) :
    s.LeavesEndBy reset t := by
  unfold stepTurn at ht
  split at ht
  · obtain ⟨henc, hdec⟩ := stepEngine_leavesEndBy reset ht
    exact ⟨henc, hdec⟩
  · exact stepEngine_leavesEndBy reset ht

theorem Engine.LeavesEndBy.imp {p q : Prop} {g g' : Engine} (h : g.LeavesEndBy p g') (hpq : p → q) :
    g.LeavesEndBy q g' :=
  fun hend => (h hend).imp_right fun ⟨hidle, hp⟩ => ⟨hidle, hpq hp⟩

/-- A reset at the head of the agenda, as the statement spells it out. -/
theorem Move.Resets.agenda {m : Move} {e : Side} {ms rest : List Move} (hm : ms = m :: rest) (h : m.Resets e) :
    ∃ rest, ms = .hardReset :: rest ∨ ∃ v, ms = .writeReg e 0 v :: rest ∧ v.getLsbD 1 = true := by
  subst hm
  rcases h with rfl | ⟨v, rfl, hv⟩
  · exact ⟨rest, .inl rfl⟩
  · exact ⟨rest, .inr ⟨v, rfl, hv⟩⟩

/-- Settles O48: no move leaves DONE or FAULT but the resets, and no turn of an engine does. -/
theorem doneAndFaultAreLeftOnlyByReset : Obligations.DoneAndFaultAreLeftOnlyByReset := by
  unfold Obligations.DoneAndFaultAreLeftOnlyByReset
  intro s t ht
  cases hs : s.agenda with
  | cons m rest =>
    rw [step_of_agenda_cons hs] at ht
    obtain ⟨henc, hdec⟩ := stepMove_leavesEndBy ht
    exact ⟨henc.imp fun h => h.agenda rfl, hdec.imp fun h => h.agenda rfl⟩
  | nil =>
    rw [step_of_agenda_nil hs] at ht
    obtain ⟨henc, hdec⟩ := stepTurn_leavesEndBy (fun _ => False) ht
    exact ⟨henc.imp False.elim, hdec.imp False.elim⟩

end Sys2Proof.Machine
end
